-- ==== Sys2Proof/Word.lean ====
section
/-! DEFINITION. The widths of `spec/00_scope.md` R8: a byte, a halfword, a word.
Arithmetic is `BitVec`'s, which wraps as R9 says (`+32` is `+`, `-32` is `-`, `<<32` is `<<<`, `>>32` is `>>>`, `NOT32`
is `~~~`); nothing is signed. -/

namespace Sys2Proof

/-- A byte, 8 bits (R8). -/
abbrev Byte := BitVec 8

/-- A halfword, 16 bits (R8). -/
abbrev Half := BitVec 16

/-- A word, 32 bits (R8). -/
abbrev Word := BitVec 32

end Sys2Proof
end

