-- ==== Sys2Proof/Config.lean ====
section
/-! DEFINITION. What the spec leaves to an implementation (`spec/00_scope.md` R7, `spec/10_state.md` R35): the shapes of the
configuration records, and the OPEN values as opaque constants, which no proof can see into.
The values the spec chooses (purposes, masks, tags, offsets, codes) are in `Sys2Proof/Machine/Params.lean`. -/

namespace Sys2Proof

/-- The four hash purposes (`spec/41_hash.md` R111). `tableOffset` is named by the source and selected by no command. -/
inductive Purpose where
  | tableOffset | hashA | hashB | tableKey
deriving DecidableEq, Repr

/-- The three byte buffers, each an address space of its own (`spec/10_state.md` R30). -/
inductive Space where
  | nbuf | dbuf | obuf
deriving DecidableEq, Repr

/-- The two codecs the dispatcher knows (`spec/45_codec.md` R181). -/
inductive Codec where
  | zlib | implode
deriving DecidableEq, Repr

/-- The direction of a cipher pass (`spec/42_cipher.md` R121). -/
inductive Direction where
  | dec | enc
deriving DecidableEq, Repr

/-- The seven flag masks of a Block Table record, held as one record as `spec/30_encoding.md` R88 asks. -/
structure FlagMasks where
  implode : Word
  compressed : Word
  encrypted : Word
  encryptionFix : Word
  singleUnit : Word
  hasCrc : Word
  existing : Word
deriving DecidableEq, Repr

/-- The capacities of the three buffers, the parameters `NAME_MAX`, `DBUF_SIZE` and `OBUF_SIZE` of R7. -/
structure Geometry where
  nameMax : Nat
  dbufSize : Nat
  obufSize : Nat
deriving DecidableEq, Repr

/-- The ranges R7 gives the three parameters. -/
abbrev Geometry.wf (g : Geometry) : Prop :=
  1 ≤ g.nameMax ∧ 1 ≤ g.dbufSize ∧ g.dbufSize ≤ 2 ^ 32 ∧ 1 ≤ g.obufSize ∧ g.obufSize ≤ 2 ^ 32

/-- OPEN (R7, D4): any natural number; `NAME_MAX` is one more. -/
opaque Config.nameMaxLessOne : Nat

/-- OPEN (R7, D4): any number below `2^32`; `DBUF_SIZE` is one more. -/
opaque Config.dbufSizeLessOne : Word

/-- OPEN (R7, D4): any number below `2^32`; `OBUF_SIZE` is one more. -/
opaque Config.obufSizeLessOne : Word

/-- The engine's capacities: every triple R7 allows is a possible value, and no other is (log entry 4). -/
def Config.geometry : Geometry where
  nameMax := Config.nameMaxLessOne + 1
  dbufSize := Config.dbufSizeLessOne.toNat + 1
  obufSize := Config.obufSizeLessOne.toNat + 1

/-- OPEN (R54, D4): where the register block stands on the host's bus. No rule depends on it. -/
opaque Config.regBase : Nat

/-- OPEN (R54, D4): where each buffer stands on the host's bus. No rule depends on it. -/
opaque Config.bufBase : Space → Nat

/-- OPEN (`spec/45_codec.md` R183, D15; U4, U5): the two codec functions before the limit is applied. `none` is the
spec's `Fail`. The answer depends on the payload and the limit alone. -/
opaque Config.rawCodec : Codec → List Byte → Nat → Option (List Byte)

/-- The bytes that have no value the spec states (U1, U2, U3): one free byte for each draw and address (log entries 1
and 2). -/
opaque Config.freeByte : Nat → Nat → Byte

end Sys2Proof
end

