-- ==== Sys2Proof/HostScript.lean ====
section
/-! DEFINITION. The moves of the host and of the platform (`spec/30_encoding.md` R91, `spec/10_state.md` R31,
`spec/70_reset_and_hazards.md` R240), and what the host's reads return. The engine has no program counter (R24): these
moves are its whole input (log entry 6). -/

namespace Sys2Proof

/-- One move of the host or of the platform. They take effect in the order issued (`spec/20_memory.md` R61). -/
inductive HostAccess where
  /-- `WR`: a write of `size` bytes at `offset` of the register block. A write to offset 0 issues a command (R27). -/
  | regWrite (offset size : Nat) (v : Word)
  /-- `RD`: a read of `size` bytes at `offset` of the register block. -/
  | regRead (offset size : Nat)
  /-- `LDB`: the listed bytes to `space[addr]`, `space[addr+1]`, ... -/
  | bufWrite (space : Space) (addr : Nat) (bytes : List Byte)
  /-- `RDB`: `n` bytes from `space[addr]` on. -/
  | bufRead (space : Space) (addr n : Nat)
  /-- The platform asserts the reset input (R240). -/
  | reset
deriving DecidableEq, Repr

/-- What a host's read returned. -/
inductive HostReply where
  | word (v : Word)
  | bytes (bs : List Byte)
deriving DecidableEq, Repr

end Sys2Proof
end

