-- ==== Sys2Proof/Syntax.lean ====
section
/-! DEFINITION. The commands of the engine: one constructor for each row of `spec/opcode_table.json`
(`spec/30_encoding.md` R82). A command word holds no operand but the hash purpose (R80), which the row fixes, so no
constructor takes an argument. -/

namespace Sys2Proof

/-- The eight commands (R82). Their operands are registers and buffers of the state (`spec/10_state.md` R33). -/
inductive Instr where
  /-- `HASH.A`, word `0x00000101`: the digest of the name for purpose `HashA` (R110). -/
  | hashA
  /-- `HASH.B`, word `0x00000201`: the digest of the name for purpose `HashB` (R110). -/
  | hashB
  /-- `HASH.K`, word `0x00000301`: the digest of the name for purpose `TableKey` (R110). -/
  | hashK
  /-- `DECRYPT`, word `0x00000002`: decipher a region of `DBUF` in place (R120). -/
  | decrypt
  /-- `ENCRYPT`, word `0x00000003`: encipher a region of `DBUF` in place (R126). -/
  | encrypt
  /-- `KEYGEN`, word `0x00000004`: derive the per-file key (R135). -/
  | keygen
  /-- `EXTRACT`, word `0x00000005`: reconstruct a stored file (R145). -/
  | extract
  /-- `DECOMP`, word `0x00000006`: decompress one tagged sector (R180). -/
  | decomp
deriving DecidableEq, Repr

end Sys2Proof
end

