-- ==== Sys2Proof/WellFormed.lean ====
section
/-! DEFINITION. Which commands, command words and host moves are well formed.
A command has no operand (`spec/30_encoding.md` R80), so every term of `Instr` is well formed; what can be ill formed is the
word that is to name a command (R81, R85) and a host's register access (`spec/10_state.md` R31). -/

namespace Sys2Proof

/-- No command has an operand that could be ill formed (R80). -/
def Instr.wellFormed (i : Instr) : Bool :=
  match i with
  | .hashA => true
  | .hashB => true
  | .hashK => true
  | .decrypt => true
  | .encrypt => true
  | .keygen => true
  | .extract => true
  | .decomp => true

/-- The fields of a command word (R81). -/
structure CommandFields where
  opcode : BitVec 8
  purpose : BitVec 2
  reserved : BitVec 22
deriving DecidableEq, Repr

/-- The fields cut from a word: opcode in bits 7:0, purpose in 9:8, reserved in 31:10 (R81). -/
def CommandFields.ofWord (w : Word) : CommandFields where
  opcode := w.extractLsb' 0 8
  purpose := w.extractLsb' 8 2
  reserved := w.extractLsb' 10 22

/-- What R81, R82 and R85 ask of the fields: reserved bits 0, a known opcode, a purpose other than 0 for `HASH` and 0 for every
other command. -/
def CommandFields.wellFormed (f : CommandFields) : Bool :=
  f.reserved == 0 && ((f.opcode == 0x01 && f.purpose != 0) || (0x02 ≤ f.opcode && f.opcode ≤ 0x06 && f.purpose == 0))

/-- A register access is an aligned 32-bit word (R31). -/
def wordAligned (offset size : Nat) : Bool := offset % 4 == 0 && size == 4

/-- A host move the spec defines: register accesses are aligned words (R31). Whether a buffer address exists depends on the
state and is not asked here. -/
def HostAccess.wellFormed : HostAccess → Bool
  | .regWrite offset size _ => wordAligned offset size
  | .regRead offset size => wordAligned offset size
  | .bufWrite _ _ _ => true
  | .bufRead _ _ _ => true
  | .reset => true

end Sys2Proof
end

