-- ==== Sys2Proof/Decode.lean ====
section
/-! DEFINITION. The command decoder and encoder (`spec/30_encoding.md` R80 to R86).
A command word is the data of a 32-bit write to `CMD` (`spec/20_memory.md` R64): no byte order enters. -/

namespace Sys2Proof

/-- Why a word is no command. -/
inductive DecodeError where
  /-- The word is not one of the eight of R82; `CMD`'s decoder then raises `IllegalCommand` (R84, R85). -/
  | illegalCommand (w : Word)
deriving DecidableEq, Repr

/-- The eight legal words and the commands they issue (R82). -/
def commandTable : List (Word × Instr) :=
  [(0x00000101, .hashA), (0x00000201, .hashB), (0x00000301, .hashK), (0x00000002, .decrypt),
   (0x00000003, .encrypt), (0x00000004, .keygen), (0x00000005, .extract), (0x00000006, .decomp)]

/-- The command of the first row whose word is `w`. -/
def lookupCommand : List (Word × Instr) → Word → Option Instr
  | [], _ => none
  | (v, i) :: rows, w => if w = v then some i else lookupCommand rows w

/-- Decoding is total: compare with the eight words, else reject by name (R84). -/
def decode (w : Word) : Except DecodeError Instr :=
  match lookupCommand commandTable w with
  | some i => .ok i
  | none => .error (.illegalCommand w)

/-- The opcode field of a command (R82). -/
def Instr.opcode (i : Instr) : BitVec 8 :=
  match i with
  | .hashA => 0x01
  | .hashB => 0x01
  | .hashK => 0x01
  | .decrypt => 0x02
  | .encrypt => 0x03
  | .keygen => 0x04
  | .extract => 0x05
  | .decomp => 0x06

/-- The purpose field of a command (R82): 0 for every command but `HASH`. -/
def Instr.purposeField (i : Instr) : BitVec 2 :=
  match i with
  | .hashA => 1
  | .hashB => 2
  | .hashK => 3
  | .decrypt => 0
  | .encrypt => 0
  | .keygen => 0
  | .extract => 0
  | .decomp => 0

/-- The word of a command, put together from its fields (R81): reserved zeros, purpose, opcode. -/
def encode (i : Instr) : Word := (0#22 ++ i.purposeField) ++ i.opcode

/-- The host's reading of the opcode table: an instruction of `nbits` bits is one 32-bit word, `w` its number; a number that
does not fit a `CMD` write is no command (log entry 19). -/
def decodeTableWord (nbits w : Nat) : Option Instr :=
  let v := w % 2 ^ nbits
  if v < 2 ^ 32 then (decode (BitVec.ofNat 32 v)).toOption else none

end Sys2Proof
end

