-- ==== Sys2Proof/Machine/Params.lean ====
section
/-! DEFINITION. The numbers the spec chooses, each where a later repair can mend it: register offsets
(`spec/10_state.md` R22 to R27), purposes, flag masks and tags (`spec/30_encoding.md` R87 to R89), the constants of
`spec/00_scope.md` R6, and the codecs' limit (`spec/45_codec.md` R183). -/

namespace Sys2Proof

/-- The number of a purpose, which is the 256-entry block of the table it selects (R87). PRESUMED by the spec (G1; log entry
13). -/
def Config.purposeNumber : Purpose → Nat
  | .tableOffset => 0
  | .hashA => 1
  | .hashB => 2
  | .tableKey => 3

/-- The table block of the cipher (R6, R87: `0x400`). -/
def Config.cipherBlock : Nat := 4

/-- The flag masks (R88). PRESUMED by the spec (G2; log entry 14). -/
def Config.flagMasks : FlagMasks where
  implode := 0x00000100
  compressed := 0x00000200
  encrypted := 0x00010000
  encryptionFix := 0x00020000
  singleUnit := 0x01000000
  hasCrc := 0x04000000
  existing := 0x80000000

/-- The codec a tag byte names; the byte is compared whole (R89, R182). PRESUMED by the spec (G3; log entry 15). -/
def Config.codecOfTag (tag : Byte) : Option Codec :=
  if tag = 0x02 then some .zlib else if tag = 0x08 then some .implode else none

/-- The largest legal sector-size shift (R7, R146). -/
def Config.sshiftMax : Nat := 22

/-- The base sector size in bytes (R6, R146). -/
def Config.baseSector : Nat := 512

/-- The hash's first seed (R6, R112). -/
def Config.hashSeed1 : Word := 0x7FED7FED

/-- The second seed of the hash and of the cipher (R6, R112, R121). -/
def Config.seed2 : Word := 0xEEEEEEEE

/-- The codecs of R183: total functions of payload and limit whose `Ok` results are at most `limit` bytes long. Every pair of
functions R183 allows is `codec` for some value of `rawCodec` (log entry 5). -/
def Config.codec (c : Codec) (payload : List Byte) (limit : Nat) : Option (List Byte) :=
  (Config.rawCodec c payload limit).map (List.take limit)

/-- `CMD` (R27). -/
def Config.offCmd : Nat := 0x00
/-- `STATUS` (R25). -/
def Config.offStatus : Nat := 0x04
/-- `EINFO` (R26). -/
def Config.offEinfo : Nat := 0x08
/-- `RESULT` (R23). -/
def Config.offResult : Nat := 0x0C
/-- `OLEN` (R23). -/
def Config.offOlen : Nat := 0x10
/-- `KEY` (R22). -/
def Config.offKey : Nat := 0x14
/-- `OFFSET` (R22). -/
def Config.offOffset : Nat := 0x18
/-- `LENGTH` (R22). -/
def Config.offLength : Nat := 0x1C
/-- `NLEN` (R22). -/
def Config.offNlen : Nat := 0x20
/-- `BOFF` (R22). -/
def Config.offBoff : Nat := 0x24
/-- `CSIZE` (R22). -/
def Config.offCsize : Nat := 0x28
/-- `USIZE` (R22). -/
def Config.offUsize : Nat := 0x2C
/-- `FLAGS` (R22). -/
def Config.offFlags : Nat := 0x30
/-- `SSHIFT` (R22). -/
def Config.offSshift : Nat := 0x34

end Sys2Proof
end

