-- ==== Sys2Proof/Machine/CipherTable.lean ====
section
/-! DEFINITION. The generator of the Cipher Table (`spec/40_cipher_table.md` R100, R101). The order of the two halves, the
choice of the low 16 bits and the nesting of the loops are PRESUMED by the spec (G5, D9; log entry 16). -/

namespace Sys2Proof.Machine

/-- The generator's start value (R100). -/
def lcgSeed : Nat := 0x00100001

/-- One step of the generator (R100); the product is exact (R101). -/
def lcgStep (seed : Nat) : Nat := (seed * 125 + 3) % 0x2AAAAB

/-- A table word from the seeds after its two draws: the first gives the upper half, the second the lower, each the low 16 bits
of the seed (R100). -/
def joinHalves (first second : Nat) : Word := BitVec.ofNat 32 (first % 2 ^ 16 * 2 ^ 16 + second % 2 ^ 16)

/-- The words of `n` slots drawn one after another, and the seed after them: the inner loop of R100. -/
def drawSlots : Nat → Nat → List Word × Nat
  | 0, seed => ([], seed)
  | n + 1, seed =>
    let first := lcgStep seed
    let second := lcgStep first
    let rest := drawSlots n second
    (joinHalves first second :: rest.1, rest.2)

/-- The rows of `n` base indices, each the five words of its slots: the outer loop of R100. -/
def drawRows : Nat → Nat → List (List Word)
  | 0, _ => []
  | n + 1, seed =>
    let row := drawSlots 5 seed
    row.1 :: drawRows n row.2

/-- The 256 rows the reset draws. -/
def tableRows : List (List Word) := drawRows 256 lcgSeed

/-- Block `k`: the word of slot `k` of each base index, so that base index `b` has it at `b + 0x100 * k` (R100). -/
def tableBlock (k : Nat) : List Word := tableRows.map fun row => row.getD k 0

/-- The Cipher Table, 1280 words (R28, R100). -/
def cipherTable : List Word :=
  tableBlock 0 ++ (tableBlock 1 ++ (tableBlock 2 ++ (tableBlock 3 ++ tableBlock 4)))

end Sys2Proof.Machine
end

