-- ==== Sys2Proof/Machine/State.lean ====
section
/-! DEFINITION. The state of one engine (`spec/10_state.md` R20 to R30), the reasons a step can stop, and the state right after
reset (R34). Plain data. -/

namespace Sys2Proof.Machine

/-- Why a step stops with a fault. The ENGINE's faults are none of these: they are completion codes after which it goes on
(`spec/60_exceptions.md` R203, R218). -/
inductive Fault where
  /-- A host move names a buffer address at or beyond the buffer's capacity: the address does not exist (R30). Raised by the
  host port. Safe: the spec gives such an access no effect (log entry 9). -/
  | noSuchAddress (space : Space) (addr : Nat)
deriving DecidableEq, Repr

/-- Why a step refuses. -/
inductive Refusal where
  /-- A command that has no meaning in the model yet. Raised by a refused arm of `exec`. Safe. No arm is refused now. -/
  | notModelled (mnemonic : String)
  /-- A register access that is not an aligned 32-bit word: not defined by the spec, "a model refuses them" (R31, U8). Raised
  by the host port. Safe (log entry 8). -/
  | registerAccess (offset size : Nat)
deriving DecidableEq, Repr

/-- One byte buffer: the bytes written so far, in one canonical form (addresses strictly rising), and the draw its unwritten
bytes belong to (log entry 1). -/
structure Memory where
  cells : List Host.Cell
  draw : Nat
deriving DecidableEq, Repr

/-- The engine, its capacities, and the moves of the host (INVENTORY.md, State). -/
structure State where
  /-- `STATUS` (R25). -/
  status : Word
  /-- `EINFO` (R26). -/
  einfo : Word
  /-- `RESULT` (R23). -/
  result : Word
  /-- `OLEN` (R23). -/
  olen : Word
  /-- `KEY` (R22). -/
  key : Word
  /-- `OFFSET` (R22). -/
  offset : Word
  /-- `LENGTH` (R22). -/
  length : Word
  /-- `NLEN` (R22). -/
  nlen : Word
  /-- `BOFF` (R22). -/
  boff : Word
  /-- `CSIZE` (R22). -/
  csize : Word
  /-- `USIZE` (R22). -/
  usize : Word
  /-- `FLAGS` (R22). -/
  flags : Word
  /-- `SSHIFT` (R22): bits 15:0; the others read 0. -/
  sshift : Half
  /-- The Cipher Table `T` (R28), constant after reset. -/
  table : List Word
  /-- `NBUF` (R30). -/
  nbuf : Memory
  /-- `DBUF` (R30). -/
  dbuf : Memory
  /-- `OBUF` (R30). -/
  obuf : Memory
  /-- The model's own: the capacities of the buffers, fixed for the life of the engine (R35; log entry 4). -/
  geom : Geometry
  /-- The model's own: how many free draws have been made (log entry 3). -/
  draws : Nat
  /-- The model's own: the moves still to come, the next one first (log entry 6). -/
  script : List HostAccess
  /-- The model's own: what the host's reads returned, the latest first (log entry 6). -/
  replies : List HostReply
deriving DecidableEq, Repr

/-- The machine right after reset (R34, R240): registers 0, the table generated, every buffer byte free. -/
def State.reset : State where
  status := 0
  einfo := 0
  result := 0
  olen := 0
  key := 0
  offset := 0
  length := 0
  nlen := 0
  boff := 0
  csize := 0
  usize := 0
  flags := 0
  sshift := 0
  table := cipherTable
  nbuf := { cells := [], draw := 0 }
  dbuf := { cells := [], draw := 1 }
  obuf := { cells := [], draw := 2 }
  geom := Config.geometry
  draws := 3
  script := []
  replies := []

end Sys2Proof.Machine
end

