-- ==== Sys2Proof/Machine/Flags.lean ====
section
/-! DEFINITION. The one flags register, `STATUS` (`spec/10_state.md` R25), the completion codes it holds
(`spec/60_exceptions.md` R201), and the information words of `EINFO` (R204). There are no arithmetic condition codes. -/

namespace Sys2Proof.Machine

/-- The normal ends of a command (R202). -/
inductive Completion where
  /-- `OK`: every command. -/
  | ok
  /-- `NOT_FOUND`: `EXTRACT` of a record without `Exists`; not a fault (R210). -/
  | notFound
deriving DecidableEq, Repr

/-- The engine's fault causes (R201). -/
inductive EngineFault where
  /-- `SingleUnit` or `HasCrc` set (R206). -/
  | unsupportedFeature
  /-- An unknown tag byte (R208). -/
  | unsupportedCompression
  /-- One of the three validation tests of a sector failed (R207). -/
  | corruptArchive
  /-- A character of the hashed string is `0x80` or above (R205). -/
  | unsupportedCharacter
  /-- Reserved for host software: the engine never raises it (R209). -/
  | formatError
  /-- The word written to `CMD` is no command (R211). -/
  | illegalCommand
  /-- An operand register holds a value the command cannot use (R213). -/
  | illegalOperand
  /-- The command would leave a buffer, the region or the file's range (R212). -/
  | boundsFault
  /-- The codec answered `Fail` (R214). -/
  | codecFailure
deriving DecidableEq, Repr

/-- A raised fault: its cause and its information word (R203). -/
structure Raised where
  cause : EngineFault
  info : Word
deriving DecidableEq, Repr

/-- The code of a normal end (R201). -/
def Completion.code : Completion → Byte
  | .ok => 0x00
  | .notFound => 0x01

/-- The code of a fault (R201). -/
def EngineFault.code : EngineFault → Byte
  | .unsupportedFeature => 0x20
  | .unsupportedCompression => 0x21
  | .corruptArchive => 0x30
  | .unsupportedCharacter => 0x40
  | .formatError => 0x50
  | .illegalCommand => 0x80
  | .illegalOperand => 0x81
  | .boundsFault => 0x82
  | .codecFailure => 0x83

/-- `STATUS` from its fields: bits 31:16 and 7:2 are 0 (R25). -/
def statusWord (code : Byte) (err done : Bool) : Word :=
  (((0#16 ++ code) ++ 0#6) ++ BitVec.ofBool err) ++ BitVec.ofBool done

/-- `STATUS.DONE`, bit 0 (R25). -/
def statusDone (w : Word) : Bool := w.getLsbD 0

/-- `STATUS.ERR`, bit 1 (R25). -/
def statusErr (w : Word) : Bool := w.getLsbD 1

/-- `STATUS.CODE`, bits 15:8 (R25). -/
def statusCode (w : Word) : Byte := w.extractLsb' 8 8

/-- `EINFO` of `UnsupportedCharacter`: `(i << 8) OR ch`, truncated to 32 bits (R204). -/
def charInfo (i : Nat) (ch : Byte) : Word := (BitVec.ofNat 32 i <<< 8) ||| ch.setWidth 32

/-- `EINFO` of the faults that name a tag, a condition or a cause in bits 31:24: `(hi << 24) OR x` (R204). -/
def taggedInfo (hi : Byte) (x : Nat) : Word := (hi.setWidth 32 <<< 24) ||| BitVec.ofNat 32 x

/-- `EINFO` of a fault that names a register by its offset (R204). -/
def registerInfo (offset : Nat) : Word := BitVec.ofNat 32 offset

end Sys2Proof.Machine
end

