-- ==== Sys2Proof/Machine/Ops.lean ====
section
/-! DEFINITION. The named operations over buffers and registers, ending a command (`spec/60_exceptions.md` R202, R203) and
reset (`spec/70_reset_and_hazards.md` R240). -/

namespace Sys2Proof.Machine

/-! ### Buffers (`spec/20_memory.md` R50 to R53) -/

/-- The byte listed at an address. -/
def cellAt : List Host.Cell → Nat → Option Byte
  | [], _ => none
  | (k, b) :: rest, a => if a = k then some b else cellAt rest a

/-- List a byte at an address, in its place among rising addresses. -/
def cellPut : List Host.Cell → Nat → Byte → List Host.Cell
  | [], a, b => [(a, b)]
  | (k, c) :: rest, a, b =>
    if a < k then (a, b) :: (k, c) :: rest
    else if a = k then (a, b) :: rest
    else (k, c) :: cellPut rest a b

/-- Addresses rise strictly. -/
def cellsRising : List Host.Cell → Bool
  | [] => true
  | (k, _) :: rest => rest.all (fun c => k < c.1) && cellsRising rest

/-- The canonical form of a buffer. An unlisted address has no byte at all, so no entry can equal what an unlisted address
holds, and a write never has to remove one (log entry 1). -/
def Memory.wf (m : Memory) : Bool := cellsRising m.cells

/-- Every listed address exists in a buffer of `n` bytes. -/
def Memory.within (n : Nat) (m : Memory) : Bool := m.cells.all fun c => c.1 < n

/-- What an address that nothing has written reads as: the free byte of the buffer's draw (`spec/10_state.md` R34, U1, U2;
log entry 1). -/
def Memory.unlisted (m : Memory) (a : Nat) : Byte := Config.freeByte m.draw a

/-- The byte at an address. -/
def Memory.read (m : Memory) (a : Nat) : Byte := (cellAt m.cells a).getD (m.unlisted a)

/-- Write one byte. -/
def Memory.write (m : Memory) (a : Nat) (b : Byte) : Memory := { m with cells := cellPut m.cells a b }

/-- The `n` bytes from `a` on. -/
def Memory.readBytes (m : Memory) (a n : Nat) : List Byte := (List.range' a n).map m.read

/-- Write the bytes at `a`, `a+1`, ... in order. -/
def Memory.writeBytes : Memory → Nat → List Byte → Memory
  | m, _, [] => m
  | m, a, b :: bs => (m.write a b).writeBytes (a + 1) bs

/-- `MemRead(SPACE, a, 4)`: little-endian, no alignment rule (R50, R51). -/
def Memory.readWord (m : Memory) (a : Nat) : Word :=
  ((m.read (a + 3) ++ m.read (a + 2)) ++ m.read (a + 1)) ++ m.read a

/-- `MemWrite(SPACE, a, 4, v)` (R10, R50). -/
def Memory.writeWord (m : Memory) (a : Nat) (v : Word) : Memory :=
  m.writeBytes a [v.extractLsb' 0 8, v.extractLsb' 8 8, v.extractLsb' 16 8, v.extractLsb' 24 8]

/-- The first `n` bytes become any value: those of a fresh draw (`spec/44_extract.md` R163; log entry 2). -/
def Memory.spoil (m : Memory) (n draw : Nat) : Memory := m.writeBytes 0 ((List.range n).map (Config.freeByte draw))

/-- A buffer of the state (`spec/10_state.md` R30). -/
def State.buffer (s : State) : Space → Memory
  | .nbuf => s.nbuf
  | .dbuf => s.dbuf
  | .obuf => s.obuf

/-- The capacity of a buffer (R30). -/
def State.capacity (s : State) : Space → Nat
  | .nbuf => s.geom.nameMax
  | .dbuf => s.geom.dbufSize
  | .obuf => s.geom.obufSize

/-- Put a buffer back. -/
def State.setBuffer (s : State) (space : Space) (m : Memory) : State :=
  match space with
  | .nbuf => { s with nbuf := m }
  | .dbuf => { s with dbuf := m }
  | .obuf => { s with obuf := m }

/-! ### The Cipher Table (`spec/10_state.md` R28) -/

/-- `T[i]`. Every index a command forms is below 1280 (R28), where the list has an entry. -/
def tableEntry (table : List Word) (i : Nat) : Word := table.getD i 0

/-! ### Registers (`spec/10_state.md` R22 to R27, R31) -/

/-- What the host reads at an aligned offset: `CMD` and the reserved offsets read 0 (R27, R31); `SSHIFT` is zero-extended
(R22). A read has no side effect. -/
def regRead (s : State) (offset : Nat) : Word :=
  if offset = Config.offStatus then s.status
  else if offset = Config.offEinfo then s.einfo
  else if offset = Config.offResult then s.result
  else if offset = Config.offOlen then s.olen
  else if offset = Config.offKey then s.key
  else if offset = Config.offOffset then s.offset
  else if offset = Config.offLength then s.length
  else if offset = Config.offNlen then s.nlen
  else if offset = Config.offBoff then s.boff
  else if offset = Config.offCsize then s.csize
  else if offset = Config.offUsize then s.usize
  else if offset = Config.offFlags then s.flags
  else if offset = Config.offSshift then s.sshift.setWidth 32
  else 0

/-- A host write at an aligned offset other than `CMD`'s: the operand registers take the value, `SSHIFT` its low 16 bits; writes
to read-only registers and to reserved offsets are ignored (R22, R23, R25, R26, R31). -/
def regWrite (s : State) (offset : Nat) (v : Word) : State :=
  if offset = Config.offKey then { s with key := v }
  else if offset = Config.offOffset then { s with offset := v }
  else if offset = Config.offLength then { s with length := v }
  else if offset = Config.offNlen then { s with nlen := v }
  else if offset = Config.offBoff then { s with boff := v }
  else if offset = Config.offCsize then { s with csize := v }
  else if offset = Config.offUsize then { s with usize := v }
  else if offset = Config.offFlags then { s with flags := v }
  else if offset = Config.offSshift then { s with sshift := v.setWidth 16 }
  else s

/-- A result register takes the digest or the key (R23). -/
def State.setResult (s : State) (v : Word) : State := { s with result := v }

/-- `KEYGEN` writes `KEY` and `RESULT` (`spec/43_keygen.md` R135). -/
def State.setKeyResult (s : State) (v : Word) : State := { s with key := v, result := v }

/-- The cipher's effect: a new `DBUF`. -/
def State.setDbuf (s : State) (m : Memory) : State := { s with dbuf := m }

/-- The extractor's output: a new `OBUF`. -/
def State.setObuf (s : State) (m : Memory) : State := { s with obuf := m }

/-- How many bytes of `OBUF` are the result (R23). -/
def State.setOlen (s : State) (v : Word) : State := { s with olen := v }

/-! ### Ending a command (`spec/60_exceptions.md` R202, R203) -/

/-- Every command writes all of `DONE`, `ERR`, `CODE` and `EINFO` at its end (R25, R26). -/
def State.endWith (s : State) (status einfo : Word) : State := { s with status := status, einfo := einfo }

/-- `complete <CODE>`: `DONE` 1, `ERR` 0, the code, `EINFO` 0; what was written before stands (R202). -/
def complete (c : Completion) (s : State) : State := s.endWith (statusWord c.code false true) 0

/-- `raise <Fault>(info)`: the engine's whole "trap entry": `DONE` 1, `ERR` 1, the code, `EINFO` the information word. Nothing
is saved, no mode changes and control goes nowhere (R203); the "return" is the host's next command. -/
def raise (r : Raised) (s : State) : State := s.endWith (statusWord r.cause.code true true) r.info

/-! ### Reset (`spec/70_reset_and_hazards.md` R240) -/

/-- The reset input: the table is filled, every register is 0, every buffer byte is any value (fresh draws). The capacities and
the moves of the host stand (log entry 10). -/
def State.pulseReset (s : State) : State :=
  { State.reset with
    nbuf := { cells := [], draw := s.draws }
    dbuf := { cells := [], draw := s.draws + 1 }
    obuf := { cells := [], draw := s.draws + 2 }
    geom := s.geom
    draws := s.draws + 3
    script := s.script
    replies := s.replies }

end Sys2Proof.Machine
end

