-- ==== Sys2Proof/Machine/Operands.lean ====
section
/-! DEFINITION. Where a command's operands come from (`spec/10_state.md` R33): the name in `NBUF`, the flags of the record, the
sector geometry, the named region of `DBUF`. There are no immediates and no addressing modes (`spec/30_encoding.md` R83). -/

namespace Sys2Proof.Machine

/-- `FLAGS.X`: the masked bit is set (R88). All other bits of `FLAGS` are ignored. -/
def State.hasFlag (s : State) (mask : Word) : Bool := s.flags &&& mask != 0

/-- `FLAGS.Exists` (R88). -/
def State.flagExists (s : State) : Bool := s.hasFlag Config.flagMasks.existing
/-- `FLAGS.Encrypted` (R88). -/
def State.flagEncrypted (s : State) : Bool := s.hasFlag Config.flagMasks.encrypted
/-- `FLAGS.EncryptionFix` (R88). -/
def State.flagEncryptionFix (s : State) : Bool := s.hasFlag Config.flagMasks.encryptionFix
/-- `FLAGS.SingleUnit` (R88). -/
def State.flagSingleUnit (s : State) : Bool := s.hasFlag Config.flagMasks.singleUnit
/-- `FLAGS.HasCrc` (R88). -/
def State.flagHasCrc (s : State) : Bool := s.hasFlag Config.flagMasks.hasCrc
/-- `FLAGS.Compressed` (R88). -/
def State.flagCompressed (s : State) : Bool := s.hasFlag Config.flagMasks.compressed
/-- `FLAGS.Implode` (R88). -/
def State.flagImplode (s : State) : Bool := s.hasFlag Config.flagMasks.implode

/-- The name: `NBUF[0 .. NLEN-1]`, one character a byte, no terminator (R90). -/
def State.name (s : State) : List Byte := s.nbuf.readBytes 0 s.nlen.toNat

/-- The name would run past `NBUF` (`spec/41_hash.md` R116). -/
def State.nameTooLong (s : State) : Bool := s.geom.nameMax < s.nlen.toNat

/-- The region `DBUF[OFFSET .. OFFSET+LENGTH-1]` does not fit; the sum is exact (`spec/42_cipher.md` R128, R53). -/
def State.regionOverruns (s : State) : Bool := s.geom.dbufSize < s.offset.toNat + s.length.toNat

/-- The shift is above the largest legal one (`spec/44_extract.md` R146). -/
def State.shiftTooLarge (s : State) : Bool := Config.sshiftMax < s.sshift.toNat

/-- `512 * 2^SSHIFT`: the sector size, and the output limit of `DECOMP` (R146, `spec/45_codec.md` R180). -/
def State.sectorSize (s : State) : Nat := Config.baseSector * 2 ^ s.sshift.toNat

/-- `ceil(a / b)` for a positive `b` (R10). -/
def ceilDiv (a b : Nat) : Nat := (a + b - 1) / b

/-- `ceil(USIZE / sectorSize)` (R146). -/
def State.sectorCount (s : State) : Nat := ceilDiv s.usize.toNat s.sectorSize

/-- `(sectorCount + 1) * 4`: the bytes of the sector offset table (R155). -/
def State.tableBytes (s : State) : Nat := (s.sectorCount + 1) * 4

end Sys2Proof.Machine
end

