-- ==== Sys2Proof/Machine/Hash.lean ====
section
/-! DEFINITION. The Hash Function and the `HASH` commands (`spec/41_hash.md`). -/

namespace Sys2Proof.Machine

/-- `/` (`spec/30_encoding.md` R90; G6, log entry 17). -/
def slash : Byte := 0x2F
/-- `\` (R90; G6, log entry 17). -/
def backslash : Byte := 0x5C

/-- Upper-case one character: the 26 ASCII lower-case letters and nothing else (R113). -/
def upperCase (c : Byte) : Byte := if 0x61 ≤ c ∧ c ≤ 0x7A then c - 0x20 else c

/-- All `/` become `\` when the name has a `/` and no `\`; else the name stays (R113). -/
def replaceSlashes (s : List Byte) : List Byte :=
  if s.contains slash && !s.contains backslash then s.map fun c => if c = slash then backslash else c else s

/-- `Prep(s)`: slashes, then case (R113). -/
def prep (s : List Byte) : List Byte := (replaceSlashes s).map upperCase

/-- The index, counted from `i`, and the value of the first character that is `0x80` or above (R112, R114). -/
def firstUnsupported : Nat → List Byte → Option (Nat × Byte)
  | _, [] => none
  | i, c :: rest => if 0x80 ≤ c then some (i, c) else firstUnsupported (i + 1) rest

/-- The last update of a round of the hash and of the cipher: `x + S2 + (S2 << 5) + 3` (R112, R121). -/
def mixSeed2 (x s2 : Word) : Word := x + s2 + (s2 <<< 5) + 3

/-- The rounds of `Digest` on the block of purpose number `p`, from the accumulators `s1` and `s2` (R112). -/
def digestRounds (table : List Word) (p : Nat) : List Byte → Word → Word → Word
  | [], s1, _ => s1
  | c :: rest, s1, s2 =>
    let n1 := tableEntry table (p * 256 + c.toNat) ^^^ (s1 + s2)
    digestRounds table p rest n1 (mixSeed2 (c.setWidth 32 + n1) s2)

/-- `Digest(s, p)`: the pre-scan, then the rounds (R112). -/
def digest (table : List Word) (p : Nat) (s : List Byte) : Except Raised Word :=
  match firstUnsupported 0 s with
  | some (i, c) => .error ⟨.unsupportedCharacter, charInfo i c⟩
  | none => .ok (digestRounds table p s Config.hashSeed1 Config.seed2)

/-- `Hash(s, p) = Digest(Prep(s), p)` (R113). -/
def hashName (table : List Word) (p : Purpose) (s : List Byte) : Except Raised Word :=
  digest table (Config.purposeNumber p) (prep s)

/-- The `HASH` command for a purpose (R110). -/
def hashCommand (p : Purpose) (s : State) : State :=
  if s.nameTooLong then raise ⟨.illegalOperand, registerInfo Config.offNlen⟩ s
  else
    match hashName s.table p s.name with
    | .error r => raise r s
    | .ok d => complete .ok (s.setResult d)

/-- `HASH.A` (R110). -/
def execHashA (s : State) : Host.Outcome State Fault Refusal := .next (hashCommand .hashA s)

/-- `HASH.B` (R110). -/
def execHashB (s : State) : Host.Outcome State Fault Refusal := .next (hashCommand .hashB s)

/-- `HASH.K` (R110). -/
def execHashK (s : State) : Host.Outcome State Fault Refusal := .next (hashCommand .tableKey s)

end Sys2Proof.Machine
end

