-- ==== Sys2Proof/Machine/Cipher.lean ====
section
/-! DEFINITION. The Block Cipher, `DECRYPT` and `ENCRYPT` (`spec/42_cipher.md`). -/

namespace Sys2Proof.Machine

/-- The `S1` update: complement, shift left by 21, add, then OR with `S1` shifted right by 11 (R123, C5). -/
def nextSeed1 (s1 : Word) : Word := ((~~~s1 <<< 0x15) + 0x11111111) ||| (s1 >>> 0x0B)

/-- Step 1 of a word: `S2` advanced by the entry of table block 4 that `S1`'s low byte names (R121). -/
def tableStep (table : List Word) (s1 s2 : Word) : Word :=
  s2 + tableEntry table (Config.cipherBlock * 256 + (s1 &&& 0xFF).toNat)

/-- The plaintext word of a round: the word written when deciphering, the word read when enciphering (R121, R126). -/
def plainWord (dir : Direction) (read written : Word) : Word :=
  match dir with
  | .dec => written
  | .enc => read

/-- The rounds of `Crypt` over `n` words from address `a` on (R121). -/
def cryptWords (table : List Word) (dir : Direction) : Nat → Nat → Word → Word → Memory → Memory
  | 0, _, _, _, m => m
  | n + 1, a, s1, s2, m =>
    let t2 := tableStep table s1 s2
    let w := m.readWord a
    let o := w ^^^ (s1 + t2)
    cryptWords table dir n (a + 4) (nextSeed1 s1) (mixSeed2 (plainWord dir w o) t2) (m.writeWord a o)

/-- `Crypt(key, off, len, dir)`: one stream over the `floor(len / 4)` whole words of the region; the remainder is neither read
nor written (R121, R122, R125). -/
def crypt (table : List Word) (dir : Direction) (key : Word) (off len : Nat) (m : Memory) : Memory :=
  cryptWords table dir (len / 4) off key Config.seed2 m

/-- `DECRYPT` and `ENCRYPT` differ in the direction only (R120, R126). -/
def cryptCommand (dir : Direction) (s : State) : State :=
  if s.regionOverruns then raise ⟨.boundsFault, registerInfo Config.offOffset⟩ s
  else complete .ok (s.setDbuf (crypt s.table dir s.key s.offset.toNat s.length.toNat s.dbuf))

/-- `DECRYPT` (R120). -/
def execDecrypt (s : State) : Host.Outcome State Fault Refusal := .next (cryptCommand .dec s)

/-- `ENCRYPT` (R126). -/
def execEncrypt (s : State) : Host.Outcome State Fault Refusal := .next (cryptCommand .enc s)

end Sys2Proof.Machine
end

