-- ==== Sys2Proof/Machine/Codec.lean ====
section
/-! DEFINITION. The codec dispatcher and `DECOMP` (`spec/45_codec.md`). -/

namespace Sys2Proof.Machine

/-- `Dispatch(tag, payload, limit, i)`: the codec of the tag, an unknown tag or a failing codec raised with the tag and the
sector index (R181, R182, R185). -/
def dispatchTag (tag : Byte) (payload : List Byte) (limit i : Nat) : Except Raised (List Byte) :=
  match Config.codecOfTag tag with
  | none => .error ⟨.unsupportedCompression, taggedInfo tag i⟩
  | some c =>
    match Config.codec c payload limit with
    | none => .error ⟨.codecFailure, taggedInfo tag i⟩
    | some r => .ok r

/-- `DECOMP`'s last steps: a result longer than `OBUF` is cause 6, else it is stored from address 0 on (R180). -/
def storeResult (r : List Byte) (s : State) : State :=
  if s.geom.obufSize < r.length then raise ⟨.boundsFault, taggedInfo 6 0⟩ s
  else complete .ok ((s.setObuf (s.obuf.writeBytes 0 r)).setOlen (BitVec.ofNat 32 r.length))

/-- The `DECOMP` command (R180). -/
def decompCommand (s : State) : State :=
  if s.shiftTooLarge then raise ⟨.illegalOperand, registerInfo Config.offSshift⟩ s
  else if s.length = 0 then raise ⟨.illegalOperand, registerInfo Config.offLength⟩ s
  else if s.regionOverruns then raise ⟨.boundsFault, registerInfo Config.offOffset⟩ s
  else
    let tag := s.dbuf.read s.offset.toNat
    let payload := s.dbuf.readBytes (s.offset.toNat + 1) (s.length.toNat - 1)
    match dispatchTag tag payload s.sectorSize 0 with
    | .error r => raise r s
    | .ok r => storeResult r s

/-- `DECOMP` (R180). -/
def execDecomp (s : State) : Host.Outcome State Fault Refusal := .next (decompCommand s)

end Sys2Proof.Machine
end

