-- ==== Sys2Proof/Machine/Extract.lean ====
section
/-! DEFINITION. The Sector Extractor, `EXTRACT` (`spec/44_extract.md`). One command, one atomic step. -/

namespace Sys2Proof.Machine

/-- A decryption pass over `DBUF` when `FLAGS.Encrypted` is set, nothing otherwise (R153, R155, R156, R161). -/
def State.decryptPass (s : State) (key : Word) (off len : Nat) : State :=
  if s.flagEncrypted then s.setDbuf (crypt s.table .dec key off len s.dbuf) else s

/-- The key of sector `i`: `KEY +32 i` (R153). -/
def State.sectorKey (s : State) (i : Nat) : Word := s.key + BitVec.ofNat 32 i

/-- Entry `j` of the sector offset table, read from `DBUF` when it is needed (R155, R165 (h)). -/
def State.tableOffset (s : State) (j : Nat) : Nat := (s.dbuf.readWord (4 * j)).toNat

/-- Output bytes from `i * sectorSize` on (R159, R160). -/
def State.putSector (s : State) (i : Nat) (bytes : List Byte) : State :=
  s.setObuf (s.obuf.writeBytes (i * s.sectorSize) bytes)

/-- The output bytes sector `i` and the ones after it have to give: `USIZE - i*sectorSize` (R146). -/
def State.remaining (s : State) (i : Nat) : Nat := s.usize.toNat - i * s.sectorSize

/-- A sector as long as `sectorSize` is copied verbatim, unless it would overrun the file (R159). -/
def storedSector (i cur : Nat) (s : State) : Except Raised State :=
  if s.remaining i < s.sectorSize then .error ⟨.boundsFault, taggedInfo 4 i⟩
  else .ok (s.putSector i (s.dbuf.readBytes cur s.sectorSize))

/-- Any other sector is a tag byte and a payload; at most the remaining bytes of the result are copied (R160). -/
def packedSector (i cur size : Nat) (s : State) : Except Raised State :=
  if size = 0 then .error ⟨.boundsFault, taggedInfo 3 i⟩
  else
    match dispatchTag (s.dbuf.read cur) (s.dbuf.readBytes (cur + 1) (size - 1)) s.sectorSize i with
    | .error r => .error r
    | .ok r => .ok (s.putSector i (r.take (s.remaining i)))

/-- The tests of a sector's extent, in their order (R157, R158). -/
def sectorFault (s : State) (i cur nxt : Nat) : Option Raised :=
  if nxt < cur then some ⟨.corruptArchive, taggedInfo 1 i⟩
  else if s.sectorSize < nxt - cur then some ⟨.corruptArchive, taggedInfo 2 i⟩
  else if s.csize.toNat < cur then some ⟨.corruptArchive, taggedInfo 3 i⟩
  else if s.csize.toNat < nxt then some ⟨.boundsFault, taggedInfo 2 i⟩
  else none

/-- `Sector(i)` (R156). -/
def sector (i : Nat) (s : State) : Except Raised State :=
  let cur := s.tableOffset i
  let nxt := s.tableOffset (i + 1)
  match sectorFault s i cur nxt with
  | some r => .error r
  | none =>
    let size := nxt - cur
    let d := s.decryptPass (s.sectorKey i) cur size
    if size = s.sectorSize then storedSector i cur d else packedSector i cur size d

/-- The `n` sectors from sector `i` on, in ascending order; the first fault ends the loop (R156, R217). -/
def sectors : Nat → Nat → State → Except Raised State
  | 0, _, s => .ok s
  | n + 1, i, s =>
    match sector i s with
    | .error r => .error r
    | .ok t => sectors n (i + 1) t

/-- What an `EXTRACT` fault past the commit point leaves: `OLEN` 0, `DBUF[0 .. CSIZE-1]` and `OBUF[0 .. USIZE-1]` any value
(two fresh draws), everything else as it was (R163, U3; log entry 2). -/
def State.spoilBuffers (s : State) : State :=
  { s with
    olen := 0
    dbuf := s.dbuf.spoil s.csize.toNat s.draws
    obuf := s.obuf.spoil s.usize.toNat (s.draws + 1)
    draws := s.draws + 2 }

/-- The commit point of the sectored path: zero-fill the output, decrypt the offset table (R152, R155). -/
def State.openSectored (s : State) : State :=
  (s.setObuf (s.obuf.writeBytes 0 (List.replicate s.usize.toNat 0))).decryptPass (s.key - 1) 0 s.tableBytes

/-- `ExtractSectored` (R155). -/
def extractSectored (s : State) : State :=
  if s.csize.toNat < s.tableBytes then raise ⟨.boundsFault, taggedInfo 1 0⟩ s
  else
    match sectors s.sectorCount 0 s.openSectored with
    | .error r => raise r s.spoilBuffers
    | .ok t => complete .ok (t.setOlen t.usize)

/-- How many bytes raw chunk `i` has: `min(sectorSize, USIZE - i*sectorSize)` (R161). -/
def State.chunkSize (s : State) (i : Nat) : Nat := min s.sectorSize (s.remaining i)

/-- Raw chunk `i`: decrypted in place when `Encrypted` (log entry 18), then copied (R161). -/
def rawChunk (i : Nat) (s : State) : State :=
  let off := i * s.sectorSize
  let n := s.chunkSize i
  let d := s.decryptPass (s.sectorKey i) off n
  d.putSector i (d.dbuf.readBytes off n)

/-- The `n` raw chunks from chunk `i` on (R161). -/
def rawChunks : Nat → Nat → State → State
  | 0, _, s => s
  | n + 1, i, s => rawChunks n (i + 1) (rawChunk i s)

/-- `ExtractRaw` (R161). -/
def extractRaw (s : State) : State :=
  if s.csize.toNat < s.usize.toNat then raise ⟨.boundsFault, taggedInfo 5 0⟩ s
  else
    let t := rawChunks s.sectorCount 0 s
    complete .ok (t.setOlen t.usize)

/-- The `EXTRACT` command: the entry tests in their order, then the path the flags select (R145 to R151, R154). -/
def extractCommand (s : State) : State :=
  if s.shiftTooLarge then raise ⟨.illegalOperand, registerInfo Config.offSshift⟩ s
  else if !s.flagExists then complete .notFound (s.setOlen 0)
  else if s.csize = 0 then complete .ok (s.setOlen 0)
  else if s.usize ≤ 1 then complete .ok ((s.setObuf (s.obuf.write 0 0x00)).setOlen 1)
  else if s.flagSingleUnit || s.flagHasCrc then
    raise ⟨.unsupportedFeature, s.flags &&& (Config.flagMasks.singleUnit ||| Config.flagMasks.hasCrc)⟩ s
  else if s.geom.dbufSize < s.csize.toNat then raise ⟨.boundsFault, registerInfo Config.offCsize⟩ s
  else if s.geom.obufSize < s.usize.toNat then raise ⟨.boundsFault, registerInfo Config.offUsize⟩ s
  else if s.flagCompressed || s.flagImplode then extractSectored s
  else extractRaw s

/-- `EXTRACT` (R145). -/
def execExtract (s : State) : Host.Outcome State Fault Refusal := .next (extractCommand s)

end Sys2Proof.Machine
end

