-- ==== Sys2Proof/Machine/Keygen.lean ====
section
/-! DEFINITION. The derivation of the per-file key, `KEYGEN` (`spec/43_keygen.md`). -/

namespace Sys2Proof.Machine

/-- Either separator (R136). -/
def isSeparator (c : Byte) : Bool := c == backslash || c == slash

/-- `BaseName(s)`: what stands after the last separator, or all of `s` when it has none (R136). -/
def baseName : List Byte → List Byte
  | [] => []
  | c :: rest =>
    if rest.any isSeparator then baseName rest
    else if isSeparator c then rest
    else c :: rest

/-- The `EncryptionFix` adjustment: the sum wraps before the exclusive-or (R137). -/
def adjustKey (k boff usize : Word) : Word := (k + boff) ^^^ usize

/-- The derived key from the hash of the base name (R135). -/
def fileKey (s : State) (k : Word) : Word := if s.flagEncryptionFix then adjustKey k s.boff s.usize else k

/-- The `KEYGEN` command (R135). `FLAGS.Encrypted` is not tested (R138). -/
def keygenCommand (s : State) : State :=
  if s.nameTooLong then raise ⟨.illegalOperand, registerInfo Config.offNlen⟩ s
  else
    match hashName s.table .tableKey (baseName s.name) with
    | .error r => raise r s
    | .ok k => complete .ok (s.setKeyResult (fileKey s k))

/-- `KEYGEN` (R135). -/
def execKeygen (s : State) : Host.Outcome State Fault Refusal := .next (keygenCommand s)

end Sys2Proof.Machine
end

