-- ==== Sys2Proof/Machine/Dispatch.lean ====
section
/-! DEFINITION. One arm for each command. -/

namespace Sys2Proof.Machine

def exec (i : Instr) (s : State) : Host.Outcome State Fault Refusal :=
  match i with
  | .hashA => Sys2Proof.Machine.execHashA s
  | .hashB => Sys2Proof.Machine.execHashB s
  | .hashK => Sys2Proof.Machine.execHashK s
  | .decrypt => Sys2Proof.Machine.execDecrypt s
  | .encrypt => Sys2Proof.Machine.execEncrypt s
  | .keygen => Sys2Proof.Machine.execKeygen s
  | .extract => Sys2Proof.Machine.execExtract s
  | .decomp => Sys2Proof.Machine.execDecomp s

end Sys2Proof.Machine
end

