-- ==== Sys2Proof/Machine/HostPort.lean ====
section
/-! DEFINITION. What each move of the host and of the platform does (`spec/10_state.md` R27, R31; `spec/30_encoding.md` R84;
`spec/70_reset_and_hazards.md` R240). -/

namespace Sys2Proof.Machine

/-- A write to `CMD`: run the command the word encodes, or raise `IllegalCommand` with the word (R27, R84, R211). `CMD` stores
nothing. -/
def issueCommand (w : Word) (s : State) : Host.Outcome State Fault Refusal :=
  match decode w with
  | .ok i => exec i s
  | .error (.illegalCommand v) => .next (raise ⟨.illegalCommand, v⟩ s)

/-- The host's read returned `r`. -/
def State.pushReply (s : State) (r : HostReply) : State := { s with replies := r :: s.replies }

/-- The first address at or beyond the capacity among the `n` from `addr` on, if there is one (log entry 9). -/
def State.missingAddress (s : State) (space : Space) (addr n : Nat) : Option Nat :=
  if n = 0 ∨ addr + n ≤ s.capacity space then none else some (max addr (s.capacity space))

/-- One move (R31, R61). -/
def hostAccess (a : HostAccess) (s : State) : Host.Outcome State Fault Refusal :=
  match a with
  | .regWrite offset size v =>
    if !wordAligned offset size then .refused (.registerAccess offset size)
    else if offset = Config.offCmd then issueCommand v s
    else .next (regWrite s offset v)
  | .regRead offset size =>
    if !wordAligned offset size then .refused (.registerAccess offset size)
    else .next (s.pushReply (.word (regRead s offset)))
  | .bufWrite space addr bytes =>
    match s.missingAddress space addr bytes.length with
    | some bad => .fault (.noSuchAddress space bad)
    | none => .next (s.setBuffer space ((s.buffer space).writeBytes addr bytes))
  | .bufRead space addr n =>
    match s.missingAddress space addr n with
    | some bad => .fault (.noSuchAddress space bad)
    | none => .next (s.pushReply (.bytes ((s.buffer space).readBytes addr n)))
  | .reset => .next s.pulseReset

/-- Take the next move off the script. -/
def State.setScript (s : State) (moves : List HostAccess) : State := { s with script := moves }

/-- Make the next move of the script; with none to make, the engine is ready and stays as it is (R227; log entry 6). -/
def nextMove (s : State) : Host.Outcome State Fault Refusal :=
  match s.script with
  | [] => .next s
  | a :: rest => hostAccess a (s.setScript rest)

end Sys2Proof.Machine
end

