-- ==== Sys2Proof/Machine/Step.lean ====
section
/-! DEFINITION. One step of the machine: one move of the host, with the whole command when the move issues one
(`spec/20_memory.md` R60). -/

namespace Sys2Proof.Machine

/-- One step. -/
def step (s : State) : Host.Outcome State Fault Refusal := nextMove s

/-- The state whose very next step is the write of the command word `w` to `CMD`: the write stands first in the script (log
entry 6). -/
def State.withFetchWord (s : State) (nbits w : Nat) : State :=
  s.setScript (.regWrite Config.offCmd 4 (BitVec.ofNat 32 (w % 2 ^ nbits)) :: s.script)

end Sys2Proof.Machine
end

