-- ==== Sys2Proof/Safety.lean ====
section
/-! DEFINITION. What every state of the engine keeps, and what counts as a legal outcome: the terms the statements use. -/

namespace Sys2Proof.Machine

/-- The values `STATUS` can hold (R25, R201, R202, R203): 0 after reset, else `DONE` set with one of the codes of R201 and `ERR`
set exactly from code `0x10` on. `FormatError`'s is not among them (R209). -/
def legalStatus : List Word :=
  [0x00000000, 0x00000001, 0x00000101, 0x00002003, 0x00002103, 0x00003003, 0x00004003, 0x00008003, 0x00008103, 0x00008203,
   0x00008303]

/-- The `STATUS` words a command can leave (R215). -/
def endings (i : Instr) : List Word :=
  match i with
  | .hashA => [0x00000001, 0x00004003, 0x00008103]
  | .hashB => [0x00000001, 0x00004003, 0x00008103]
  | .hashK => [0x00000001, 0x00004003, 0x00008103]
  | .decrypt => [0x00000001, 0x00008203]
  | .encrypt => [0x00000001, 0x00008203]
  | .keygen => [0x00000001, 0x00004003, 0x00008103]
  | .extract => [0x00000001, 0x00000101, 0x00002003, 0x00002103, 0x00003003, 0x00008103, 0x00008203, 0x00008303]
  | .decomp => [0x00000001, 0x00002103, 0x00008103, 0x00008203, 0x00008303]

/-- A buffer of `n` bytes: canonical, and nothing listed at an address that does not exist. -/
structure Memory.Legal (n : Nat) (m : Memory) : Prop where
  canonical : m.wf = true
  fits : m.within n = true

/-- What the spec promises of every state between moves. -/
structure State.Inv (s : State) : Prop where
  /-- The Cipher Table is the generated one (R28, R104). -/
  table_constant : s.table = cipherTable
  /-- The capacities are in the ranges of R7. -/
  geom_legal : s.geom.wf
  nbuf_legal : s.nbuf.Legal s.geom.nameMax
  dbuf_legal : s.dbuf.Legal s.geom.dbufSize
  obuf_legal : s.obuf.Legal s.geom.obufSize
  /-- `STATUS` holds one of its legal values (R25, R201). -/
  status_legal : s.status ∈ legalStatus
  /-- `EINFO` is 0 unless the last command ended with a fault (R26). -/
  einfo_zero : statusErr s.status = false → s.einfo = 0
  /-- The result in `OBUF[0 .. OLEN-1]` lies in `OBUF` (R23). -/
  olen_fits : s.olen.toNat ≤ s.geom.obufSize
  /-- The model's own: the buffers' draws have been made (log entry 3). -/
  draws_made : s.nbuf.draw < s.draws ∧ s.dbuf.draw < s.draws ∧ s.obuf.draw < s.draws

/-- The engine is ready for a command or has just ended one; no run of host moves that exist stops it. A move exists when a
register access is an aligned word and a buffer access lies in the buffer. -/
def State.moveExists (s : State) : HostAccess → Bool
  | .regWrite offset size _ => wordAligned offset size
  | .regRead offset size => wordAligned offset size
  | .bufWrite space addr bytes => decide (addr + bytes.length ≤ s.capacity space)
  | .bufRead space addr n => decide (addr + n ≤ s.capacity space)
  | .reset => true

end Sys2Proof.Machine
end

