-- ==== Sys2Proof/Certificates/Slice0/Obligations.lean ====
section
/-! DEFINITION. The statements about this model, one `def Obligations.<Name> : Prop` each, and the spec's own formulas they are
stated in. The formulas are written from the rules over natural numbers, not from the model's definitions. -/

open Sys2Proof Sys2Proof.Machine

namespace Sys2Proof.Spec

/-- `MemRead(SPACE, a, 4)` by the formula of R50. -/
def word (m : Memory) (a : Nat) : Word :=
  BitVec.ofNat 32 ((m.read a).toNat + 256 * (m.read (a + 1)).toNat + 65536 * (m.read (a + 2)).toNat
    + 16777216 * (m.read (a + 3)).toNat)

/-- The `n` bytes from `a` on. -/
def bytes (m : Memory) (a n : Nat) : List Byte := (List.range n).map fun k => m.read (a + k)

/-- The name `NBUF[0 .. NLEN-1]` (R90, R110). -/
def name (s : State) : List Byte := bytes s.nbuf 0 s.nlen.toNat

/-- `Prep` on one character, given whether every `/` is to become `\` (R113). -/
def prepChar (swap : Bool) (c : Byte) : Nat :=
  if swap = true ∧ c.toNat = 0x2F then 0x5C
  else if 0x61 ≤ c.toNat ∧ c.toNat ≤ 0x7A then c.toNat - 0x20
  else c.toNat

/-- `Prep` (R113): the replacement is all or nothing. -/
def prepName (n : List Byte) : List Nat := n.map (prepChar (decide ((0x2F : Byte) ∈ n ∧ (0x5C : Byte) ∉ n)))

/-- One round of `Digest` on natural numbers (R112). -/
def hashRound (table : List Word) (p : Nat) (acc : Nat × Nat) (ch : Nat) : Nat × Nat :=
  let s1 := (table.getD (p * 256 + ch) 0).toNat ^^^ ((acc.1 + acc.2) % 2 ^ 32)
  (s1, (ch + s1 + acc.2 + acc.2 * 32 + 3) % 2 ^ 32)

/-- `Hash(s, p)` of an ASCII name (R112, R113). -/
def hashOf (table : List Word) (p : Nat) (n : List Byte) : Word :=
  BitVec.ofNat 32 ((prepName n).foldl (hashRound table p) (0x7FED7FED, 0xEEEEEEEE)).1

/-- The `S1` update on natural numbers (R123). -/
def nextS1 (x : Word) : Word :=
  BitVec.ofNat 32 ((((2 ^ 32 - 1 - x.toNat) * 2 ^ 21 % 2 ^ 32 + 0x11111111) % 2 ^ 32) ||| (x.toNat / 2 ^ 11))

/-- Step 1 of word `i`: `S2` plus the entry of table block 4 (R121). -/
def tableAdd (table : List Word) (s1 s2 : Word) : Word := s2 + table.getD (0x400 + s1.toNat % 256) 0

/-- A separator (R136). -/
def separator (c : Byte) : Prop := c = 0x5C ∨ c = 0x2F

/-- `b` is the base name of `n` (R136). -/
def IsBaseName (n b : List Byte) : Prop :=
  (∀ c ∈ b, ¬ separator c) ∧ (n = b ∨ ∃ pre c, separator c ∧ n = pre ++ c :: b)

/-- `512 * 2^SSHIFT` (R146). -/
def sectorBytes (s : State) : Nat := 512 * 2 ^ s.sshift.toNat

/-- `FLAGS.Exists`, whatever its mask (R88). -/
def isExisting (s : State) : Prop := s.flags &&& Config.flagMasks.existing ≠ 0
/-- `FLAGS.Encrypted`, whatever its mask (R88). -/
def isEncrypted (s : State) : Prop := s.flags &&& Config.flagMasks.encrypted ≠ 0
/-- `FLAGS.EncryptionFix`, whatever its mask (R88). -/
abbrev isFixed (s : State) : Prop := s.flags &&& Config.flagMasks.encryptionFix ≠ 0
/-- `FLAGS.Compressed` or `FLAGS.Implode`, whatever their masks (R88, R154). -/
def isSectored (s : State) : Prop := s.flags &&& Config.flagMasks.compressed ≠ 0 ∨ s.flags &&& Config.flagMasks.implode ≠ 0
/-- `FLAGS.SingleUnit` or `FLAGS.HasCrc`, whatever their masks (R88, R150). -/
def isUnsupported (s : State) : Prop := s.flags &&& Config.flagMasks.singleUnit ≠ 0 ∨ s.flags &&& Config.flagMasks.hasCrc ≠ 0

/-- The record passes every entry test of `EXTRACT` (R145 to R151). -/
structure PassesEntry (s : State) : Prop where
  shift : s.sshift.toNat ≤ 22
  existing : isExisting s
  archived : s.csize ≠ 0
  size : 2 ≤ s.usize.toNat
  supported : ¬ isUnsupported s
  region_fits : s.csize.toNat ≤ s.geom.dbufSize
  file_fits : s.usize.toNat ≤ s.geom.obufSize

/-- `ceil(USIZE / sectorSize)` (R146). -/
def sectorCount (s : State) : Nat := (s.usize.toNat + sectorBytes s - 1) / sectorBytes s

/-- A command of the cipher on the region `off`, `len` of the buffer `m`, with this key and the rest of `s`, makes `m'` of it. -/
def CipherPass (i : Instr) (s : State) (key : Word) (off len : Nat) (m m' : Memory) : Prop :=
  ∃ t, exec i { s with dbuf := m, key := key, offset := BitVec.ofNat 32 off, length := BitVec.ofNat 32 len } = .next t ∧
    t.status = 0x00000001 ∧ t.dbuf = m'

/-- The extractor's decryption pass: one `DECRYPT` when the file is encrypted, nothing otherwise (R153, R155, R156). -/
def Deciphers (s : State) (key : Word) (off len : Nat) (m m' : Memory) : Prop :=
  (isEncrypted s → CipherPass .decrypt s key off len m m') ∧ (¬ isEncrypted s → m' = m)

/-- Entry `i` of the sector offset table, read from the buffer as it is when the entry is needed (R155). -/
def entry (m : Memory) (i : Nat) : Nat := (word m (4 * i)).toNat

/-- The offset table is deciphered with `KEY - 1` (R153, R155). -/
def OpensTable (s : State) (m : Memory) : Prop := Deciphers s (s.key - 1) 0 ((sectorCount s + 1) * 4) s.dbuf m

/-- Sector `i` has a legal extent in the buffer `m`, and deciphering it with `KEY + i` makes `m'` (R153, R156 to R158). -/
def OpensSector (s : State) (i : Nat) (m m' : Memory) : Prop :=
  entry m i ≤ entry m (i + 1) ∧ entry m (i + 1) - entry m i ≤ sectorBytes s ∧ entry m (i + 1) ≤ s.csize.toNat ∧
  Deciphers s (s.key + BitVec.ofNat 32 i) (entry m i) (entry m (i + 1) - entry m i) m m'

/-- The codec each known tag names (R89). -/
def knownTags : List (Byte × Codec) := [(0x02, .zlib), (0x08, .implode)]

/-- Sector `i` opens and gives the bytes `out`: stored ones as they are, packed ones through the codec of their tag (R159, R160). -/
def GivesSector (s : State) (i : Nat) (m m' : Memory) (out : List Byte) : Prop :=
  OpensSector s i m m' ∧
  if entry m (i + 1) - entry m i = sectorBytes s then
    (i + 1) * sectorBytes s ≤ s.usize.toNat ∧ out = bytes m' (entry m i) (sectorBytes s)
  else
    entry m i < entry m (i + 1) ∧ ∃ c, (m'.read (entry m i), c) ∈ knownTags ∧
      Config.codec c (bytes m' (entry m i + 1) (entry m (i + 1) - entry m i - 1)) (sectorBytes s) = some out

/-- `(hi << 24) OR i` for a sector index `i`, which fits 24 bits (R204). -/
def sectorInfo (hi i : Nat) : Word := BitVec.ofNat 32 (hi * 2 ^ 24 + i)

/-- Sector `i` of the buffer `m` ends the command with these `STATUS` and `EINFO`, by the first test that fails (R157 to R160, R182,
R185, R217). -/
def FaultsSector (s : State) (i : Nat) (m : Memory) (status einfo : Word) : Prop :=
  if entry m (i + 1) < entry m i then status = 0x00003003 ∧ einfo = sectorInfo 1 i
  else if sectorBytes s < entry m (i + 1) - entry m i then status = 0x00003003 ∧ einfo = sectorInfo 2 i
  else if s.csize.toNat < entry m i then status = 0x00003003 ∧ einfo = sectorInfo 3 i
  else if s.csize.toNat < entry m (i + 1) then status = 0x00008203 ∧ einfo = sectorInfo 2 i
  else if entry m (i + 1) = entry m i then status = 0x00008203 ∧ einfo = sectorInfo 3 i
  else if entry m (i + 1) - entry m i = sectorBytes s then
    s.usize.toNat - i * sectorBytes s < sectorBytes s ∧ status = 0x00008203 ∧ einfo = sectorInfo 4 i
  else ∃ m', OpensSector s i m m' ∧ einfo = sectorInfo (m'.read (entry m i)).toNat i ∧
    ((m'.read (entry m i) ≠ 0x02 ∧ m'.read (entry m i) ≠ 0x08 ∧ status = 0x00002103) ∨
      ∃ c, (m'.read (entry m i), c) ∈ knownTags ∧ status = 0x00008303 ∧
        Config.codec c (bytes m' (entry m i + 1) (entry m (i + 1) - entry m i - 1)) (sectorBytes s) = none)

/-- The seed after `n` steps of the generator (R100). -/
def seedAfter (n : Nat) : Nat := (fun x => (x * 125 + 3) % 0x2AAAAB)^[n] 0x00100001

/-- The offsets of the nine operand registers (R22). -/
def operandOffsets : List Nat := [0x14, 0x18, 0x1C, 0x20, 0x24, 0x28, 0x2C, 0x30, 0x34]

/-- The offsets of all fourteen registers (R54). -/
def registerOffsets : List Nat := [0x00, 0x04, 0x08, 0x0C, 0x10] ++ operandOffsets

/-- What a host's read of the register block returns (R22 to R27, R31). -/
def registerValue (s : State) : Nat → Word
  | 0x04 => s.status
  | 0x08 => s.einfo
  | 0x0C => s.result
  | 0x10 => s.olen
  | 0x14 => s.key
  | 0x18 => s.offset
  | 0x1C => s.length
  | 0x20 => s.nlen
  | 0x24 => s.boff
  | 0x28 => s.csize
  | 0x2C => s.usize
  | 0x30 => s.flags
  | 0x34 => BitVec.ofNat 32 s.sshift.toNat
  | _ => 0

end Sys2Proof.Spec

/-! ### The command word (`spec/30_encoding.md`) -/

/-- Decode and encode agree on all 2^32 words: a word decodes to a command exactly when it is that command's encoding, put together
from the fields of R81; the words that decode to some command are exactly those whose fields are as R81, R82 and R85 ask; every other
word is rejected by name. -/
def Obligations.DecodeAndEncodeAgreeOnEveryWord : Prop :=
  ∀ w : Word,
    (∀ i : Instr, decode w = .ok i ↔ w = encode i) ∧
    ((CommandFields.ofWord w).wellFormed = true ↔ ∃ i, decode w = .ok i) ∧
    ((CommandFields.ofWord w).wellFormed = false → decode w = .error (.illegalCommand w))

/-- The eight words of R82, written out, decode to their commands; a few illegal words of R85 decode to none. -/
def Obligations.WordsOfTheOpcodeMapDecode : Prop :=
  decode 0x00000101 = .ok .hashA ∧ decode 0x00000201 = .ok .hashB ∧ decode 0x00000301 = .ok .hashK ∧
  decode 0x00000002 = .ok .decrypt ∧ decode 0x00000003 = .ok .encrypt ∧ decode 0x00000004 = .ok .keygen ∧
  decode 0x00000005 = .ok .extract ∧ decode 0x00000006 = .ok .decomp ∧
  decode 0x00000000 = .error (.illegalCommand 0x00000000) ∧ decode 0x00000001 = .error (.illegalCommand 0x00000001) ∧
  decode 0x00000102 = .error (.illegalCommand 0x00000102) ∧ decode 0x80000005 = .error (.illegalCommand 0x80000005)

/-! ### Steps and the host port (`spec/10_state.md`, `spec/20_memory.md`) -/

/-- A step whose move writes the word of a command to `CMD` runs that command, on the state with the move taken off the script; the
command itself leaves the script alone. (That the host's moves stand in a script is the model's choice: log entry 6.) -/
def Obligations.StepRunsTheDecodedCommand : Prop :=
  ∀ (s : State) (w : Word) (i : Instr) (rest : List HostAccess),
    s.script = .regWrite 0x00 4 w :: rest → decode w = .ok i → i.wellFormed = true →
      step s = exec i { s with script := rest } ∧ ∃ t, exec i { s with script := rest } = .next t ∧ t.script = rest

/-- R211: a `CMD` write of any word but the eight raises `IllegalCommand`: `EINFO` is the word, and nothing else changes. -/
def Obligations.IllegalWordRaisesIllegalCommand : Prop :=
  ∀ (s : State) (w : Word) (rest : List HostAccess),
    s.script = .regWrite 0x00 4 w :: rest →
    w ∉ ([0x00000101, 0x00000201, 0x00000301, 0x00000002, 0x00000003, 0x00000004, 0x00000005, 0x00000006] : List Word) →
      step s = .next { s with script := rest, status := 0x00008003, einfo := w }

/-- A host write to an operand register is what the next read of it returns (`SSHIFT`: its low 16 bits), and every other
register, the table and the buffers are as before (moves and replies: log entry 6). -/
def Obligations.OperandRegisterWriteThenRead : Prop :=
  ∀ (s : State) (off : Nat) (v : Word) (rest : List HostAccess), off ∈ Spec.operandOffsets →
    s.script = .regWrite off 4 v :: .regRead off 4 :: rest →
      ∃ t u, step s = .next t ∧ step t = .next u ∧ u.script = rest ∧
        u.replies = .word (if off = 0x34 then BitVec.ofNat 32 (v.toNat % 2 ^ 16) else v) :: s.replies ∧
        (∀ o, o ≠ off → Spec.registerValue u o = Spec.registerValue s o) ∧
        u.table = s.table ∧ u.nbuf = s.nbuf ∧ u.dbuf = s.dbuf ∧ u.obuf = s.obuf ∧ u.geom = s.geom ∧ u.draws = s.draws

/-- A register read returns the register's value, 0 for `CMD` and for the reserved offsets, and has no side effect (every aligned
offset from 0x38 on is reserved: log entry 7; replies: log entry 6). -/
def Obligations.RegisterReadReturnsTheValueOnly : Prop :=
  ∀ (s : State) (off : Nat) (rest : List HostAccess), off % 4 = 0 → s.script = .regRead off 4 :: rest →
    step s = .next { s with script := rest, replies := .word (Spec.registerValue s off) :: s.replies }

/-- Writes to the read-only registers and to the reserved offsets are ignored without fault (every aligned offset from 0x38 on is
reserved: log entry 7). -/
def Obligations.WritesToReadOnlyAndReservedAreIgnored : Prop :=
  ∀ (s : State) (off : Nat) (v : Word) (rest : List HostAccess),
    off % 4 = 0 → (off ∈ [0x04, 0x08, 0x0C, 0x10] ∨ 0x38 ≤ off) → s.script = .regWrite off 4 v :: rest →
      step s = .next { s with script := rest }

/-- A register access that is not an aligned 32-bit word is refused (U8; the refusal is the model's: log entry 8). -/
def Obligations.MisalignedOrNarrowRegisterAccessIsRefused : Prop :=
  ∀ (s : State) (off size : Nat) (v : Word) (rest : List HostAccess), ¬ (off % 4 = 0 ∧ size = 4) →
    (s.script = .regWrite off size v :: rest ∨ s.script = .regRead off size :: rest) →
      step s = .refused (.registerAccess off size)

/-- A host write of bytes inside a buffer lands byte for byte; every other byte of the buffer, the other buffers and all else stay
(log entry 6). -/
def Obligations.HostBufferWriteLandsByteForByte : Prop :=
  ∀ (s : State) (sp : Space) (addr : Nat) (bs : List Byte) (rest : List HostAccess),
    s.script = .bufWrite sp addr bs :: rest → addr + bs.length ≤ s.capacity sp →
      ∃ t, step s = .next t ∧
        (∀ a, (t.buffer sp).read a = if addr ≤ a ∧ a < addr + bs.length then bs.getD (a - addr) 0 else (s.buffer sp).read a) ∧
        (∀ sp', sp' ≠ sp → t.buffer sp' = s.buffer sp') ∧
        t = { s with script := rest, nbuf := t.nbuf, dbuf := t.dbuf, obuf := t.obuf }

/-- A host read of bytes inside a buffer returns them in address order and changes nothing (log entry 6). -/
def Obligations.HostBufferReadReturnsTheBytes : Prop :=
  ∀ (s : State) (sp : Space) (addr n : Nat) (rest : List HostAccess),
    s.script = .bufRead sp addr n :: rest → addr + n ≤ s.capacity sp →
      step s = .next { s with script := rest, replies := .bytes (Spec.bytes (s.buffer sp) addr n) :: s.replies }

/-- A host access to a buffer address that does not exist stops the machine, naming the first such address: the model's own fault
(log entry 9). -/
def Obligations.HostAccessBeyondABufferFaults : Prop :=
  ∀ (s : State) (sp : Space) (addr : Nat) (bs : List Byte) (n : Nat) (rest : List HostAccess),
    ((s.script = .bufWrite sp addr bs :: rest ∧ n = bs.length) ∨ s.script = .bufRead sp addr n :: rest) →
    0 < n → s.capacity sp < addr + n →
      step s = .fault (.noSuchAddress sp (if addr < s.capacity sp then s.capacity sp else addr))

/-- A step stops only for a move that does not exist: whatever the state, a register access as an aligned word, a buffer access
inside the buffer, a reset, or no move at all goes on (log entries 6, 8 and 9). -/
def Obligations.ExistingMovesNeverStop : Prop :=
  ∀ s : State, (∀ a rest, s.script = a :: rest → s.moveExists a = true) → ∃ t, step s = .next t

/-! ### Reset and the Cipher Table (`spec/70_reset_and_hazards.md`, `spec/40_cipher_table.md`) -/

/-- Right after reset every register is 0, the table is the generated one, and every buffer byte is the free byte of its draw (the
model's form of "any value": log entries 1 and 3). -/
def Obligations.ResetLeavesZeroRegistersAndTheTable : Prop :=
  (∀ off ∈ Spec.registerOffsets, Spec.registerValue State.reset off = 0) ∧ State.reset.table = cipherTable ∧
  State.reset.nbuf.cells = [] ∧ State.reset.dbuf.cells = [] ∧ State.reset.obuf.cells = [] ∧
  ∀ a, State.reset.nbuf.read a = Config.freeByte 0 a ∧ State.reset.dbuf.read a = Config.freeByte 1 a ∧
    State.reset.obuf.read a = Config.freeByte 2 a

/-- The reset input, from any state: registers 0, the table filled again, every buffer byte free in a fresh draw; the capacities
and the host's moves stand (the model's choice of free bytes: log entries 1 and 10). -/
def Obligations.ResetMoveResetsTheEngine : Prop :=
  ∀ (s : State) (rest : List HostAccess), s.script = .reset :: rest →
    ∃ t, step s = .next t ∧ (∀ off ∈ Spec.registerOffsets, Spec.registerValue t off = 0) ∧ t.table = cipherTable ∧
      (∀ a, t.nbuf.read a = Config.freeByte s.draws a ∧ t.dbuf.read a = Config.freeByte (s.draws + 1) a ∧
        t.obuf.read a = Config.freeByte (s.draws + 2) a) ∧
      t.geom = s.geom ∧ t.draws = s.draws + 3 ∧ t.script = rest ∧ t.replies = s.replies

/-- Twelve anchor values of R103, and the table's length (they rest on the spec's own reading of the generator, G5: log entry 16). -/
def Obligations.CipherTableAnchorValues : Prop :=
  cipherTable.length = 1280 ∧
  cipherTable.getD 0x000 0 = 0x55C636E2 ∧ cipherTable.getD 0x001 0 = 0x02BE0170 ∧ cipherTable.getD 0x041 0 = 0x4C986630 ∧
  cipherTable.getD 0x0FF 0 = 0x708C9EEC ∧ cipherTable.getD 0x100 0 = 0x76F8C1B1 ∧ cipherTable.getD 0x141 0 = 0xE56F0711 ∧
  cipherTable.getD 0x200 0 = 0x3DF6965D ∧ cipherTable.getD 0x300 0 = 0x15F261D3 ∧ cipherTable.getD 0x341 0 = 0x8CB50992 ∧
  cipherTable.getD 0x400 0 = 0x193AA698 ∧ cipherTable.getD 0x401 0 = 0x5496F7D5 ∧ cipherTable.getD 0x4FF 0 = 0x7303286C

/-- Slot `b + 0x100 * k` holds the `(5b + k)`-th pair of draws of the one running generator, the first draw its upper half and the
second its lower (R100; the halves and the nesting are the spec's own inference, G5: log entry 16). -/
def Obligations.CipherTableSlotsAreTheInterleavedDraws : Prop :=
  ∀ b k : Nat, b < 256 → k < 5 →
    cipherTable.getD (b + 0x100 * k) 0 =
      BitVec.ofNat 32 (Spec.seedAfter (2 * (5 * b + k) + 1) % 2 ^ 16 * 2 ^ 16 + Spec.seedAfter (2 * (5 * b + k) + 2) % 2 ^ 16)

/-- R104: nothing but a reset writes the table, and a reset writes the same constants: a state that holds the generated table holds
it after any step, and so does every state after reset. -/
def Obligations.NoStepChangesTheCipherTable : Prop :=
  State.reset.table = cipherTable ∧
  ∀ s t : State, step s = .next t →
    (t.table = s.table ∨ t.table = cipherTable) ∧
    (s.script.head? ≠ some .reset → t.table = s.table)

/-! ### HASH (`spec/41_hash.md`) -/

/-- The three `HASH` commands on an ASCII name that fits: `RESULT` is the digest for the command's purpose, the command ends `OK`,
and nothing else changes (purpose numbers and ASCII codes from general knowledge: log entries 13 and 17). -/
def Obligations.HashCommandsWriteTheDigest : Prop :=
  ∀ (i : Instr) (p : Nat) (s : State), (i, p) ∈ [(Instr.hashA, 1), (Instr.hashB, 2), (Instr.hashK, 3)] →
    s.nlen.toNat ≤ s.geom.nameMax → (∀ c ∈ Spec.name s, c.toNat < 0x80) →
      exec i s = .next { s with result := Spec.hashOf s.table p (Spec.name s), status := 0x00000001, einfo := 0 }

/-- A name with a byte of `0x80` or above: the fault names the lowest such index and the byte, and nothing else changes. -/
def Obligations.HashReportsTheFirstUnsupportedCharacter : Prop :=
  ∀ (i : Instr) (s : State) (pre post : List Byte) (c : Byte), i ∈ [Instr.hashA, .hashB, .hashK] →
    s.nlen.toNat ≤ s.geom.nameMax → Spec.name s = pre ++ c :: post → (∀ x ∈ pre, x.toNat < 0x80) → 0x80 ≤ c.toNat →
      exec i s = .next { s with status := 0x00004003, einfo := BitVec.ofNat 32 (pre.length * 256 + c.toNat) }

/-- A name longer than `NBUF`: `IllegalOperand` with the offset of `NLEN`, before anything is read, for `HASH` and `KEYGEN`. -/
def Obligations.OverlongNameRaisesIllegalOperand : Prop :=
  ∀ (i : Instr) (s : State), i ∈ [Instr.hashA, .hashB, .hashK, .keygen] → s.geom.nameMax < s.nlen.toNat →
    exec i s = .next { s with status := 0x00008103, einfo := 0x00000020 }

/-- R116 (d): the digest is invariant under case changes, and under replacing every `/` by `\` in a name without `\` (a derived rule of
the spec; the ASCII codes are log entry 17). -/
def Obligations.DigestIgnoresCaseAndSlashStyle : Prop :=
  ∀ (table : List Word) (p : Purpose) (n : List Byte),
    hashName table p (n.map upperCase) = hashName table p n ∧
    ((0x5C : Byte) ∉ n → hashName table p (n.map fun c => if c = 0x2F then 0x5C else c) = hashName table p n)

/-- R116 (e): a `HASH` command sees nothing but `NLEN`, the name's bytes, the capacity and the table (a derived rule of the spec). -/
def Obligations.HashSeesOnlyTheName : Prop :=
  ∀ (i : Instr) (s s' : State), i ∈ [Instr.hashA, .hashB, .hashK] →
    s.nlen = s'.nlen → s.geom.nameMax = s'.geom.nameMax → s.table = s'.table →
    (∀ a, a < s.nlen.toNat → s.nbuf.read a = s'.nbuf.read a) →
      ∃ t t', exec i s = .next t ∧ exec i s' = .next t' ∧ t.status = t'.status ∧ t.einfo = t'.einfo ∧
        (t.status = 0x00000001 → t.result = t'.result) ∧ (t.status ≠ 0x00000001 → t.result = s.result)

/-- Four digests of V-H1: `A` or `a` for the three purposes, and `(hash table)` for `HASH.K` (purpose numbers, ASCII codes and the
generator's reading from general knowledge: log entries 13, 16 and 17). -/
def Obligations.KnownDigests : Prop :=
  hashName cipherTable .hashA [0x41] = .ok 0x8BB369CA ∧ hashName cipherTable .hashB [0x61] = .ok 0x1D93CC30 ∧
  hashName cipherTable .tableKey [0x41] = .ok 0xE2696749 ∧
  hashName cipherTable .tableKey [0x28, 0x68, 0x61, 0x73, 0x68, 0x20, 0x74, 0x61, 0x62, 0x6C, 0x65, 0x29] = .ok 0xC3AF3770

/-! ### DECRYPT and ENCRYPT (`spec/42_cipher.md`) -/

/-- `DECRYPT` of a region that fits: every whole word is exclusive-ored with the keystream of R121, the stream driven by the words
WRITTEN; every other byte and everything else stays. -/
def Obligations.DecryptDeciphersTheWholeWords : Prop :=
  ∀ s : State, s.offset.toNat + s.length.toNat ≤ s.geom.dbufSize →
    ∃ m : Memory, exec .decrypt s = .next { s with dbuf := m, status := 0x00000001, einfo := 0 } ∧
      (∀ a, a < s.offset.toNat ∨ s.offset.toNat + 4 * (s.length.toNat / 4) ≤ a → m.read a = s.dbuf.read a) ∧
      ∃ S1 S2 : Nat → Word, S1 0 = s.key ∧ S2 0 = 0xEEEEEEEE ∧ ∀ i, i < s.length.toNat / 4 →
        Spec.word m (s.offset.toNat + 4 * i) =
          Spec.word s.dbuf (s.offset.toNat + 4 * i) ^^^ (S1 i + Spec.tableAdd s.table (S1 i) (S2 i)) ∧
        S1 (i + 1) = Spec.nextS1 (S1 i) ∧
        S2 (i + 1) = Spec.word m (s.offset.toNat + 4 * i) + Spec.tableAdd s.table (S1 i) (S2 i)
          + (Spec.tableAdd s.table (S1 i) (S2 i) <<< 5) + 3

/-- `ENCRYPT` of a region that fits: as `DECRYPT`, the stream driven by the words READ (R126). -/
def Obligations.EncryptEnciphersTheWholeWords : Prop :=
  ∀ s : State, s.offset.toNat + s.length.toNat ≤ s.geom.dbufSize →
    ∃ m : Memory, exec .encrypt s = .next { s with dbuf := m, status := 0x00000001, einfo := 0 } ∧
      (∀ a, a < s.offset.toNat ∨ s.offset.toNat + 4 * (s.length.toNat / 4) ≤ a → m.read a = s.dbuf.read a) ∧
      ∃ S1 S2 : Nat → Word, S1 0 = s.key ∧ S2 0 = 0xEEEEEEEE ∧ ∀ i, i < s.length.toNat / 4 →
        Spec.word m (s.offset.toNat + 4 * i) =
          Spec.word s.dbuf (s.offset.toNat + 4 * i) ^^^ (S1 i + Spec.tableAdd s.table (S1 i) (S2 i)) ∧
        S1 (i + 1) = Spec.nextS1 (S1 i) ∧
        S2 (i + 1) = Spec.word s.dbuf (s.offset.toNat + 4 * i) + Spec.tableAdd s.table (S1 i) (S2 i)
          + (Spec.tableAdd s.table (S1 i) (S2 i) <<< 5) + 3

/-- R127, a derived rule of the spec: `ENCRYPT` then `DECRYPT`, and `DECRYPT` then `ENCRYPT`, restore every byte of `DBUF`, for every
key, offset and length that fit, whatever the table holds; all else is as it was but `STATUS` and `EINFO`. -/
def Obligations.CipherRoundTripRestoresDbuf : Prop :=
  ∀ (i j : Instr) (s : State), (i, j) ∈ [(Instr.encrypt, Instr.decrypt), (.decrypt, .encrypt)] →
    s.offset.toNat + s.length.toNat ≤ s.geom.dbufSize →
      ∃ t u, exec i s = .next t ∧ exec j t = .next u ∧ (∀ a, u.dbuf.read a = s.dbuf.read a) ∧
        u = { s with dbuf := u.dbuf, status := 0x00000001, einfo := 0 }

/-- A region that does not fit `DBUF`, the sum taken exactly: `BoundsFault` with the offset of `OFFSET`, and nothing else changes. -/
def Obligations.CipherRegionBeyondDbufRaisesBoundsFault : Prop :=
  ∀ (i : Instr) (s : State), i ∈ [Instr.decrypt, .encrypt] → s.geom.dbufSize < s.offset.toNat + s.length.toNat →
    exec i s = .next { s with status := 0x00008203, einfo := 0x00000018 }

/-- R122: only the `floor(len / 4)` whole words of the region change; every other byte, the last `len mod 4` of the region among
them, is neither written nor read (it has no effect on the whole words), and no fault is raised. -/
def Obligations.CipherRemainderIsNeitherReadNorWritten : Prop :=
  ∀ (i : Instr) (s : State) (m : Memory), i ∈ [Instr.decrypt, .encrypt] →
    s.offset.toNat + s.length.toNat ≤ s.geom.dbufSize →
    (∀ a, s.offset.toNat ≤ a → a < s.offset.toNat + 4 * (s.length.toNat / 4) → m.read a = s.dbuf.read a) →
      ∃ t t', exec i s = .next t ∧ exec i { s with dbuf := m } = .next t' ∧
        t.status = 0x00000001 ∧ t'.status = 0x00000001 ∧
        (∀ a, s.offset.toNat ≤ a → a < s.offset.toNat + 4 * (s.length.toNat / 4) → t'.dbuf.read a = t.dbuf.read a) ∧
        (∀ a, a < s.offset.toNat ∨ s.offset.toNat + 4 * (s.length.toNat / 4) ≤ a →
          t.dbuf.read a = s.dbuf.read a ∧ t'.dbuf.read a = m.read a)

/-- R124, R125: a word's result does not depend on what follows it: a shorter call gives the same bytes as far as it goes. -/
def Obligations.CipherStreamDependsOnlyOnItsPrefix : Prop :=
  ∀ (i : Instr) (s : State) (len : Word), i ∈ [Instr.decrypt, .encrypt] →
    s.offset.toNat + s.length.toNat ≤ s.geom.dbufSize → len.toNat ≤ s.length.toNat →
      ∃ t t', exec i s = .next t ∧ exec i { s with length := len } = .next t' ∧
        ∀ a, a < s.offset.toNat + 4 * (len.toNat / 4) → t'.dbuf.read a = t.dbuf.read a

/-- R123: the `S1` update read exactly. `A` has its low 21 bits zero and `B` its high 11 bits zero, and `OR` cannot be replaced
by `+`. -/
def Obligations.SeedOneUpdateIsReadExactly : Prop :=
  (∀ x : Word, nextSeed1 x = Spec.nextS1 x) ∧
  (∀ x : Word, (~~~x <<< 21).toNat % 2 ^ 21 = 0 ∧ (x >>> 11).toNat < 2 ^ 21) ∧
  ∃ x : Word, nextSeed1 x ≠ ((~~~x <<< 21) + 0x11111111) + (x >>> 11)

/-! ### KEYGEN (`spec/43_keygen.md`) -/

/-- The base name is what stands after the last separator, or the whole name when it has none (R136; the two character codes are
log entry 17). -/
def Obligations.BaseNameIsWhatFollowsTheLastSeparator : Prop :=
  ∀ n b : List Byte, baseName n = b ↔ Spec.IsBaseName n b

/-- `KEYGEN` on a name that fits, with an ASCII base name: `KEY` and `RESULT` are the hash of the base name, adjusted when
`EncryptionFix` is set; the command ends `OK`, and nothing else changes (purpose 3 and the ASCII codes: log entries 13 and 17). -/
def Obligations.KeygenWritesTheFileKey : Prop :=
  ∀ (s : State) (base : List Byte), s.nlen.toNat ≤ s.geom.nameMax → Spec.IsBaseName (Spec.name s) base →
    (∀ c ∈ base, c.toNat < 0x80) →
      exec .keygen s =
        .next { s with
          key := if Spec.isFixed s then (Spec.hashOf s.table 3 base + s.boff) ^^^ s.usize else Spec.hashOf s.table 3 base
          result := if Spec.isFixed s then (Spec.hashOf s.table 3 base + s.boff) ^^^ s.usize else Spec.hashOf s.table 3 base
          status := 0x00000001
          einfo := 0 }

/-- A base name with a byte of `0x80` or above: the fault names the lowest such index IN THE BASE NAME; `KEY`, `RESULT` and all
else stay (log entry 17). -/
def Obligations.KeygenReportsTheIndexInTheBaseName : Prop :=
  ∀ (s : State) (pre post : List Byte) (c : Byte), s.nlen.toNat ≤ s.geom.nameMax →
    Spec.IsBaseName (Spec.name s) (pre ++ c :: post) → (∀ x ∈ pre, x.toNat < 0x80) → 0x80 ≤ c.toNat →
      exec .keygen s = .next { s with status := 0x00004003, einfo := BitVec.ofNat 32 (pre.length * 256 + c.toNat) }

/-- R138 (f), a derived rule of the spec: two names with base names equal but for case give the same key, whatever their paths (the codes
of separators and letters: log entry 17). -/
def Obligations.KeygenKeyDependsOnTheBaseNameOnly : Prop :=
  ∀ (s s' : State) (b b' : List Byte), s.nlen.toNat ≤ s.geom.nameMax → s'.nlen.toNat ≤ s'.geom.nameMax →
    Spec.IsBaseName (Spec.name s) b → Spec.IsBaseName (Spec.name s') b' → b.map upperCase = b'.map upperCase →
    (∀ c ∈ b, c.toNat < 0x80) → s.table = s'.table → (Spec.isFixed s ↔ Spec.isFixed s') → s.boff = s'.boff →
    s.usize = s'.usize →
      ∃ t t', exec .keygen s = .next t ∧ exec .keygen s' = .next t' ∧ t.key = t'.key ∧ t.result = t.key ∧
        t.status = 0x00000001 ∧ t'.status = 0x00000001

/-! ### EXTRACT (`spec/44_extract.md`) -/

/-- A shift above 22 faults before every other test, even for a record that does not exist (R146). -/
def Obligations.ExtractShiftFaultComesFirst : Prop :=
  ∀ s : State, 22 < s.sshift.toNat → exec .extract s = .next { s with status := 0x00008103, einfo := 0x00000034 }

/-- R147: a record without `Exists` is "not found", whatever its sizes and other flags: `OLEN` 0, `ERR` 0, buffers untouched. -/
def Obligations.ExtractWithoutExistsIsNotFound : Prop :=
  ∀ s : State, s.sshift.toNat ≤ 22 → ¬ Spec.isExisting s →
    exec .extract s = .next { s with olen := 0, status := 0x00000101, einfo := 0 }

/-- R148: no archived bytes: an empty result, buffers untouched, whatever `USIZE` and the other flags (tested before the second
short-circuit). -/
def Obligations.ExtractOfEmptyArchivedDataIsEmpty : Prop :=
  ∀ s : State, s.sshift.toNat ≤ 22 → Spec.isExisting s → s.csize = 0 →
    exec .extract s = .next { s with olen := 0, status := 0x00000001, einfo := 0 }

/-- R149: a file of at most one byte gives one zero byte; `DBUF` is not read. -/
def Obligations.ExtractOfTinyFileIsOneZeroByte : Prop :=
  ∀ s : State, s.sshift.toNat ≤ 22 → Spec.isExisting s → s.csize ≠ 0 → s.usize.toNat ≤ 1 →
    ∃ m : Memory, exec .extract s = .next { s with obuf := m, olen := 1, status := 0x00000001, einfo := 0 } ∧
      ∀ a, m.read a = if a = 0 then 0x00 else s.obuf.read a

/-- R150: `SingleUnit` or `HasCrc` past the short-circuits: `UnsupportedFeature`, with the two bits as found (their places are from
general knowledge: log entry 14). -/
def Obligations.ExtractRejectsUnsupportedRecords : Prop :=
  ∀ s : State, s.sshift.toNat ≤ 22 → Spec.isExisting s → s.csize ≠ 0 → 2 ≤ s.usize.toNat → Spec.isUnsupported s →
    exec .extract s = .next { s with status := 0x00002003, einfo := s.flags &&& 0x05000000 }

/-- R151: a region that does not fit `DBUF`, then a file that does not fit `OBUF`, is a `BoundsFault` with the operand's offset,
before any buffer is touched. -/
def Obligations.ExtractChecksCapacity : Prop :=
  ∀ s : State, s.sshift.toNat ≤ 22 → Spec.isExisting s → s.csize ≠ 0 → 2 ≤ s.usize.toNat → ¬ Spec.isUnsupported s →
    (s.geom.dbufSize < s.csize.toNat → exec .extract s = .next { s with status := 0x00008203, einfo := 0x00000028 }) ∧
    (s.csize.toNat ≤ s.geom.dbufSize → s.geom.obufSize < s.usize.toNat →
      exec .extract s = .next { s with status := 0x00008203, einfo := 0x0000002C })

/-- R155, R161: an offset table longer than the region, and a raw region shorter than the file, fault before the commit point. -/
def Obligations.ExtractPreCommitFaultsArePrecise : Prop :=
  ∀ s : State, Spec.PassesEntry s →
    (Spec.isSectored s → s.csize.toNat < ((s.usize.toNat + Spec.sectorBytes s - 1) / Spec.sectorBytes s + 1) * 4 →
      exec .extract s = .next { s with status := 0x00008203, einfo := 0x01000000 }) ∧
    (¬ Spec.isSectored s → s.csize.toNat < s.usize.toNat →
      exec .extract s = .next { s with status := 0x00008203, einfo := 0x05000000 })

/-- S4, R161: a raw unencrypted file extracts to exactly the stored bytes, over any number of sectors; `OBUF` past the file,
`DBUF` and all else stay. -/
def Obligations.ExtractRawPlainFileCopiesTheBytes : Prop :=
  ∀ s : State, Spec.PassesEntry s → ¬ Spec.isSectored s → ¬ Spec.isEncrypted s → s.usize.toNat ≤ s.csize.toNat →
    ∃ m : Memory, exec .extract s = .next { s with obuf := m, olen := s.usize, status := 0x00000001, einfo := 0 } ∧
      ∀ a, m.read a = if a < s.usize.toNat then s.dbuf.read a else s.obuf.read a

/-- A raw encrypted file of any number of sectors: what `ENCRYPT` wrote chunk by chunk, chunk `i` with `KEY + i`, `EXTRACT` returns as the
plaintext, in `OBUF` and in `DBUF` (R126, R127, R161; that raw chunks are enciphered with `KEY + i` is general knowledge, G7: log
entry 18). -/
def Obligations.EncryptThenExtractRawFileRoundTrips : Prop :=
  ∀ (s : State) (e : Nat → Memory), Spec.PassesEntry s → ¬ Spec.isSectored s → Spec.isEncrypted s →
    s.usize.toNat ≤ s.csize.toNat → e 0 = s.dbuf →
    (∀ i, i < Spec.sectorCount s →
      Spec.CipherPass .encrypt s (s.key + BitVec.ofNat 32 i) (i * Spec.sectorBytes s)
        (min (Spec.sectorBytes s) (s.usize.toNat - i * Spec.sectorBytes s)) (e i) (e (i + 1))) →
      ∃ u, exec .extract { s with dbuf := e (Spec.sectorCount s) } = .next u ∧
        u = { s with dbuf := u.dbuf, obuf := u.obuf, olen := s.usize, status := 0x00000001, einfo := 0 } ∧
        (∀ a, u.obuf.read a = if a < s.usize.toNat then s.dbuf.read a else s.obuf.read a) ∧
        (∀ a, u.dbuf.read a = s.dbuf.read a)

/-- A sectored unencrypted file of `n` full sectors, all stored verbatim one after another from `base` on: the file is the bytes
from `base` on, over any number of sectors; the codecs are not consulted (R155, R156, R159, R162). -/
def Obligations.ExtractStoredSectorsConcatenates : Prop :=
  ∀ (s : State) (n base : Nat), Spec.PassesEntry s → Spec.isSectored s → ¬ Spec.isEncrypted s →
    s.usize.toNat = n * Spec.sectorBytes s → (n + 1) * 4 ≤ s.csize.toNat → base + n * Spec.sectorBytes s ≤ s.csize.toNat →
    (∀ j, j ≤ n → (Spec.word s.dbuf (4 * j)).toNat = base + j * Spec.sectorBytes s) →
      ∃ m : Memory, exec .extract s = .next { s with obuf := m, olen := s.usize, status := 0x00000001, einfo := 0 } ∧
        ∀ a, m.read a = if a < s.usize.toNat then s.dbuf.read (base + a) else s.obuf.read a

/-- A sectored unencrypted file of one packed sector: the codec of the tag is given the payload and the sector size; its result is
copied up to the file's size, the rest of the file is 0; a `Fail` ends with `CodecFailure` (R152, R155, R160, R181, R185; the codecs
are open and the tags from general knowledge: log entries 5 and 15). -/
def Obligations.ExtractPackedSectorDispatchesOnTheTag : Prop :=
  ∀ (s : State) (cur size : Nat) (tag : Byte) (c : Codec), Spec.PassesEntry s → Spec.isSectored s → ¬ Spec.isEncrypted s →
    s.usize.toNat ≤ Spec.sectorBytes s → 8 ≤ s.csize.toNat → (Spec.word s.dbuf 0).toNat = cur →
    (Spec.word s.dbuf 4).toNat = cur + size → cur + size ≤ s.csize.toNat → 0 < size → size < Spec.sectorBytes s →
    s.dbuf.read cur = tag → (tag, c) ∈ [((0x02 : Byte), Codec.zlib), (0x08, Codec.implode)] →
      ∃ t, exec .extract s = .next t ∧
        (∀ r, Config.codec c (Spec.bytes s.dbuf (cur + 1) (size - 1)) (Spec.sectorBytes s) = some r →
          t = { s with obuf := t.obuf, olen := s.usize, status := 0x00000001, einfo := 0 } ∧
          ∀ a, t.obuf.read a = if a < s.usize.toNat then r.getD a 0 else s.obuf.read a) ∧
        (Config.codec c (Spec.bytes s.dbuf (cur + 1) (size - 1)) (Spec.sectorBytes s) = none →
          t.status = 0x00008303 ∧ t.einfo = BitVec.ofNat 32 (tag.toNat * 2 ^ 24) ∧ t.olen = 0)

/-- A bad sector `i` behind `i` good ones, encrypted or not, ends the command with the fault of the first test that fails (R157 to R160,
R182, R185, R217), and `EINFO` names the sector `i` in bits 23:0 (R204): `OLEN` is 0, and the registers, `NBUF` and the bytes
outside the region and the file stay (R163; codecs and tags: log entries 5 and 15). -/
def Obligations.ExtractEndsAtTheFirstBadSector : Prop :=
  ∀ (s : State) (i : Nat) (d : Nat → Memory) (status einfo : Word), Spec.PassesEntry s → Spec.isSectored s →
    (Spec.sectorCount s + 1) * 4 ≤ s.csize.toNat → i < Spec.sectorCount s → Spec.OpensTable s (d 0) →
    (∀ j, j < i → ∃ out, Spec.GivesSector s j (d j) (d (j + 1)) out) → Spec.FaultsSector s i (d i) status einfo →
      ∃ t, exec .extract s = .next t ∧
        t = { s with olen := 0, status := status, einfo := einfo, dbuf := t.dbuf, obuf := t.obuf, draws := t.draws } ∧
        (∀ a, s.csize.toNat ≤ a → t.dbuf.read a = s.dbuf.read a) ∧ (∀ a, s.usize.toNat ≤ a → t.obuf.read a = s.obuf.read a)

/-- An encrypted sectored file of any number of sectors, none of them over the offset table, extracts as the region deciphered by hand
does: the table with `KEY - 1`, sector `i` with `KEY + i`, each one `DECRYPT` (R153, R155, R156). Both runs may end with one and the
same fault, which frees the same bytes (log entry 2). -/
def Obligations.EncryptedSectorExtractsLikeItsDecipheredRegion : Prop :=
  ∀ (s : State) (d : Nat → Memory), Spec.PassesEntry s → Spec.isSectored s → Spec.isEncrypted s →
    (Spec.sectorCount s + 1) * 4 ≤ s.csize.toNat → Spec.OpensTable s (d 0) →
    (Spec.sectorCount s + 1) * 4 ≤ Spec.entry (d 0) 0 →
    (∀ i, i < Spec.sectorCount s → Spec.OpensSector s i (d i) (d (i + 1))) →
      ∃ t u, exec .extract s = .next t ∧
        exec .extract { s with flags := s.flags &&& ~~~Config.flagMasks.encrypted, dbuf := d (Spec.sectorCount s) } = .next u ∧
        t.status = u.status ∧ t.einfo = u.einfo ∧ t.olen = u.olen ∧ (∀ a, t.obuf.read a = u.obuf.read a) ∧
        (∀ a, t.dbuf.read a = u.dbuf.read a) ∧ t.flags = s.flags

/-- A sectored file, encrypted or not, of any number of sectors, stored and packed ones mixed, whose sectors may lie over the offset
table: sector `i` is deciphered with `KEY + i` at the extent its table entries hold by then, its bytes stand from `i * sectorSize` on,
what no sector gives is 0, and `DBUF` is left deciphered (R152, R153, R155, R156, R159, R160, R162; codecs and tags: log entries 5 and
15). -/
def Obligations.ExtractPlacesEverySectorInOrder : Prop :=
  ∀ (s : State) (d : Nat → Memory), Spec.PassesEntry s → Spec.isSectored s →
    (Spec.sectorCount s + 1) * 4 ≤ s.csize.toNat → Spec.OpensTable s (d 0) →
    (∀ i, i < Spec.sectorCount s → Spec.OpensSector s i (d i) (d (i + 1))) →
      ∃ t, exec .extract s = .next t ∧
        ∀ out : Nat → List Byte, (∀ i, i < Spec.sectorCount s → Spec.GivesSector s i (d i) (d (i + 1)) (out i)) →
          t = { s with dbuf := t.dbuf, obuf := t.obuf, olen := s.usize, status := 0x00000001, einfo := 0 } ∧
          (∀ a, t.dbuf.read a = (d (Spec.sectorCount s)).read a) ∧
          ∀ a, t.obuf.read a =
            if a < s.usize.toNat then (out (a / Spec.sectorBytes s)).getD (a % Spec.sectorBytes s) 0 else s.obuf.read a

/-- What any `EXTRACT` leaves alone: every register but `OLEN`, `STATUS` and `EINFO` (so it never writes `FLAGS`, `CSIZE`, `USIZE`,
`KEY` or `SSHIFT`), `NBUF`, the table, `DBUF` from `CSIZE` on, `OBUF` from the file's end on; and all of `DBUF` after a normal end of
an unencrypted file (R145, R162 to R164). -/
def Obligations.ExtractLeavesTheRestAlone : Prop :=
  ∀ s t : State, exec .extract s = .next t →
    t = { s with status := t.status, einfo := t.einfo, olen := t.olen, dbuf := t.dbuf, obuf := t.obuf, draws := t.draws } ∧
    (∀ a, s.csize.toNat ≤ a → t.dbuf.read a = s.dbuf.read a) ∧
    (∀ a, max 1 s.usize.toNat ≤ a → t.obuf.read a = s.obuf.read a) ∧
    (¬ Spec.isEncrypted s → t.status.getLsbD 1 = false → ∀ a, t.dbuf.read a = s.dbuf.read a)

/-- R163: a fault of `EXTRACT` either changes nothing but `STATUS` and `EINFO`, or came after the commit point of the sectored path
and leaves `OLEN` 0 and the two ranges free: bytes of two fresh draws (the model's form of "any value": log entry 2). -/
def Obligations.ExtractFaultsArePreciseOrFreeTheBuffers : Prop :=
  ∀ s t : State, exec .extract s = .next t → t.status.getLsbD 1 = true →
    t = { s with status := t.status, einfo := t.einfo } ∨
    (Spec.PassesEntry s ∧ Spec.isSectored s ∧ t.olen = 0 ∧ t.draws = s.draws + 2 ∧
      (∀ a, a < s.csize.toNat → t.dbuf.read a = Config.freeByte s.draws a) ∧
      (∀ a, a < s.usize.toNat → t.obuf.read a = Config.freeByte (s.draws + 1) a))

/-! ### DECOMP (`spec/45_codec.md`) -/

/-- `DECOMP` of a sector with a known tag: the codec of the tag is given the payload and `512 * 2^SSHIFT`. Its result is stored from
`OBUF[0]` on and `OLEN` is its length; a result longer than `OBUF` is cause 6; a `Fail` is `CodecFailure`; nothing else changes
(the codecs are open and the tags from general knowledge: log entries 5 and 15). -/
def Obligations.DecompEndsAsItsCodecAnswers : Prop :=
  ∀ (s : State) (tag : Byte) (c : Codec), s.sshift.toNat ≤ 22 → s.length ≠ 0 →
    s.offset.toNat + s.length.toNat ≤ s.geom.dbufSize → s.dbuf.read s.offset.toNat = tag →
    (tag, c) ∈ [((0x02 : Byte), Codec.zlib), (0x08, Codec.implode)] →
      ∃ t, exec .decomp s = .next t ∧
        match Config.codec c (Spec.bytes s.dbuf (s.offset.toNat + 1) (s.length.toNat - 1)) (Spec.sectorBytes s) with
        | some r =>
          if r.length ≤ s.geom.obufSize then
            t = { s with obuf := t.obuf, olen := BitVec.ofNat 32 r.length, status := 0x00000001, einfo := 0 } ∧
            t.olen.toNat = r.length ∧ ∀ a, t.obuf.read a = if a < r.length then r.getD a 0 else s.obuf.read a
          else t = { s with status := 0x00008203, einfo := 0x06000000 }
        | none => t = { s with status := 0x00008303, einfo := BitVec.ofNat 32 (tag.toNat * 2 ^ 24) }

/-- R182: every tag byte but `0x02` and `0x08` raises `UnsupportedCompression` with the tag in `EINFO[31:24]` and the sector index in
`EINFO[23:0]`, whatever the payload; `DECOMP` with such a tag changes nothing else (the two tags are from general knowledge: log
entry 15). -/
def Obligations.UnknownTagsRaiseUnsupportedCompression : Prop :=
  (∀ (tag : Byte) (payload : List Byte) (limit i : Nat), tag ≠ 0x02 → tag ≠ 0x08 → i < 2 ^ 24 →
    ∃ info : Word, dispatchTag tag payload limit i = .error ⟨.unsupportedCompression, info⟩ ∧
      info.toNat / 2 ^ 24 = tag.toNat ∧ info.toNat % 2 ^ 24 = i) ∧
  (∀ s : State, s.sshift.toNat ≤ 22 → s.length ≠ 0 → s.offset.toNat + s.length.toNat ≤ s.geom.dbufSize →
    s.dbuf.read s.offset.toNat ≠ 0x02 → s.dbuf.read s.offset.toNat ≠ 0x08 →
      exec .decomp s = .next { s with
        status := 0x00002103
        einfo := BitVec.ofNat 32 ((s.dbuf.read s.offset.toNat).toNat * 2 ^ 24) })

/-- The operand tests of `DECOMP` in their order: shift, empty sector, region; each leaves everything but `STATUS` and `EINFO`. -/
def Obligations.DecompOperandFaultsInOrder : Prop :=
  ∀ s : State,
    (22 < s.sshift.toNat → exec .decomp s = .next { s with status := 0x00008103, einfo := 0x00000034 }) ∧
    (s.sshift.toNat ≤ 22 → s.length = 0 → exec .decomp s = .next { s with status := 0x00008103, einfo := 0x0000001C }) ∧
    (s.sshift.toNat ≤ 22 → s.length ≠ 0 → s.geom.dbufSize < s.offset.toNat + s.length.toNat →
      exec .decomp s = .next { s with status := 0x00008203, einfo := 0x00000018 })

/-! ### All commands (`spec/60_exceptions.md`) -/

/-- R202: `complete`: `DONE` 1, `ERR` 0, the code, `EINFO` 0, everything written before stands; `STATUS` reads `0x00000001` after `OK`
and `0x00000101` after `NOT_FOUND`. -/
def Obligations.CompleteWritesStatusAndClearsEinfo : Prop :=
  ∀ s : State,
    complete .ok s = { s with status := 0x00000001, einfo := 0 } ∧
    complete .notFound s = { s with status := 0x00000101, einfo := 0 } ∧
    ∀ c : Completion, statusDone (complete c s).status = true ∧ statusErr (complete c s).status = false ∧
      statusCode (complete c s).status = c.code

/-- Every command ends, in one of the ways R215, a derived rule of the spec, lists for it: whatever the state, it answers a next
state whose `STATUS` is one of its endings. -/
def Obligations.EveryCommandEndsAsListed : Prop :=
  ∀ (i : Instr) (s : State), ∃ t, exec i s = .next t ∧ t.status ∈ endings i

/-- No command writes an operand register but `KEYGEN` (which writes `KEY`), `NBUF`, the table, the capacities or the host's moves;
only `HASH` and `KEYGEN` write `RESULT`, only `EXTRACT` and `DECOMP` write `OLEN` and `OBUF`, only the cipher and `EXTRACT` write
`DBUF`, and only `EXTRACT` makes free draws (R21, R23, R30, R32, R33; capacities, moves and draws are the model's own: log entries 3,
4 and 6). -/
def Obligations.CommandsWriteOnlyTheirState : Prop :=
  ∀ (i : Instr) (s t : State), exec i s = .next t →
    t.offset = s.offset ∧ t.length = s.length ∧ t.nlen = s.nlen ∧ t.boff = s.boff ∧ t.csize = s.csize ∧ t.usize = s.usize ∧
    t.flags = s.flags ∧ t.sshift = s.sshift ∧ t.table = s.table ∧ t.nbuf = s.nbuf ∧ t.geom = s.geom ∧ t.script = s.script ∧
    t.replies = s.replies ∧ (i ≠ .keygen → t.key = s.key) ∧
    (i ∉ [Instr.hashA, .hashB, .hashK, .keygen] → t.result = s.result) ∧
    (i ∉ [Instr.extract, .decomp] → t.olen = s.olen ∧ t.obuf = s.obuf) ∧
    (i ∉ [Instr.decrypt, .encrypt, .extract] → t.dbuf = s.dbuf) ∧ (i ≠ .extract → t.draws = s.draws)

/-- R203: every fault of a command other than `EXTRACT` is precise: nothing but `STATUS` and `EINFO` changes. -/
def Obligations.FaultsOutsideExtractArePrecise : Prop :=
  ∀ (i : Instr) (s t : State), i ≠ .extract → exec i s = .next t → t.status.getLsbD 1 = true →
    t = { s with status := t.status, einfo := t.einfo }

/-- R218: faults are not sticky: what a command does depends on neither `STATUS` nor `EINFO` of the command before it. -/
def Obligations.NoCommandReadsStatusOrEinfo : Prop :=
  ∀ (i : Instr) (s : State) (status einfo : Word), exec i { s with status := status, einfo := einfo } = exec i s

/-- The state right after reset meets the invariant (its canonical form, its draws and its capacities are the model's own: log entries 1,
3 and 4). -/
def Obligations.ResetMeetsTheInvariant : Prop := State.reset.Inv

/-- Every step keeps the invariant, from every state that meets it and for every move: the table is the generated one, the buffers
keep their canonical form and their bounds, `STATUS` holds only codes the engine produces, `EINFO` is 0 after a normal end, and the
result lies in `OBUF` (the canonical form, the draws and the capacities are the model's own: log entries 1, 3
and 4). -/
def Obligations.StepKeepsTheInvariant : Prop :=
  ∀ s t : State, s.Inv → step s = .next t → t.Inv
end

