-- ==== Sys2Proof/Laws/Memory.lean ====
section
/-! SUPPORT. What the buffer operations do: a read after a write, the canonical form, the capacity. Later proofs cite these and
do not unfold the operations. -/

namespace Sys2Proof.Machine

/-! ### Cells -/

theorem cellAt_put (cells : List Host.Cell) (a : Nat) (b : Byte) (x : Nat) :
    cellAt (cellPut cells a b) x = if x = a then some b else cellAt cells x := by
  induction cells with
  | nil => rfl
  | cons c rest ih =>
    obtain ⟨k, v⟩ := c
    by_cases h1 : a < k
    · simp only [cellPut, h1, if_true, cellAt]
    · by_cases h2 : a = k
      · subst h2
        simp only [cellPut, lt_irrefl, if_false, if_true, cellAt]
        split <;> rfl
      · simp only [cellPut, h1, h2, if_false, cellAt, ih]
        by_cases h3 : x = k
        · have : x ≠ a := by omega
          simp [h3, Ne.symm h2]
        · simp [h3]

theorem cellPut_fst (cells : List Host.Cell) (a : Nat) (b : Byte) (c : Host.Cell) (h : c ∈ cellPut cells a b) :
    c.1 = a ∨ c ∈ cells := by
  induction cells with
  | nil => simp only [cellPut, List.mem_singleton] at h; exact .inl (by rw [h])
  | cons d rest ih =>
    obtain ⟨k, v⟩ := d
    simp only [cellPut] at h
    split at h
    · rcases List.mem_cons.1 h with h | h
      · exact .inl (by rw [h])
      · exact .inr h
    · split at h
      · rcases List.mem_cons.1 h with h | h
        · exact .inl (by rw [h])
        · exact .inr (List.mem_cons_of_mem _ h)
      · rcases List.mem_cons.1 h with h | h
        · exact .inr (by rw [h]; exact List.mem_cons_self)
        · exact (ih h).imp_right (List.mem_cons_of_mem _)

theorem cellsRising_put (cells : List Host.Cell) (a : Nat) (b : Byte) (h : cellsRising cells = true) :
    cellsRising (cellPut cells a b) = true := by
  induction cells with
  | nil => rfl
  | cons d rest ih =>
    obtain ⟨k, v⟩ := d
    simp only [cellsRising, Bool.and_eq_true, List.all_eq_true, decide_eq_true_eq] at h
    simp only [cellPut]
    split
    · simp only [cellsRising, Bool.and_eq_true, List.all_eq_true, decide_eq_true_eq, List.mem_cons]
      refine ⟨?_, h⟩
      rintro c (rfl | hc)
      · assumption
      · exact lt_trans ‹_› (h.1 c hc)
    · split
      · subst a
        simpa only [cellsRising, Bool.and_eq_true, List.all_eq_true, decide_eq_true_eq] using h
      · simp only [cellsRising, Bool.and_eq_true, List.all_eq_true, decide_eq_true_eq]
        refine ⟨fun c hc => ?_, ih h.2⟩
        rcases cellPut_fst rest a b c hc with hc | hc
        · omega
        · exact h.1 c hc

/-! ### One byte -/

@[simp] theorem Memory.write_draw (m : Memory) (a : Nat) (b : Byte) : (m.write a b).draw = m.draw := rfl

/-- A read after a write: the value at the address written, the old byte everywhere else. -/
theorem Memory.read_write (m : Memory) (a : Nat) (b : Byte) (x : Nat) :
    (m.write a b).read x = if x = a then b else m.read x := by
  unfold Memory.read Memory.write Memory.unlisted
  simp only [cellAt_put]
  split <;> rfl

@[simp] theorem Memory.read_write_same (m : Memory) (a : Nat) (b : Byte) : (m.write a b).read a = b := by
  simp [Memory.read_write]

theorem Memory.read_write_ne (m : Memory) (a : Nat) (b : Byte) (x : Nat) (h : x ≠ a) : (m.write a b).read x = m.read x := by
  simp [Memory.read_write, h]

theorem Memory.wf_write (m : Memory) (a : Nat) (b : Byte) (h : m.wf = true) : (m.write a b).wf = true :=
  cellsRising_put m.cells a b h

theorem Memory.within_write (m : Memory) (n a : Nat) (b : Byte) (h : m.within n = true) (ha : a < n) :
    (m.write a b).within n = true := by
  simp only [Memory.within, Memory.write, List.all_eq_true, decide_eq_true_eq] at *
  intro c hc
  rcases cellPut_fst _ _ _ _ hc with e | e
  · omega
  · exact h c e

/-! ### Bytes in a row -/

@[simp] theorem Memory.writeBytes_nil (m : Memory) (a : Nat) : m.writeBytes a [] = m := rfl

theorem Memory.writeBytes_cons (m : Memory) (a : Nat) (b : Byte) (bs : List Byte) :
    m.writeBytes a (b :: bs) = (m.write a b).writeBytes (a + 1) bs := rfl

@[simp] theorem Memory.writeBytes_draw (m : Memory) (a : Nat) (bs : List Byte) : (m.writeBytes a bs).draw = m.draw := by
  induction bs generalizing m a with
  | nil => rfl
  | cons b bs ih => rw [Memory.writeBytes_cons, ih, Memory.write_draw]

/-- A read after writing bytes in a row: the byte of the list inside the range, the old byte outside. -/
theorem Memory.read_writeBytes (m : Memory) (a : Nat) (bs : List Byte) (x : Nat) :
    (m.writeBytes a bs).read x = if a ≤ x ∧ x < a + bs.length then bs.getD (x - a) 0 else m.read x := by
  induction bs generalizing m a with
  | nil => simp only [Memory.writeBytes_nil, List.length_nil, Nat.add_zero]; rw [if_neg (by omega)]
  | cons b bs ih =>
    rw [Memory.writeBytes_cons, ih]
    simp only [List.length_cons]
    by_cases h : a + 1 ≤ x ∧ x < a + 1 + bs.length
    · rw [if_pos h, if_pos (by omega), show x - a = (x - (a + 1)) + 1 by omega, List.getD_cons_succ]
    · rw [if_neg h, Memory.read_write]
      by_cases hx : x = a
      · subst hx; rw [if_pos rfl, if_pos (by omega), Nat.sub_self, List.getD_cons_zero]
      · rw [if_neg hx, if_neg (by omega)]

theorem Memory.read_writeBytes_outside (m : Memory) (a : Nat) (bs : List Byte) (x : Nat)
    (h : x < a ∨ a + bs.length ≤ x) : (m.writeBytes a bs).read x = m.read x := by
  rw [Memory.read_writeBytes, if_neg (by omega)]

theorem Memory.wf_writeBytes (m : Memory) (a : Nat) (bs : List Byte) (h : m.wf = true) : (m.writeBytes a bs).wf = true := by
  induction bs generalizing m a with
  | nil => exact h
  | cons b bs ih => exact ih _ _ (m.wf_write a b h)

theorem Memory.within_writeBytes (m : Memory) (n a : Nat) (bs : List Byte) (h : m.within n = true)
    (ha : bs = [] ∨ a + bs.length ≤ n) : (m.writeBytes a bs).within n = true := by
  induction bs generalizing m a with
  | nil => exact h
  | cons b bs ih =>
    have ha : a + (bs.length + 1) ≤ n := by simpa using ha
    exact ih _ _ (m.within_write n a b h (by omega)) (by right; omega)

@[simp] theorem Memory.length_readBytes (m : Memory) (a n : Nat) : (m.readBytes a n).length = n := by
  simp [Memory.readBytes]

theorem Memory.getD_readBytes (m : Memory) (a n k : Nat) (h : k < n) : (m.readBytes a n).getD k 0 = m.read (a + k) := by
  rw [List.getD_eq_getElem _ _ (by simpa using h)]
  simp [Memory.readBytes]

/-- Reading a row of bytes sees only those bytes. -/
theorem Memory.readBytes_congr (m m' : Memory) (a n : Nat) (h : ∀ x, a ≤ x → x < a + n → m.read x = m'.read x) :
    m.readBytes a n = m'.readBytes a n := by
  apply List.map_congr_left
  intro x hx
  rw [List.mem_range'_1] at hx
  exact h x hx.1 hx.2

/-! ### Words, little-endian -/

theorem Memory.readWord_congr (m m' : Memory) (a : Nat) (h : ∀ x, a ≤ x → x < a + 4 → m.read x = m'.read x) :
    m.readWord a = m'.readWord a := by
  unfold Memory.readWord
  rw [h a (by omega) (by omega), h (a + 1) (by omega) (by omega), h (a + 2) (by omega) (by omega),
    h (a + 3) (by omega) (by omega)]

/-- The word read is the little-endian sum of its four bytes (R50). -/
theorem Memory.toNat_readWord (m : Memory) (a : Nat) :
    (m.readWord a).toNat = (m.read a).toNat + 256 * (m.read (a + 1)).toNat + 65536 * (m.read (a + 2)).toNat
      + 16777216 * (m.read (a + 3)).toNat := by
  have h0 := (m.read a).isLt
  have h1 := (m.read (a + 1)).isLt
  have h2 := (m.read (a + 2)).isLt
  unfold Memory.readWord
  simp only [BitVec.toNat_append]
  rw [← Nat.shiftLeft_add_eq_or_of_lt h2, ← Nat.shiftLeft_add_eq_or_of_lt h1, ← Nat.shiftLeft_add_eq_or_of_lt h0]
  simp only [Nat.shiftLeft_eq]
  omega

@[simp] theorem Memory.writeWord_draw (m : Memory) (a : Nat) (v : Word) : (m.writeWord a v).draw = m.draw :=
  m.writeBytes_draw a _

theorem Memory.read_writeWord_outside (m : Memory) (a : Nat) (v : Word) (x : Nat) (h : x < a ∨ a + 4 ≤ x) :
    (m.writeWord a v).read x = m.read x :=
  m.read_writeBytes_outside a _ x (by simpa using h)

theorem Memory.wf_writeWord (m : Memory) (a : Nat) (v : Word) (h : m.wf = true) : (m.writeWord a v).wf = true :=
  m.wf_writeBytes a _ h

theorem Memory.within_writeWord (m : Memory) (n a : Nat) (v : Word) (h : m.within n = true) (ha : a + 4 ≤ n) :
    (m.writeWord a v).within n = true :=
  m.within_writeBytes n a _ h (.inr (by simpa using ha))

/-- The word written is the word read back. -/
@[simp] theorem Memory.readWord_writeWord (m : Memory) (a : Nat) (v : Word) : (m.writeWord a v).readWord a = v := by
  unfold Memory.readWord Memory.writeWord
  have e0 : a - a = 0 := by omega
  have e1 : a + 1 - a = 1 := by omega
  have e2 : a + 2 - a = 2 := by omega
  have e3 : a + 3 - a = 3 := by omega
  simp only [Memory.read_writeBytes, List.length_cons, List.length_nil, e0, e1, e2, e3]
  rw [if_pos (by omega), if_pos (by omega), if_pos (by omega), if_pos (by omega)]
  ext i hi
  simp only [List.getD_cons_zero, List.getD_cons_succ, BitVec.getElem_append, BitVec.getElem_extractLsb']
  repeat' split
  all_goals (rw [← BitVec.getLsbD_eq_getElem hi]; congr 1; omega)

theorem Memory.readWord_writeWord_outside (m : Memory) (a : Nat) (v : Word) (x : Nat) (h : x + 4 ≤ a ∨ a + 4 ≤ x) :
    (m.writeWord a v).readWord x = m.readWord x :=
  Memory.readWord_congr _ _ _ fun y hy hy' => m.read_writeWord_outside a v y (by omega)

/-- Two buffers with the same word at an address have the same four bytes there. -/
theorem Memory.read_of_readWord (m m' : Memory) (a : Nat) (h : m.readWord a = m'.readWord a) (x : Nat) (hx : a ≤ x)
    (hx' : x < a + 4) : m.read x = m'.read x := by
  have e := congrArg BitVec.toNat h
  rw [Memory.toNat_readWord, Memory.toNat_readWord] at e
  have b0 := (m.read a).isLt; have b0' := (m'.read a).isLt
  have b1 := (m.read (a + 1)).isLt; have b1' := (m'.read (a + 1)).isLt
  have b2 := (m.read (a + 2)).isLt; have b2' := (m'.read (a + 2)).isLt
  have b3 := (m.read (a + 3)).isLt; have b3' := (m'.read (a + 3)).isLt
  apply BitVec.eq_of_toNat_eq
  obtain rfl | rfl | rfl | rfl : x = a ∨ x = a + 1 ∨ x = a + 2 ∨ x = a + 3 := by omega
  all_goals omega

/-! ### Free bytes -/

@[simp] theorem Memory.spoil_draw (m : Memory) (n d : Nat) : (m.spoil n d).draw = m.draw := m.writeBytes_draw 0 _

/-- Spoiling makes the first `n` bytes those of the fresh draw and leaves the others. -/
theorem Memory.read_spoil (m : Memory) (n d x : Nat) :
    (m.spoil n d).read x = if x < n then Config.freeByte d x else m.read x := by
  unfold Memory.spoil
  rw [Memory.read_writeBytes]
  simp only [List.length_map, List.length_range, Nat.zero_le, true_and, Nat.zero_add, Nat.sub_zero]
  split
  · rw [List.getD_eq_getElem _ _ (by simpa)]; simp
  · rfl

theorem Memory.wf_spoil (m : Memory) (n d : Nat) (h : m.wf = true) : (m.spoil n d).wf = true := m.wf_writeBytes 0 _ h

theorem Memory.within_spoil (m : Memory) (c n d : Nat) (h : m.within c = true) (hn : n ≤ c) : (m.spoil n d).within c = true :=
  m.within_writeBytes c 0 _ h (.inr (by simpa using hn))

end Sys2Proof.Machine
end

