-- ==== Sys2Proof/Laws/Cipher.lean ====
section
/-! SUPPORT. What a cipher pass does to the buffer: only the whole words of its region change. -/

namespace Sys2Proof.Machine

theorem cryptWords_succ (table : List Word) (dir : Direction) (n a : Nat) (s1 s2 : Word) (m : Memory) :
    cryptWords table dir (n + 1) a s1 s2 m =
      cryptWords table dir n (a + 4) (nextSeed1 s1)
        (mixSeed2 (plainWord dir (m.readWord a) (m.readWord a ^^^ (s1 + tableStep table s1 s2))) (tableStep table s1 s2))
        (m.writeWord a (m.readWord a ^^^ (s1 + tableStep table s1 s2))) := rfl

@[simp] theorem cryptWords_draw (table : List Word) (dir : Direction) (n a : Nat) (s1 s2 : Word) (m : Memory) :
    (cryptWords table dir n a s1 s2 m).draw = m.draw := by
  induction n generalizing a s1 s2 m with
  | zero => rfl
  | succ n ih => rw [cryptWords_succ, ih, Memory.writeWord_draw]

theorem cryptWords_read_outside (table : List Word) (dir : Direction) (n a : Nat) (s1 s2 : Word) (m : Memory) (x : Nat)
    (h : x < a ∨ a + 4 * n ≤ x) : (cryptWords table dir n a s1 s2 m).read x = m.read x := by
  induction n generalizing a s1 s2 m with
  | zero => rfl
  | succ n ih => rw [cryptWords_succ, ih _ _ _ _ (by omega), Memory.read_writeWord_outside _ _ _ _ (by omega)]

theorem cryptWords_wf (table : List Word) (dir : Direction) (n a : Nat) (s1 s2 : Word) (m : Memory) (h : m.wf = true) :
    (cryptWords table dir n a s1 s2 m).wf = true := by
  induction n generalizing a s1 s2 m with
  | zero => exact h
  | succ n ih => exact ih _ _ _ _ (m.wf_writeWord _ _ h)

theorem cryptWords_within (table : List Word) (dir : Direction) (n a : Nat) (s1 s2 : Word) (m : Memory) (c : Nat)
    (h : m.within c = true) (ha : n = 0 ∨ a + 4 * n ≤ c) : (cryptWords table dir n a s1 s2 m).within c = true := by
  induction n generalizing a s1 s2 m with
  | zero => exact h
  | succ n ih => exact ih _ _ _ _ (m.within_writeWord _ _ _ h (by omega)) (by omega)

/-- What a run of rounds makes of its words, in any direction: each is exclusive-ored with a keystream word, and the two seeds
advance as R121 says. -/
theorem cryptWords_readWord (table : List Word) (dir : Direction) (n a : Nat) (s1 s2 : Word) (m : Memory) :
    ∃ S1 S2 : Nat → Word, S1 0 = s1 ∧ S2 0 = s2 ∧ ∀ i, i < n →
      (cryptWords table dir n a s1 s2 m).readWord (a + 4 * i) =
        m.readWord (a + 4 * i) ^^^ (S1 i + tableStep table (S1 i) (S2 i)) ∧
      S1 (i + 1) = nextSeed1 (S1 i) ∧
      S2 (i + 1) =
        mixSeed2 (plainWord dir (m.readWord (a + 4 * i)) ((cryptWords table dir n a s1 s2 m).readWord (a + 4 * i)))
          (tableStep table (S1 i) (S2 i)) := by
  induction n generalizing a s1 s2 m with
  | zero => exact ⟨fun _ => s1, fun _ => s2, rfl, rfl, fun i hi => absurd hi (by omega)⟩
  | succ n ih =>
    rw [cryptWords_succ]
    set t2 := tableStep table s1 s2 with ht2
    set o := m.readWord a ^^^ (s1 + t2) with ho
    set m' := m.writeWord a o
    obtain ⟨S1, S2, h1, h2, h⟩ := ih (a + 4) (nextSeed1 s1) (mixSeed2 (plainWord dir (m.readWord a) o) t2) m'
    set M := cryptWords table dir n (a + 4) (nextSeed1 s1) (mixSeed2 (plainWord dir (m.readWord a) o) t2) m' with hM
    have hM0 : M.readWord a = o := by
      rw [hM, Memory.readWord_congr _ m' a fun x hx hx' => cryptWords_read_outside _ _ _ _ _ _ _ _ (by omega)]
      exact m.readWord_writeWord a o
    refine ⟨fun i => if i = 0 then s1 else S1 (i - 1), fun i => if i = 0 then s2 else S2 (i - 1), by simp, by simp, ?_⟩
    rintro (_ | i) hi
    · simp only [Nat.mul_zero, Nat.add_zero, if_true, hM0]
      exact ⟨rfl, by simp [h1], by simp [h2, ht2]⟩
    · obtain ⟨g1, g2, g3⟩ := h i (by omega)
      have e : m'.readWord (a + 4 + 4 * i) = m.readWord (a + 4 * (i + 1)) := by
        rw [show a + 4 * (i + 1) = a + 4 + 4 * i by omega]
        exact m.readWord_writeWord_outside _ _ _ (by omega)
      have e2 : a + 4 + 4 * i = a + 4 * (i + 1) := by omega
      rw [e, e2] at g1 g3
      simp only [Nat.add_eq_zero_iff, one_ne_zero, and_false, if_false, Nat.add_sub_cancel]
      exact ⟨g1, g2, g3⟩

/-- The words after a run depend on the words before it alone. -/
theorem cryptWords_congr (table : List Word) (dir : Direction) (n a : Nat) (s1 s2 : Word) (m m' : Memory)
    (h : ∀ x, a ≤ x → x < a + 4 * n → m.read x = m'.read x) (x : Nat) (hx : a ≤ x) (hx' : x < a + 4 * n) :
    (cryptWords table dir n a s1 s2 m).read x = (cryptWords table dir n a s1 s2 m').read x := by
  induction n generalizing a s1 s2 m m' with
  | zero => omega
  | succ n ih =>
    have hw : m.readWord a = m'.readWord a := Memory.readWord_congr _ _ _ fun y hy hy' => h y hy (by omega)
    rw [cryptWords_succ, cryptWords_succ, hw]
    have hr : ∀ y, a ≤ y → y < a + 4 * (n + 1) → ∀ o, (m.writeWord a o).read y = (m'.writeWord a o).read y := by
      intro y hy hy' o
      by_cases hc : y < a + 4
      · exact Memory.read_of_readWord _ _ a (by simp) y hy hc
      · rw [Memory.read_writeWord_outside _ _ _ _ (by omega), Memory.read_writeWord_outside _ _ _ _ (by omega)]
        exact h y hy hy'
    by_cases hc : x < a + 4
    · rw [cryptWords_read_outside _ _ _ _ _ _ _ _ (by omega), cryptWords_read_outside _ _ _ _ _ _ _ _ (by omega)]
      exact hr x hx hx' _
    · exact ih _ _ _ _ _ (fun y hy hy' => hr y (by omega) (by omega) _) (by omega) (by omega)

@[simp] theorem crypt_draw (table : List Word) (dir : Direction) (key : Word) (off len : Nat) (m : Memory) :
    (crypt table dir key off len m).draw = m.draw := cryptWords_draw ..

/-- A pass changes no byte outside the whole words of its region (R122, R128). -/
theorem crypt_read_outside (table : List Word) (dir : Direction) (key : Word) (off len : Nat) (m : Memory) (x : Nat)
    (h : x < off ∨ off + 4 * (len / 4) ≤ x) : (crypt table dir key off len m).read x = m.read x :=
  cryptWords_read_outside _ _ _ _ _ _ _ _ h

theorem crypt_wf (table : List Word) (dir : Direction) (key : Word) (off len : Nat) (m : Memory) (h : m.wf = true) :
    (crypt table dir key off len m).wf = true := cryptWords_wf _ _ _ _ _ _ _ h

theorem crypt_within (table : List Word) (dir : Direction) (key : Word) (off len : Nat) (m : Memory) (c : Nat)
    (h : m.within c = true) (hc : off + len ≤ c) : (crypt table dir key off len m).within c = true :=
  cryptWords_within _ _ _ _ _ _ _ _ h (by omega)

/-- Fewer than four bytes: nothing changes (R122). -/
theorem crypt_of_short (table : List Word) (dir : Direction) (key : Word) (off len : Nat) (m : Memory) (h : len < 4) :
    crypt table dir key off len m = m := by
  unfold crypt
  rw [Nat.div_eq_of_lt h]
  rfl

end Sys2Proof.Machine
end

