-- ==== Sys2Proof/Laws/State.lean ====
section
/-! SUPPORT. The fields of the state after each update: one lemma a field and update, true by `rfl`, so that no proof unfolds a
record update. -/

namespace Sys2Proof.Machine

/-! ### setResult -/

@[simp] theorem State.setResult_status (s : State) (v : Word) : (s.setResult v).status = s.status := rfl
@[simp] theorem State.setResult_einfo (s : State) (v : Word) : (s.setResult v).einfo = s.einfo := rfl
@[simp] theorem State.setResult_result (s : State) (v : Word) : (s.setResult v).result = v := rfl
@[simp] theorem State.setResult_olen (s : State) (v : Word) : (s.setResult v).olen = s.olen := rfl
@[simp] theorem State.setResult_key (s : State) (v : Word) : (s.setResult v).key = s.key := rfl
@[simp] theorem State.setResult_offset (s : State) (v : Word) : (s.setResult v).offset = s.offset := rfl
@[simp] theorem State.setResult_length (s : State) (v : Word) : (s.setResult v).length = s.length := rfl
@[simp] theorem State.setResult_nlen (s : State) (v : Word) : (s.setResult v).nlen = s.nlen := rfl
@[simp] theorem State.setResult_boff (s : State) (v : Word) : (s.setResult v).boff = s.boff := rfl
@[simp] theorem State.setResult_csize (s : State) (v : Word) : (s.setResult v).csize = s.csize := rfl
@[simp] theorem State.setResult_usize (s : State) (v : Word) : (s.setResult v).usize = s.usize := rfl
@[simp] theorem State.setResult_flags (s : State) (v : Word) : (s.setResult v).flags = s.flags := rfl
@[simp] theorem State.setResult_sshift (s : State) (v : Word) : (s.setResult v).sshift = s.sshift := rfl
@[simp] theorem State.setResult_table (s : State) (v : Word) : (s.setResult v).table = s.table := rfl
@[simp] theorem State.setResult_nbuf (s : State) (v : Word) : (s.setResult v).nbuf = s.nbuf := rfl
@[simp] theorem State.setResult_dbuf (s : State) (v : Word) : (s.setResult v).dbuf = s.dbuf := rfl
@[simp] theorem State.setResult_obuf (s : State) (v : Word) : (s.setResult v).obuf = s.obuf := rfl
@[simp] theorem State.setResult_geom (s : State) (v : Word) : (s.setResult v).geom = s.geom := rfl
@[simp] theorem State.setResult_draws (s : State) (v : Word) : (s.setResult v).draws = s.draws := rfl
@[simp] theorem State.setResult_script (s : State) (v : Word) : (s.setResult v).script = s.script := rfl
@[simp] theorem State.setResult_replies (s : State) (v : Word) : (s.setResult v).replies = s.replies := rfl

/-! ### setKeyResult -/

@[simp] theorem State.setKeyResult_status (s : State) (v : Word) : (s.setKeyResult v).status = s.status := rfl
@[simp] theorem State.setKeyResult_einfo (s : State) (v : Word) : (s.setKeyResult v).einfo = s.einfo := rfl
@[simp] theorem State.setKeyResult_result (s : State) (v : Word) : (s.setKeyResult v).result = v := rfl
@[simp] theorem State.setKeyResult_olen (s : State) (v : Word) : (s.setKeyResult v).olen = s.olen := rfl
@[simp] theorem State.setKeyResult_key (s : State) (v : Word) : (s.setKeyResult v).key = v := rfl
@[simp] theorem State.setKeyResult_offset (s : State) (v : Word) : (s.setKeyResult v).offset = s.offset := rfl
@[simp] theorem State.setKeyResult_length (s : State) (v : Word) : (s.setKeyResult v).length = s.length := rfl
@[simp] theorem State.setKeyResult_nlen (s : State) (v : Word) : (s.setKeyResult v).nlen = s.nlen := rfl
@[simp] theorem State.setKeyResult_boff (s : State) (v : Word) : (s.setKeyResult v).boff = s.boff := rfl
@[simp] theorem State.setKeyResult_csize (s : State) (v : Word) : (s.setKeyResult v).csize = s.csize := rfl
@[simp] theorem State.setKeyResult_usize (s : State) (v : Word) : (s.setKeyResult v).usize = s.usize := rfl
@[simp] theorem State.setKeyResult_flags (s : State) (v : Word) : (s.setKeyResult v).flags = s.flags := rfl
@[simp] theorem State.setKeyResult_sshift (s : State) (v : Word) : (s.setKeyResult v).sshift = s.sshift := rfl
@[simp] theorem State.setKeyResult_table (s : State) (v : Word) : (s.setKeyResult v).table = s.table := rfl
@[simp] theorem State.setKeyResult_nbuf (s : State) (v : Word) : (s.setKeyResult v).nbuf = s.nbuf := rfl
@[simp] theorem State.setKeyResult_dbuf (s : State) (v : Word) : (s.setKeyResult v).dbuf = s.dbuf := rfl
@[simp] theorem State.setKeyResult_obuf (s : State) (v : Word) : (s.setKeyResult v).obuf = s.obuf := rfl
@[simp] theorem State.setKeyResult_geom (s : State) (v : Word) : (s.setKeyResult v).geom = s.geom := rfl
@[simp] theorem State.setKeyResult_draws (s : State) (v : Word) : (s.setKeyResult v).draws = s.draws := rfl
@[simp] theorem State.setKeyResult_script (s : State) (v : Word) : (s.setKeyResult v).script = s.script := rfl
@[simp] theorem State.setKeyResult_replies (s : State) (v : Word) : (s.setKeyResult v).replies = s.replies := rfl

/-! ### setDbuf -/

@[simp] theorem State.setDbuf_status (s : State) (m : Memory) : (s.setDbuf m).status = s.status := rfl
@[simp] theorem State.setDbuf_einfo (s : State) (m : Memory) : (s.setDbuf m).einfo = s.einfo := rfl
@[simp] theorem State.setDbuf_result (s : State) (m : Memory) : (s.setDbuf m).result = s.result := rfl
@[simp] theorem State.setDbuf_olen (s : State) (m : Memory) : (s.setDbuf m).olen = s.olen := rfl
@[simp] theorem State.setDbuf_key (s : State) (m : Memory) : (s.setDbuf m).key = s.key := rfl
@[simp] theorem State.setDbuf_offset (s : State) (m : Memory) : (s.setDbuf m).offset = s.offset := rfl
@[simp] theorem State.setDbuf_length (s : State) (m : Memory) : (s.setDbuf m).length = s.length := rfl
@[simp] theorem State.setDbuf_nlen (s : State) (m : Memory) : (s.setDbuf m).nlen = s.nlen := rfl
@[simp] theorem State.setDbuf_boff (s : State) (m : Memory) : (s.setDbuf m).boff = s.boff := rfl
@[simp] theorem State.setDbuf_csize (s : State) (m : Memory) : (s.setDbuf m).csize = s.csize := rfl
@[simp] theorem State.setDbuf_usize (s : State) (m : Memory) : (s.setDbuf m).usize = s.usize := rfl
@[simp] theorem State.setDbuf_flags (s : State) (m : Memory) : (s.setDbuf m).flags = s.flags := rfl
@[simp] theorem State.setDbuf_sshift (s : State) (m : Memory) : (s.setDbuf m).sshift = s.sshift := rfl
@[simp] theorem State.setDbuf_table (s : State) (m : Memory) : (s.setDbuf m).table = s.table := rfl
@[simp] theorem State.setDbuf_nbuf (s : State) (m : Memory) : (s.setDbuf m).nbuf = s.nbuf := rfl
@[simp] theorem State.setDbuf_dbuf (s : State) (m : Memory) : (s.setDbuf m).dbuf = m := rfl
@[simp] theorem State.setDbuf_obuf (s : State) (m : Memory) : (s.setDbuf m).obuf = s.obuf := rfl
@[simp] theorem State.setDbuf_geom (s : State) (m : Memory) : (s.setDbuf m).geom = s.geom := rfl
@[simp] theorem State.setDbuf_draws (s : State) (m : Memory) : (s.setDbuf m).draws = s.draws := rfl
@[simp] theorem State.setDbuf_script (s : State) (m : Memory) : (s.setDbuf m).script = s.script := rfl
@[simp] theorem State.setDbuf_replies (s : State) (m : Memory) : (s.setDbuf m).replies = s.replies := rfl

/-! ### setObuf -/

@[simp] theorem State.setObuf_status (s : State) (m : Memory) : (s.setObuf m).status = s.status := rfl
@[simp] theorem State.setObuf_einfo (s : State) (m : Memory) : (s.setObuf m).einfo = s.einfo := rfl
@[simp] theorem State.setObuf_result (s : State) (m : Memory) : (s.setObuf m).result = s.result := rfl
@[simp] theorem State.setObuf_olen (s : State) (m : Memory) : (s.setObuf m).olen = s.olen := rfl
@[simp] theorem State.setObuf_key (s : State) (m : Memory) : (s.setObuf m).key = s.key := rfl
@[simp] theorem State.setObuf_offset (s : State) (m : Memory) : (s.setObuf m).offset = s.offset := rfl
@[simp] theorem State.setObuf_length (s : State) (m : Memory) : (s.setObuf m).length = s.length := rfl
@[simp] theorem State.setObuf_nlen (s : State) (m : Memory) : (s.setObuf m).nlen = s.nlen := rfl
@[simp] theorem State.setObuf_boff (s : State) (m : Memory) : (s.setObuf m).boff = s.boff := rfl
@[simp] theorem State.setObuf_csize (s : State) (m : Memory) : (s.setObuf m).csize = s.csize := rfl
@[simp] theorem State.setObuf_usize (s : State) (m : Memory) : (s.setObuf m).usize = s.usize := rfl
@[simp] theorem State.setObuf_flags (s : State) (m : Memory) : (s.setObuf m).flags = s.flags := rfl
@[simp] theorem State.setObuf_sshift (s : State) (m : Memory) : (s.setObuf m).sshift = s.sshift := rfl
@[simp] theorem State.setObuf_table (s : State) (m : Memory) : (s.setObuf m).table = s.table := rfl
@[simp] theorem State.setObuf_nbuf (s : State) (m : Memory) : (s.setObuf m).nbuf = s.nbuf := rfl
@[simp] theorem State.setObuf_dbuf (s : State) (m : Memory) : (s.setObuf m).dbuf = s.dbuf := rfl
@[simp] theorem State.setObuf_obuf (s : State) (m : Memory) : (s.setObuf m).obuf = m := rfl
@[simp] theorem State.setObuf_geom (s : State) (m : Memory) : (s.setObuf m).geom = s.geom := rfl
@[simp] theorem State.setObuf_draws (s : State) (m : Memory) : (s.setObuf m).draws = s.draws := rfl
@[simp] theorem State.setObuf_script (s : State) (m : Memory) : (s.setObuf m).script = s.script := rfl
@[simp] theorem State.setObuf_replies (s : State) (m : Memory) : (s.setObuf m).replies = s.replies := rfl

/-! ### setOlen -/

@[simp] theorem State.setOlen_status (s : State) (v : Word) : (s.setOlen v).status = s.status := rfl
@[simp] theorem State.setOlen_einfo (s : State) (v : Word) : (s.setOlen v).einfo = s.einfo := rfl
@[simp] theorem State.setOlen_result (s : State) (v : Word) : (s.setOlen v).result = s.result := rfl
@[simp] theorem State.setOlen_olen (s : State) (v : Word) : (s.setOlen v).olen = v := rfl
@[simp] theorem State.setOlen_key (s : State) (v : Word) : (s.setOlen v).key = s.key := rfl
@[simp] theorem State.setOlen_offset (s : State) (v : Word) : (s.setOlen v).offset = s.offset := rfl
@[simp] theorem State.setOlen_length (s : State) (v : Word) : (s.setOlen v).length = s.length := rfl
@[simp] theorem State.setOlen_nlen (s : State) (v : Word) : (s.setOlen v).nlen = s.nlen := rfl
@[simp] theorem State.setOlen_boff (s : State) (v : Word) : (s.setOlen v).boff = s.boff := rfl
@[simp] theorem State.setOlen_csize (s : State) (v : Word) : (s.setOlen v).csize = s.csize := rfl
@[simp] theorem State.setOlen_usize (s : State) (v : Word) : (s.setOlen v).usize = s.usize := rfl
@[simp] theorem State.setOlen_flags (s : State) (v : Word) : (s.setOlen v).flags = s.flags := rfl
@[simp] theorem State.setOlen_sshift (s : State) (v : Word) : (s.setOlen v).sshift = s.sshift := rfl
@[simp] theorem State.setOlen_table (s : State) (v : Word) : (s.setOlen v).table = s.table := rfl
@[simp] theorem State.setOlen_nbuf (s : State) (v : Word) : (s.setOlen v).nbuf = s.nbuf := rfl
@[simp] theorem State.setOlen_dbuf (s : State) (v : Word) : (s.setOlen v).dbuf = s.dbuf := rfl
@[simp] theorem State.setOlen_obuf (s : State) (v : Word) : (s.setOlen v).obuf = s.obuf := rfl
@[simp] theorem State.setOlen_geom (s : State) (v : Word) : (s.setOlen v).geom = s.geom := rfl
@[simp] theorem State.setOlen_draws (s : State) (v : Word) : (s.setOlen v).draws = s.draws := rfl
@[simp] theorem State.setOlen_script (s : State) (v : Word) : (s.setOlen v).script = s.script := rfl
@[simp] theorem State.setOlen_replies (s : State) (v : Word) : (s.setOlen v).replies = s.replies := rfl

/-! ### endWith -/

@[simp] theorem State.endWith_status (s : State) (x e : Word) : (s.endWith x e).status = x := rfl
@[simp] theorem State.endWith_einfo (s : State) (x e : Word) : (s.endWith x e).einfo = e := rfl
@[simp] theorem State.endWith_result (s : State) (x e : Word) : (s.endWith x e).result = s.result := rfl
@[simp] theorem State.endWith_olen (s : State) (x e : Word) : (s.endWith x e).olen = s.olen := rfl
@[simp] theorem State.endWith_key (s : State) (x e : Word) : (s.endWith x e).key = s.key := rfl
@[simp] theorem State.endWith_offset (s : State) (x e : Word) : (s.endWith x e).offset = s.offset := rfl
@[simp] theorem State.endWith_length (s : State) (x e : Word) : (s.endWith x e).length = s.length := rfl
@[simp] theorem State.endWith_nlen (s : State) (x e : Word) : (s.endWith x e).nlen = s.nlen := rfl
@[simp] theorem State.endWith_boff (s : State) (x e : Word) : (s.endWith x e).boff = s.boff := rfl
@[simp] theorem State.endWith_csize (s : State) (x e : Word) : (s.endWith x e).csize = s.csize := rfl
@[simp] theorem State.endWith_usize (s : State) (x e : Word) : (s.endWith x e).usize = s.usize := rfl
@[simp] theorem State.endWith_flags (s : State) (x e : Word) : (s.endWith x e).flags = s.flags := rfl
@[simp] theorem State.endWith_sshift (s : State) (x e : Word) : (s.endWith x e).sshift = s.sshift := rfl
@[simp] theorem State.endWith_table (s : State) (x e : Word) : (s.endWith x e).table = s.table := rfl
@[simp] theorem State.endWith_nbuf (s : State) (x e : Word) : (s.endWith x e).nbuf = s.nbuf := rfl
@[simp] theorem State.endWith_dbuf (s : State) (x e : Word) : (s.endWith x e).dbuf = s.dbuf := rfl
@[simp] theorem State.endWith_obuf (s : State) (x e : Word) : (s.endWith x e).obuf = s.obuf := rfl
@[simp] theorem State.endWith_geom (s : State) (x e : Word) : (s.endWith x e).geom = s.geom := rfl
@[simp] theorem State.endWith_draws (s : State) (x e : Word) : (s.endWith x e).draws = s.draws := rfl
@[simp] theorem State.endWith_script (s : State) (x e : Word) : (s.endWith x e).script = s.script := rfl
@[simp] theorem State.endWith_replies (s : State) (x e : Word) : (s.endWith x e).replies = s.replies := rfl

/-! ### setScript -/

@[simp] theorem State.setScript_status (s : State) (l : List HostAccess) : (s.setScript l).status = s.status := rfl
@[simp] theorem State.setScript_einfo (s : State) (l : List HostAccess) : (s.setScript l).einfo = s.einfo := rfl
@[simp] theorem State.setScript_result (s : State) (l : List HostAccess) : (s.setScript l).result = s.result := rfl
@[simp] theorem State.setScript_olen (s : State) (l : List HostAccess) : (s.setScript l).olen = s.olen := rfl
@[simp] theorem State.setScript_key (s : State) (l : List HostAccess) : (s.setScript l).key = s.key := rfl
@[simp] theorem State.setScript_offset (s : State) (l : List HostAccess) : (s.setScript l).offset = s.offset := rfl
@[simp] theorem State.setScript_length (s : State) (l : List HostAccess) : (s.setScript l).length = s.length := rfl
@[simp] theorem State.setScript_nlen (s : State) (l : List HostAccess) : (s.setScript l).nlen = s.nlen := rfl
@[simp] theorem State.setScript_boff (s : State) (l : List HostAccess) : (s.setScript l).boff = s.boff := rfl
@[simp] theorem State.setScript_csize (s : State) (l : List HostAccess) : (s.setScript l).csize = s.csize := rfl
@[simp] theorem State.setScript_usize (s : State) (l : List HostAccess) : (s.setScript l).usize = s.usize := rfl
@[simp] theorem State.setScript_flags (s : State) (l : List HostAccess) : (s.setScript l).flags = s.flags := rfl
@[simp] theorem State.setScript_sshift (s : State) (l : List HostAccess) : (s.setScript l).sshift = s.sshift := rfl
@[simp] theorem State.setScript_table (s : State) (l : List HostAccess) : (s.setScript l).table = s.table := rfl
@[simp] theorem State.setScript_nbuf (s : State) (l : List HostAccess) : (s.setScript l).nbuf = s.nbuf := rfl
@[simp] theorem State.setScript_dbuf (s : State) (l : List HostAccess) : (s.setScript l).dbuf = s.dbuf := rfl
@[simp] theorem State.setScript_obuf (s : State) (l : List HostAccess) : (s.setScript l).obuf = s.obuf := rfl
@[simp] theorem State.setScript_geom (s : State) (l : List HostAccess) : (s.setScript l).geom = s.geom := rfl
@[simp] theorem State.setScript_draws (s : State) (l : List HostAccess) : (s.setScript l).draws = s.draws := rfl
@[simp] theorem State.setScript_script (s : State) (l : List HostAccess) : (s.setScript l).script = l := rfl
@[simp] theorem State.setScript_replies (s : State) (l : List HostAccess) : (s.setScript l).replies = s.replies := rfl

/-! ### pushReply -/

@[simp] theorem State.pushReply_status (s : State) (r : HostReply) : (s.pushReply r).status = s.status := rfl
@[simp] theorem State.pushReply_einfo (s : State) (r : HostReply) : (s.pushReply r).einfo = s.einfo := rfl
@[simp] theorem State.pushReply_result (s : State) (r : HostReply) : (s.pushReply r).result = s.result := rfl
@[simp] theorem State.pushReply_olen (s : State) (r : HostReply) : (s.pushReply r).olen = s.olen := rfl
@[simp] theorem State.pushReply_key (s : State) (r : HostReply) : (s.pushReply r).key = s.key := rfl
@[simp] theorem State.pushReply_offset (s : State) (r : HostReply) : (s.pushReply r).offset = s.offset := rfl
@[simp] theorem State.pushReply_length (s : State) (r : HostReply) : (s.pushReply r).length = s.length := rfl
@[simp] theorem State.pushReply_nlen (s : State) (r : HostReply) : (s.pushReply r).nlen = s.nlen := rfl
@[simp] theorem State.pushReply_boff (s : State) (r : HostReply) : (s.pushReply r).boff = s.boff := rfl
@[simp] theorem State.pushReply_csize (s : State) (r : HostReply) : (s.pushReply r).csize = s.csize := rfl
@[simp] theorem State.pushReply_usize (s : State) (r : HostReply) : (s.pushReply r).usize = s.usize := rfl
@[simp] theorem State.pushReply_flags (s : State) (r : HostReply) : (s.pushReply r).flags = s.flags := rfl
@[simp] theorem State.pushReply_sshift (s : State) (r : HostReply) : (s.pushReply r).sshift = s.sshift := rfl
@[simp] theorem State.pushReply_table (s : State) (r : HostReply) : (s.pushReply r).table = s.table := rfl
@[simp] theorem State.pushReply_nbuf (s : State) (r : HostReply) : (s.pushReply r).nbuf = s.nbuf := rfl
@[simp] theorem State.pushReply_dbuf (s : State) (r : HostReply) : (s.pushReply r).dbuf = s.dbuf := rfl
@[simp] theorem State.pushReply_obuf (s : State) (r : HostReply) : (s.pushReply r).obuf = s.obuf := rfl
@[simp] theorem State.pushReply_geom (s : State) (r : HostReply) : (s.pushReply r).geom = s.geom := rfl
@[simp] theorem State.pushReply_draws (s : State) (r : HostReply) : (s.pushReply r).draws = s.draws := rfl
@[simp] theorem State.pushReply_script (s : State) (r : HostReply) : (s.pushReply r).script = s.script := rfl
@[simp] theorem State.pushReply_replies (s : State) (r : HostReply) : (s.pushReply r).replies = r :: s.replies := rfl

/-! ### spoilBuffers -/

@[simp] theorem State.spoilBuffers_status (s : State) : (s.spoilBuffers).status = s.status := rfl
@[simp] theorem State.spoilBuffers_einfo (s : State) : (s.spoilBuffers).einfo = s.einfo := rfl
@[simp] theorem State.spoilBuffers_result (s : State) : (s.spoilBuffers).result = s.result := rfl
@[simp] theorem State.spoilBuffers_olen (s : State) : (s.spoilBuffers).olen = 0 := rfl
@[simp] theorem State.spoilBuffers_key (s : State) : (s.spoilBuffers).key = s.key := rfl
@[simp] theorem State.spoilBuffers_offset (s : State) : (s.spoilBuffers).offset = s.offset := rfl
@[simp] theorem State.spoilBuffers_length (s : State) : (s.spoilBuffers).length = s.length := rfl
@[simp] theorem State.spoilBuffers_nlen (s : State) : (s.spoilBuffers).nlen = s.nlen := rfl
@[simp] theorem State.spoilBuffers_boff (s : State) : (s.spoilBuffers).boff = s.boff := rfl
@[simp] theorem State.spoilBuffers_csize (s : State) : (s.spoilBuffers).csize = s.csize := rfl
@[simp] theorem State.spoilBuffers_usize (s : State) : (s.spoilBuffers).usize = s.usize := rfl
@[simp] theorem State.spoilBuffers_flags (s : State) : (s.spoilBuffers).flags = s.flags := rfl
@[simp] theorem State.spoilBuffers_sshift (s : State) : (s.spoilBuffers).sshift = s.sshift := rfl
@[simp] theorem State.spoilBuffers_table (s : State) : (s.spoilBuffers).table = s.table := rfl
@[simp] theorem State.spoilBuffers_nbuf (s : State) : (s.spoilBuffers).nbuf = s.nbuf := rfl
@[simp] theorem State.spoilBuffers_dbuf (s : State) : (s.spoilBuffers).dbuf = s.dbuf.spoil s.csize.toNat s.draws := rfl
@[simp] theorem State.spoilBuffers_obuf (s : State) : (s.spoilBuffers).obuf = s.obuf.spoil s.usize.toNat (s.draws + 1) := rfl
@[simp] theorem State.spoilBuffers_geom (s : State) : (s.spoilBuffers).geom = s.geom := rfl
@[simp] theorem State.spoilBuffers_draws (s : State) : (s.spoilBuffers).draws = s.draws + 2 := rfl
@[simp] theorem State.spoilBuffers_script (s : State) : (s.spoilBuffers).script = s.script := rfl
@[simp] theorem State.spoilBuffers_replies (s : State) : (s.spoilBuffers).replies = s.replies := rfl

/-! ### pulseReset -/

@[simp] theorem State.pulseReset_status (s : State) : (s.pulseReset).status = 0 := rfl
@[simp] theorem State.pulseReset_einfo (s : State) : (s.pulseReset).einfo = 0 := rfl
@[simp] theorem State.pulseReset_result (s : State) : (s.pulseReset).result = 0 := rfl
@[simp] theorem State.pulseReset_olen (s : State) : (s.pulseReset).olen = 0 := rfl
@[simp] theorem State.pulseReset_key (s : State) : (s.pulseReset).key = 0 := rfl
@[simp] theorem State.pulseReset_offset (s : State) : (s.pulseReset).offset = 0 := rfl
@[simp] theorem State.pulseReset_length (s : State) : (s.pulseReset).length = 0 := rfl
@[simp] theorem State.pulseReset_nlen (s : State) : (s.pulseReset).nlen = 0 := rfl
@[simp] theorem State.pulseReset_boff (s : State) : (s.pulseReset).boff = 0 := rfl
@[simp] theorem State.pulseReset_csize (s : State) : (s.pulseReset).csize = 0 := rfl
@[simp] theorem State.pulseReset_usize (s : State) : (s.pulseReset).usize = 0 := rfl
@[simp] theorem State.pulseReset_flags (s : State) : (s.pulseReset).flags = 0 := rfl
@[simp] theorem State.pulseReset_sshift (s : State) : (s.pulseReset).sshift = 0 := rfl
@[simp] theorem State.pulseReset_table (s : State) : (s.pulseReset).table = cipherTable := rfl
@[simp] theorem State.pulseReset_nbuf (s : State) : (s.pulseReset).nbuf = ⟨[], s.draws⟩ := rfl
@[simp] theorem State.pulseReset_dbuf (s : State) : (s.pulseReset).dbuf = ⟨[], s.draws + 1⟩ := rfl
@[simp] theorem State.pulseReset_obuf (s : State) : (s.pulseReset).obuf = ⟨[], s.draws + 2⟩ := rfl
@[simp] theorem State.pulseReset_geom (s : State) : (s.pulseReset).geom = s.geom := rfl
@[simp] theorem State.pulseReset_draws (s : State) : (s.pulseReset).draws = s.draws + 3 := rfl
@[simp] theorem State.pulseReset_script (s : State) : (s.pulseReset).script = s.script := rfl
@[simp] theorem State.pulseReset_replies (s : State) : (s.pulseReset).replies = s.replies := rfl

/-! ### complete -/

@[simp] theorem complete_status (c : Completion) (s : State) : (complete c s).status = statusWord c.code false true := rfl
@[simp] theorem complete_einfo (c : Completion) (s : State) : (complete c s).einfo = 0 := rfl
@[simp] theorem complete_result (c : Completion) (s : State) : (complete c s).result = s.result := rfl
@[simp] theorem complete_olen (c : Completion) (s : State) : (complete c s).olen = s.olen := rfl
@[simp] theorem complete_key (c : Completion) (s : State) : (complete c s).key = s.key := rfl
@[simp] theorem complete_offset (c : Completion) (s : State) : (complete c s).offset = s.offset := rfl
@[simp] theorem complete_length (c : Completion) (s : State) : (complete c s).length = s.length := rfl
@[simp] theorem complete_nlen (c : Completion) (s : State) : (complete c s).nlen = s.nlen := rfl
@[simp] theorem complete_boff (c : Completion) (s : State) : (complete c s).boff = s.boff := rfl
@[simp] theorem complete_csize (c : Completion) (s : State) : (complete c s).csize = s.csize := rfl
@[simp] theorem complete_usize (c : Completion) (s : State) : (complete c s).usize = s.usize := rfl
@[simp] theorem complete_flags (c : Completion) (s : State) : (complete c s).flags = s.flags := rfl
@[simp] theorem complete_sshift (c : Completion) (s : State) : (complete c s).sshift = s.sshift := rfl
@[simp] theorem complete_table (c : Completion) (s : State) : (complete c s).table = s.table := rfl
@[simp] theorem complete_nbuf (c : Completion) (s : State) : (complete c s).nbuf = s.nbuf := rfl
@[simp] theorem complete_dbuf (c : Completion) (s : State) : (complete c s).dbuf = s.dbuf := rfl
@[simp] theorem complete_obuf (c : Completion) (s : State) : (complete c s).obuf = s.obuf := rfl
@[simp] theorem complete_geom (c : Completion) (s : State) : (complete c s).geom = s.geom := rfl
@[simp] theorem complete_draws (c : Completion) (s : State) : (complete c s).draws = s.draws := rfl
@[simp] theorem complete_script (c : Completion) (s : State) : (complete c s).script = s.script := rfl
@[simp] theorem complete_replies (c : Completion) (s : State) : (complete c s).replies = s.replies := rfl

/-! ### raise -/

@[simp] theorem raise_status (r : Raised) (s : State) : (raise r s).status = statusWord r.cause.code true true := rfl
@[simp] theorem raise_einfo (r : Raised) (s : State) : (raise r s).einfo = r.info := rfl
@[simp] theorem raise_result (r : Raised) (s : State) : (raise r s).result = s.result := rfl
@[simp] theorem raise_olen (r : Raised) (s : State) : (raise r s).olen = s.olen := rfl
@[simp] theorem raise_key (r : Raised) (s : State) : (raise r s).key = s.key := rfl
@[simp] theorem raise_offset (r : Raised) (s : State) : (raise r s).offset = s.offset := rfl
@[simp] theorem raise_length (r : Raised) (s : State) : (raise r s).length = s.length := rfl
@[simp] theorem raise_nlen (r : Raised) (s : State) : (raise r s).nlen = s.nlen := rfl
@[simp] theorem raise_boff (r : Raised) (s : State) : (raise r s).boff = s.boff := rfl
@[simp] theorem raise_csize (r : Raised) (s : State) : (raise r s).csize = s.csize := rfl
@[simp] theorem raise_usize (r : Raised) (s : State) : (raise r s).usize = s.usize := rfl
@[simp] theorem raise_flags (r : Raised) (s : State) : (raise r s).flags = s.flags := rfl
@[simp] theorem raise_sshift (r : Raised) (s : State) : (raise r s).sshift = s.sshift := rfl
@[simp] theorem raise_table (r : Raised) (s : State) : (raise r s).table = s.table := rfl
@[simp] theorem raise_nbuf (r : Raised) (s : State) : (raise r s).nbuf = s.nbuf := rfl
@[simp] theorem raise_dbuf (r : Raised) (s : State) : (raise r s).dbuf = s.dbuf := rfl
@[simp] theorem raise_obuf (r : Raised) (s : State) : (raise r s).obuf = s.obuf := rfl
@[simp] theorem raise_geom (r : Raised) (s : State) : (raise r s).geom = s.geom := rfl
@[simp] theorem raise_draws (r : Raised) (s : State) : (raise r s).draws = s.draws := rfl
@[simp] theorem raise_script (r : Raised) (s : State) : (raise r s).script = s.script := rfl
@[simp] theorem raise_replies (r : Raised) (s : State) : (raise r s).replies = s.replies := rfl

end Sys2Proof.Machine
end

