-- ==== Sys2Proof/Laws/Extract.lean ====
section
/-! SUPPORT. What the extractor's passes and loops leave unchanged: one frame, kept by every step of both paths. -/

namespace Sys2Proof.Machine

/-- What one part of an extraction may change: bytes of `DBUF` below `CSIZE` when the file is encrypted, bytes of `OBUF` below
`USIZE`, and nothing else. -/
structure ExtractFrame (s t : State) : Prop where
  others : t = { s with dbuf := t.dbuf, obuf := t.obuf }
  dbuf_outside : ∀ a, s.csize.toNat ≤ a → t.dbuf.read a = s.dbuf.read a
  obuf_outside : ∀ a, s.usize.toNat ≤ a → t.obuf.read a = s.obuf.read a
  dbuf_plain : s.flagEncrypted = false → t.dbuf = s.dbuf
  dbuf_draw : t.dbuf.draw = s.dbuf.draw
  obuf_draw : t.obuf.draw = s.obuf.draw
  dbuf_wf : s.dbuf.wf = true → t.dbuf.wf = true
  obuf_wf : s.obuf.wf = true → t.obuf.wf = true
  dbuf_within : ∀ n, s.csize.toNat ≤ n → s.dbuf.within n = true → t.dbuf.within n = true
  obuf_within : ∀ n, s.usize.toNat ≤ n → s.obuf.within n = true → t.obuf.within n = true

namespace ExtractFrame

theorem refl (s : State) : ExtractFrame s s where
  others := rfl
  dbuf_outside _ _ := rfl
  obuf_outside _ _ := rfl
  dbuf_plain _ := rfl
  dbuf_draw := rfl
  obuf_draw := rfl
  dbuf_wf h := h
  obuf_wf h := h
  dbuf_within _ _ h := h
  obuf_within _ _ h := h

theorem csize {s t : State} (h : ExtractFrame s t) : t.csize = s.csize := by rw [h.others]
theorem usize {s t : State} (h : ExtractFrame s t) : t.usize = s.usize := by rw [h.others]
theorem flags {s t : State} (h : ExtractFrame s t) : t.flags = s.flags := by rw [h.others]
theorem sshift {s t : State} (h : ExtractFrame s t) : t.sshift = s.sshift := by rw [h.others]
theorem key {s t : State} (h : ExtractFrame s t) : t.key = s.key := by rw [h.others]
theorem table {s t : State} (h : ExtractFrame s t) : t.table = s.table := by rw [h.others]

theorem sectorSize {s t : State} (h : ExtractFrame s t) : t.sectorSize = s.sectorSize := by
  simp only [State.sectorSize, h.sshift]

theorem sectorCount {s t : State} (h : ExtractFrame s t) : t.sectorCount = s.sectorCount := by
  simp only [State.sectorCount, h.usize, h.sectorSize]

theorem remaining {s t : State} (h : ExtractFrame s t) (i : Nat) : t.remaining i = s.remaining i := by
  simp only [State.remaining, h.usize, h.sectorSize]

theorem flagEncrypted {s t : State} (h : ExtractFrame s t) : t.flagEncrypted = s.flagEncrypted := by
  simp only [State.flagEncrypted, State.hasFlag, h.flags]

theorem trans {s t u : State} (h : ExtractFrame s t) (g : ExtractFrame t u) : ExtractFrame s u where
  others := by
    have e := g.others
    rw [h.others] at e
    exact e
  dbuf_outside a ha := by rw [g.dbuf_outside a (by rw [h.csize]; exact ha), h.dbuf_outside a ha]
  obuf_outside a ha := by rw [g.obuf_outside a (by rw [h.usize]; exact ha), h.obuf_outside a ha]
  dbuf_plain e := by rw [g.dbuf_plain (by rw [h.flagEncrypted]; exact e), h.dbuf_plain e]
  dbuf_draw := g.dbuf_draw.trans h.dbuf_draw
  obuf_draw := g.obuf_draw.trans h.obuf_draw
  dbuf_wf e := g.dbuf_wf (h.dbuf_wf e)
  obuf_wf e := g.obuf_wf (h.obuf_wf e)
  dbuf_within n hn e := g.dbuf_within n (by rw [h.csize]; exact hn) (h.dbuf_within n hn e)
  obuf_within n hn e := g.obuf_within n (by rw [h.usize]; exact hn) (h.obuf_within n hn e)

end ExtractFrame

/-- A decryption pass over part of the region. -/
theorem State.decryptPass_frame (s : State) (key : Word) (off len : Nat) (h : off + len ≤ s.csize.toNat) :
    ExtractFrame s (s.decryptPass key off len) := by
  unfold State.decryptPass
  split
  · rename_i he
    exact
      { others := rfl
        dbuf_outside := fun a ha => crypt_read_outside _ _ _ _ _ _ _ (by omega)
        obuf_outside := fun _ _ => rfl
        dbuf_plain := fun e => by rw [e] at he; cases he
        dbuf_draw := crypt_draw ..
        obuf_draw := rfl
        dbuf_wf := crypt_wf _ _ _ _ _ _
        obuf_wf := id
        dbuf_within := fun n hn e => crypt_within _ _ _ _ _ _ _ e (by omega)
        obuf_within := fun _ _ e => e }
  · exact ExtractFrame.refl s

/-- Writing output bytes of the file. -/
theorem State.setObuf_frame (s : State) (a : Nat) (bs : List Byte) (h : bs = [] ∨ a + bs.length ≤ s.usize.toNat) :
    ExtractFrame s (s.setObuf (s.obuf.writeBytes a bs)) where
  others := rfl
  dbuf_outside _ _ := rfl
  obuf_outside x hx := by
    rcases h with rfl | h
    · rfl
    · exact s.obuf.read_writeBytes_outside _ _ _ (by omega)
  dbuf_plain _ := rfl
  dbuf_draw := rfl
  obuf_draw := s.obuf.writeBytes_draw _ _
  dbuf_wf e := e
  obuf_wf := s.obuf.wf_writeBytes _ _
  dbuf_within _ _ e := e
  obuf_within n hn e := s.obuf.within_writeBytes n _ _ e (h.imp_right (by omega))

theorem State.sectorSize_pos (s : State) : 0 < s.sectorSize := by
  unfold State.sectorSize Config.baseSector
  positivity

/-- A sector index below the count covers at least one byte (R146). -/
theorem State.lt_usize_of_lt_sectorCount (s : State) (i : Nat) (h : i < s.sectorCount) : i * s.sectorSize < s.usize.toNat := by
  have hp := s.sectorSize_pos
  unfold State.sectorCount ceilDiv at h
  have h1 : (i + 1) * s.sectorSize ≤ s.usize.toNat + s.sectorSize - 1 := (Nat.le_div_iff_mul_le hp).1 h
  rw [Nat.add_mul] at h1
  omega

/-- A stored sector that ends without a fault. -/
theorem storedSector_frame (i cur : Nat) (s t : State) (h : storedSector i cur s = .ok t) : ExtractFrame s t := by
  unfold storedSector at h
  split at h
  · cases h
  · rename_i hr
    injection h with h
    subst h
    apply s.setObuf_frame
    right
    have := s.sectorSize_pos
    rw [Memory.length_readBytes]
    unfold State.remaining at hr
    omega

/-- A packed sector that ends without a fault. -/
theorem packedSector_frame (i cur size : Nat) (s t : State) (h : packedSector i cur size s = .ok t) : ExtractFrame s t := by
  unfold packedSector at h
  split at h
  · cases h
  · split at h
    · cases h
    · rename_i r _
      injection h with h
      subst h
      apply s.setObuf_frame
      by_cases hz : s.remaining i = 0
      · left; rw [hz, List.take_zero]
      · right
        rw [List.length_take]
        unfold State.remaining at hz ⊢
        omega

/-- The extent tests pass exactly when the extent lies in the region and is at most a sector long (R157, R158). -/
theorem sectorFault_eq_none (s : State) (i cur nxt : Nat) :
    sectorFault s i cur nxt = none ↔ cur ≤ nxt ∧ nxt - cur ≤ s.sectorSize ∧ nxt ≤ s.csize.toNat := by
  unfold sectorFault
  repeat' split
  all_goals simp only [reduceCtorEq, false_iff, true_iff, not_and, not_le]
  all_goals omega

/-- One sector that ends without a fault. -/
theorem sector_frame (i : Nat) (s t : State) (h : sector i s = .ok t) : ExtractFrame s t := by
  unfold sector at h
  dsimp only at h
  split at h
  · cases h
  · rename_i hf
    rw [sectorFault_eq_none] at hf
    have hd := s.decryptPass_frame (s.sectorKey i) (s.tableOffset i) (s.tableOffset (i + 1) - s.tableOffset i) (by omega)
    split at h
    · exact hd.trans (storedSector_frame _ _ _ _ h)
    · exact hd.trans (packedSector_frame _ _ _ _ _ h)

/-- The sector loop, when no sector faults. -/
theorem sectors_frame (n i : Nat) (s t : State) (h : sectors n i s = .ok t) : ExtractFrame s t := by
  induction n generalizing i s with
  | zero => injection h with h; subst h; exact ExtractFrame.refl s
  | succ n ih =>
    unfold sectors at h
    split at h
    · cases h
    · rename_i u hu
      exact (sector_frame i s u hu).trans (ih _ _ h)

/-- The cipher passes of an unencrypted file change nothing (R153). -/
theorem State.decryptPass_plain (s : State) (key : Word) (off len : Nat) (h : s.flagEncrypted = false) :
    s.decryptPass key off len = s := by
  unfold State.decryptPass
  rw [h]
  rfl

/-- The cipher passes of an encrypted file are those of `DECRYPT` (R153). -/
theorem State.decryptPass_encrypted (s : State) (key : Word) (off len : Nat) (h : s.flagEncrypted = true) :
    s.decryptPass key off len = s.setDbuf (crypt s.table .dec key off len s.dbuf) := by
  unfold State.decryptPass
  rw [if_pos h]

/-- A sector whose extent passes the tests is deciphered, then copied or unpacked (R156). -/
theorem sector_of_extent (i : Nat) (s : State) (h : sectorFault s i (s.tableOffset i) (s.tableOffset (i + 1)) = none) :
    sector i s =
      if s.tableOffset (i + 1) - s.tableOffset i = s.sectorSize then
        storedSector i (s.tableOffset i)
          (s.decryptPass (s.sectorKey i) (s.tableOffset i) (s.tableOffset (i + 1) - s.tableOffset i))
      else
        packedSector i (s.tableOffset i) (s.tableOffset (i + 1) - s.tableOffset i)
          (s.decryptPass (s.sectorKey i) (s.tableOffset i) (s.tableOffset (i + 1) - s.tableOffset i)) := by
  unfold sector
  simp only [h]

/-- A run of sectors is a shorter run and the rest of it. -/
theorem sectors_add (k r i : Nat) (s : State) :
    sectors (k + r) i s = match sectors k i s with
      | .error e => .error e
      | .ok t => sectors r (i + k) t := by
  induction k generalizing i s with
  | zero => rw [Nat.zero_add]; rfl
  | succ k ih =>
    rw [show k + 1 + r = k + r + 1 by omega]
    simp only [sectors]
    cases sector i s with
    | error e => rfl
    | ok t => rw [show i + (k + 1) = i + 1 + k by omega]; exact ih (i + 1) t

/-- A run of raw chunks is a shorter run and the rest of it. -/
theorem rawChunks_add (k r i : Nat) (s : State) : rawChunks (k + r) i s = rawChunks r (i + k) (rawChunks k i s) := by
  induction k generalizing i s with
  | zero => rw [Nat.zero_add]; rfl
  | succ k ih =>
    rw [show k + 1 + r = k + r + 1 by omega, show i + (k + 1) = i + 1 + k by omega]
    exact ih (i + 1) (rawChunk i s)

/-- The commit point of the sectored path. -/
theorem State.openSectored_frame (s : State) (h : s.tableBytes ≤ s.csize.toNat) : ExtractFrame s s.openSectored := by
  unfold State.openSectored
  refine (s.setObuf_frame 0 (List.replicate s.usize.toNat 0) (.inr (by simp))).trans ?_
  exact State.decryptPass_frame _ _ _ _ (by simpa using h)

/-- One raw chunk of a file whose region is at least as long as the file. -/
theorem rawChunk_frame (i : Nat) (s : State) (hi : i * s.sectorSize < s.usize.toNat) (hc : s.usize.toNat ≤ s.csize.toNat) :
    ExtractFrame s (rawChunk i s) := by
  have hn : i * s.sectorSize + s.chunkSize i ≤ s.usize.toNat := by
    unfold State.chunkSize State.remaining
    omega
  unfold rawChunk
  have hd := s.decryptPass_frame (s.sectorKey i) (i * s.sectorSize) (s.chunkSize i) (by omega)
  refine hd.trans ?_
  apply State.setObuf_frame
  right
  rw [Memory.length_readBytes, hd.sectorSize, hd.usize]
  exact hn

/-- The raw loop. -/
theorem rawChunks_frame (n i : Nat) (s : State) (hi : i + n ≤ s.sectorCount) (hc : s.usize.toNat ≤ s.csize.toNat) :
    ExtractFrame s (rawChunks n i s) := by
  induction n generalizing i s with
  | zero => exact ExtractFrame.refl s
  | succ n ih =>
    have h1 := rawChunk_frame i s (s.lt_usize_of_lt_sectorCount i (by omega)) hc
    exact h1.trans (ih (i + 1) (rawChunk i s) (by rw [h1.sectorCount]; omega) (by rw [h1.usize, h1.csize]; exact hc))

end Sys2Proof.Machine
end

