-- ==== Sys2Proof/Laws/Hash.lean ====
section
/-! SUPPORT. The preprocessing, the pre-scan and the base name, each said once. -/

namespace Sys2Proof.Machine

@[simp] theorem length_prep (s : List Byte) : (prep s).length = s.length := by
  unfold prep replaceSlashes
  split <;> simp

/-- The pre-scan finds nothing exactly when every character is below `0x80` (R114). -/
theorem firstUnsupported_eq_none (i : Nat) (s : List Byte) : firstUnsupported i s = none ↔ ∀ c ∈ s, c < 0x80 := by
  induction s generalizing i with
  | nil => simp [firstUnsupported]
  | cons c rest ih =>
    simp only [firstUnsupported, List.mem_cons, forall_eq_or_imp]
    split
    · rename_i h
      simp only [reduceCtorEq, false_iff, not_and]
      intro h'
      exact absurd h (by simpa [BitVec.not_le] using h')
    · rename_i h
      rw [ih]
      simp only [BitVec.not_le] at h
      exact ⟨fun hr => ⟨h, hr⟩, fun hr => hr.2⟩

/-- The pre-scan reports the lowest index (R114). -/
theorem firstUnsupported_append (i : Nat) (pre : List Byte) (c : Byte) (post : List Byte) (hpre : ∀ x ∈ pre, x < 0x80)
    (hc : 0x80 ≤ c) : firstUnsupported i (pre ++ c :: post) = some (i + pre.length, c) := by
  induction pre generalizing i with
  | nil => simp only [List.nil_append, firstUnsupported, if_pos hc, List.length_nil, Nat.add_zero]
  | cons d rest ih =>
    have hd : ¬ (0x80 : Byte) ≤ d := by rw [BitVec.not_le]; exact hpre d List.mem_cons_self
    simp only [List.cons_append, firstUnsupported, hd, if_false, List.length_cons]
    rw [ih (i + 1) fun x hx => hpre x (List.mem_cons_of_mem _ hx)]
    congr 2
    omega

/-- What `Prep` does to one character: nothing it does moves a byte across `0x80`, and bytes from `0x80` on stay (R113). -/
theorem upperCase_lt (c : Byte) : upperCase c < 0x80 ↔ c < 0x80 := by
  revert c; decide

theorem upperCase_idem (c : Byte) : upperCase (upperCase c) = upperCase c := by
  revert c; decide

theorem upperCase_eq_slash (c : Byte) : upperCase c = slash ↔ c = slash := by
  revert c; decide

theorem upperCase_eq_backslash (c : Byte) : upperCase c = backslash ↔ c = backslash := by
  revert c; decide

theorem upperCase_of_ge (c : Byte) (h : 0x80 ≤ c) : upperCase c = c := by
  revert c; decide

/-- A name without separators is its own base name (R136). -/
theorem baseName_of_no_separator (s : List Byte) (h : ∀ c ∈ s, isSeparator c = false) : baseName s = s := by
  cases s with
  | nil => rfl
  | cons c rest =>
    have h1 : rest.any isSeparator = false := by
      simp only [List.any_eq_false]; intro x hx; simp [h x (List.mem_cons_of_mem _ hx)]
    simp [baseName, h1, h c List.mem_cons_self]

/-- The base name is what stands after the last separator (R136). -/
theorem baseName_append (pre : List Byte) (c : Byte) (base : List Byte) (hc : isSeparator c = true)
    (hb : ∀ x ∈ base, isSeparator x = false) : baseName (pre ++ c :: base) = base := by
  have h1 : base.any isSeparator = false := by
    simp only [List.any_eq_false]; intro x hx; simp [hb x hx]
  induction pre with
  | nil => simp [baseName, h1, hc]
  | cons d rest ih =>
    have h2 : (rest ++ c :: base).any isSeparator = true := by simp [hc]
    simp only [List.cons_append, baseName, h2, if_true, ih]

end Sys2Proof.Machine
end

