-- ==== Sys2Proof/Laws/Ops.lean ====
section
/-! SUPPORT. The status words of the ends, the information words as numbers, the flags as bits, and the operand tests as
inequalities: each shared operation said once. -/

namespace Sys2Proof.Machine

/-! ### Ends -/

@[simp] theorem statusWord_ok : statusWord Completion.ok.code false true = 0x00000001 := by decide
@[simp] theorem statusWord_notFound : statusWord Completion.notFound.code false true = 0x00000101 := by decide
@[simp] theorem statusWord_unsupportedFeature : statusWord EngineFault.unsupportedFeature.code true true = 0x00002003 := by decide
@[simp] theorem statusWord_unsupportedCompression :
    statusWord EngineFault.unsupportedCompression.code true true = 0x00002103 := by decide
@[simp] theorem statusWord_corruptArchive : statusWord EngineFault.corruptArchive.code true true = 0x00003003 := by decide
@[simp] theorem statusWord_unsupportedCharacter :
    statusWord EngineFault.unsupportedCharacter.code true true = 0x00004003 := by decide
@[simp] theorem statusWord_illegalCommand : statusWord EngineFault.illegalCommand.code true true = 0x00008003 := by decide
@[simp] theorem statusWord_illegalOperand : statusWord EngineFault.illegalOperand.code true true = 0x00008103 := by decide
@[simp] theorem statusWord_boundsFault : statusWord EngineFault.boundsFault.code true true = 0x00008203 := by decide
@[simp] theorem statusWord_codecFailure : statusWord EngineFault.codecFailure.code true true = 0x00008303 := by decide

/-! ### Information words -/

theorem toNat_shiftLeft_setWidth (hi : Byte) (k : Nat) (h : k ≤ 24) : ((hi.setWidth 32) <<< k : Word).toNat = hi.toNat * 2 ^ k := by
  have hb := hi.isLt
  have hk : 2 ^ k ≤ 2 ^ 24 := Nat.pow_le_pow_right (by decide) h
  have h2 : hi.toNat * 2 ^ k < 2 ^ 32 := by
    calc hi.toNat * 2 ^ k < 2 ^ 8 * 2 ^ k := (Nat.mul_lt_mul_right (by positivity)).2 hb
      _ ≤ 2 ^ 8 * 2 ^ 24 := Nat.mul_le_mul_left _ hk
      _ = 2 ^ 32 := by norm_num
  rw [BitVec.toNat_shiftLeft, BitVec.toNat_setWidth, Nat.shiftLeft_eq, Nat.mod_eq_of_lt (by omega : hi.toNat < 2 ^ 32),
    Nat.mod_eq_of_lt h2]

/-- `(hi << 24) OR x` is a sum when `x` fits 24 bits (R204). -/
theorem toNat_taggedInfo (hi : Byte) (x : Nat) (h : x < 2 ^ 24) : (taggedInfo hi x).toNat = hi.toNat * 2 ^ 24 + x := by
  unfold taggedInfo
  rw [BitVec.toNat_or, toNat_shiftLeft_setWidth hi 24 le_rfl, BitVec.toNat_ofNat, Nat.mod_eq_of_lt (by omega : x < 2 ^ 32),
    ← Nat.shiftLeft_eq, Nat.shiftLeft_add_eq_or_of_lt h]

/-- `(i << 8) OR ch`, truncated to 32 bits (R204). -/
theorem charInfo_eq (i : Nat) (ch : Byte) : charInfo i ch = BitVec.ofNat 32 (i * 256 + ch.toNat) := by
  have hc := ch.isLt
  unfold charInfo
  apply BitVec.eq_of_toNat_eq
  have e : ((BitVec.ofNat 32 i) <<< 8 : Word).toNat = (i % 2 ^ 24) <<< 8 := by
    rw [BitVec.toNat_shiftLeft, BitVec.toNat_ofNat, Nat.shiftLeft_eq, Nat.shiftLeft_eq]
    omega
  rw [BitVec.toNat_or, e, BitVec.toNat_setWidth, Nat.mod_eq_of_lt (by omega : ch.toNat < 2 ^ 32),
    ← Nat.shiftLeft_add_eq_or_of_lt hc, BitVec.toNat_ofNat, Nat.shiftLeft_eq]
  omega

/-! ### Flags -/

/-- `FLAGS.X` is a nonzero masked value (R88). -/
theorem State.hasFlag_iff (s : State) (mask : Word) : s.hasFlag mask = true ↔ s.flags &&& mask ≠ 0 := by
  simp [State.hasFlag]

/-- A flag whose mask is one bit is that bit (R88). -/
theorem State.hasFlag_twoPow (s : State) (k : Nat) (h : k < 32) : s.hasFlag (BitVec.twoPow 32 k) = s.flags.getLsbD k := by
  unfold State.hasFlag
  rw [BitVec.and_twoPow]
  split
  · rename_i hb
    rw [hb]
    have : BitVec.twoPow 32 k ≠ 0#32 := by
      intro e
      have := congrArg (fun x : BitVec 32 => x.getLsbD k) e
      simp [h] at this
    simpa using this
  · rename_i hb
    simp only [Bool.not_eq_true] at hb
    rw [hb]
    rfl

theorem State.flagExists_eq (s : State) : s.flagExists = s.flags.getLsbD 31 := s.hasFlag_twoPow 31 (by decide)
theorem State.flagEncrypted_eq (s : State) : s.flagEncrypted = s.flags.getLsbD 16 := s.hasFlag_twoPow 16 (by decide)
theorem State.flagEncryptionFix_eq (s : State) : s.flagEncryptionFix = s.flags.getLsbD 17 := s.hasFlag_twoPow 17 (by decide)
theorem State.flagSingleUnit_eq (s : State) : s.flagSingleUnit = s.flags.getLsbD 24 := s.hasFlag_twoPow 24 (by decide)
theorem State.flagHasCrc_eq (s : State) : s.flagHasCrc = s.flags.getLsbD 26 := s.hasFlag_twoPow 26 (by decide)
theorem State.flagCompressed_eq (s : State) : s.flagCompressed = s.flags.getLsbD 9 := s.hasFlag_twoPow 9 (by decide)
theorem State.flagImplode_eq (s : State) : s.flagImplode = s.flags.getLsbD 8 := s.hasFlag_twoPow 8 (by decide)

/-! ### Operand tests -/

theorem State.nameTooLong_iff (s : State) : s.nameTooLong = true ↔ s.geom.nameMax < s.nlen.toNat := by
  simp [State.nameTooLong]

theorem State.regionOverruns_iff (s : State) : s.regionOverruns = true ↔ s.geom.dbufSize < s.offset.toNat + s.length.toNat := by
  simp [State.regionOverruns]

theorem State.shiftTooLarge_iff (s : State) : s.shiftTooLarge = true ↔ 22 < s.sshift.toNat := by
  unfold State.shiftTooLarge
  exact decide_eq_true_iff

/-! ### The dispatcher -/

/-- A codec's result is never longer than the limit it was given (R183). -/
theorem Config.length_codec (c : Codec) (payload : List Byte) (limit : Nat) (r : List Byte)
    (h : Config.codec c payload limit = some r) : r.length ≤ limit := by
  unfold Config.codec at h
  cases hr : Config.rawCodec c payload limit with
  | none => simp [hr] at h
  | some q =>
    simp only [hr, Option.map_some, Option.some.injEq] at h
    rw [← h, List.length_take]
    omega

/-- What the dispatcher answers: an `Ok` result is a codec's, so at most `limit` long; an error is one of two causes (R181). -/
theorem dispatchTag_ok (tag : Byte) (payload : List Byte) (limit i : Nat) (r : List Byte)
    (h : dispatchTag tag payload limit i = .ok r) :
    r.length ≤ limit ∧ ∃ c, Config.codecOfTag tag = some c ∧ Config.codec c payload limit = some r := by
  unfold dispatchTag at h
  split at h
  · cases h
  · rename_i c hc
    split at h
    · cases h
    · rename_i q hq
      injection h with h
      subst h
      exact ⟨Config.length_codec _ _ _ _ hq, c, hc, hq⟩

theorem dispatchTag_error (tag : Byte) (payload : List Byte) (limit i : Nat) (e : Raised)
    (h : dispatchTag tag payload limit i = .error e) :
    (e.cause = .unsupportedCompression ∨ e.cause = .codecFailure) ∧ e.info = taggedInfo tag i := by
  unfold dispatchTag at h
  split at h
  · injection h with h; subst h; exact ⟨.inl rfl, rfl⟩
  · split at h
    · injection h with h; subst h; exact ⟨.inr rfl, rfl⟩
    · cases h

end Sys2Proof.Machine
end

