-- ==== Sys2Proof/Laws/Commands.lean ====
section
/-! SUPPORT. One inversion lemma a command: every way it can end. Statements about all ends of a command cite these and do not
unfold its definition. -/

namespace Sys2Proof.Machine

/-- Every way `HASH` can end (R215). -/
theorem hashCommand_cases (p : Purpose) (s : State) :
    hashCommand p s = raise ⟨.illegalOperand, registerInfo Config.offNlen⟩ s ∨
    (∃ i c, hashCommand p s = raise ⟨.unsupportedCharacter, charInfo i c⟩ s) ∨
    ∃ d, hashCommand p s = complete .ok (s.setResult d) := by
  unfold hashCommand
  split
  · exact .inl rfl
  · right
    unfold hashName digest
    split
    · rename_i h
      split at h
      · rename_i i c _
        injection h with h
        subst h
        exact .inl ⟨i, c, rfl⟩
      · cases h
    · exact .inr ⟨_, rfl⟩

/-- Every way `KEYGEN` can end (R215). -/
theorem keygenCommand_cases (s : State) :
    keygenCommand s = raise ⟨.illegalOperand, registerInfo Config.offNlen⟩ s ∨
    (∃ i c, keygenCommand s = raise ⟨.unsupportedCharacter, charInfo i c⟩ s) ∨
    ∃ k, keygenCommand s = complete .ok (s.setKeyResult k) := by
  unfold keygenCommand
  split
  · exact .inl rfl
  · right
    unfold hashName digest
    split
    · rename_i h
      split at h
      · rename_i i c _
        injection h with h
        subst h
        exact .inl ⟨i, c, rfl⟩
      · cases h
    · exact .inr ⟨_, rfl⟩

/-- Every way `DECRYPT` and `ENCRYPT` can end (R215). -/
theorem cryptCommand_cases (dir : Direction) (s : State) :
    cryptCommand dir s = raise ⟨.boundsFault, registerInfo Config.offOffset⟩ s ∨
    (s.offset.toNat + s.length.toNat ≤ s.geom.dbufSize ∧
      cryptCommand dir s = complete .ok (s.setDbuf (crypt s.table dir s.key s.offset.toNat s.length.toNat s.dbuf))) := by
  unfold cryptCommand
  split
  · exact .inl rfl
  · rename_i h
    rw [s.regionOverruns_iff] at h
    exact .inr ⟨by omega, rfl⟩

/-- Every way `DECOMP` can end (R215). -/
theorem decompCommand_cases (s : State) :
    (∃ r : Raised, r.cause ∈ [EngineFault.illegalOperand, .boundsFault, .unsupportedCompression, .codecFailure] ∧
      decompCommand s = raise r s) ∨
    ∃ bs : List Byte, s.sshift.toNat ≤ 22 ∧ bs.length ≤ s.sectorSize ∧ bs.length ≤ s.geom.obufSize ∧
      decompCommand s = complete .ok ((s.setObuf (s.obuf.writeBytes 0 bs)).setOlen (BitVec.ofNat 32 bs.length)) := by
  unfold decompCommand
  split
  · exact .inl ⟨_, by simp, rfl⟩
  rename_i hs
  rw [s.shiftTooLarge_iff] at hs
  split
  · exact .inl ⟨_, by simp, rfl⟩
  split
  · exact .inl ⟨_, by simp, rfl⟩
  dsimp only
  split
  · rename_i e he
    refine .inl ⟨e, ?_, rfl⟩
    rcases (dispatchTag_error _ _ _ _ _ he).1 with h | h <;> simp [h]
  · rename_i bs hb
    have hl := (dispatchTag_ok _ _ _ _ _ hb).1
    unfold storeResult
    split
    · exact .inl ⟨_, by simp, rfl⟩
    · exact .inr ⟨bs, by omega, hl, by omega, rfl⟩

/-- The causes past the commit point (R163). -/
theorem sector_error (i : Nat) (s : State) (r : Raised) (h : sector i s = .error r) :
    r.cause ∈ [EngineFault.corruptArchive, .boundsFault, .unsupportedCompression, .codecFailure] := by
  unfold sector at h
  dsimp only at h
  split at h
  · rename_i e he
    injection h with h
    subst h
    unfold sectorFault at he
    repeat' split at he
    all_goals first
      | (injection he with he; subst he; simp)
      | cases he
  · split at h
    · unfold storedSector at h
      split at h
      · injection h with h; subst h; simp
      · cases h
    · unfold packedSector at h
      split at h
      · injection h with h; subst h; simp
      · split at h
        · rename_i e he
          injection h with h
          subst h
          rcases (dispatchTag_error _ _ _ _ _ he).1 with h | h <;> simp [h]
        · cases h

theorem sectors_error (n i : Nat) (s : State) (r : Raised) (h : sectors n i s = .error r) :
    r.cause ∈ [EngineFault.corruptArchive, .boundsFault, .unsupportedCompression, .codecFailure] := by
  induction n generalizing i s with
  | zero => cases h
  | succ n ih =>
    unfold sectors at h
    split at h
    · rename_i e he
      injection h with h
      subst h
      exact sector_error _ _ _ he
    · exact ih _ _ h

/-- What holds of a record once every entry test of `EXTRACT` has passed (R145). -/
structure State.Enters (s : State) : Prop where
  shift : s.shiftTooLarge = false
  existing : s.flagExists = true
  archived : s.csize ≠ 0
  size : ¬ s.usize ≤ 1
  supported : (s.flagSingleUnit || s.flagHasCrc) = false
  region_fits : s.csize.toNat ≤ s.geom.dbufSize
  file_fits : s.usize.toNat ≤ s.geom.obufSize

/-- Past the entry tests the flags select the path (R154). -/
theorem extractCommand_of_enters (s : State) (h : s.Enters) :
    extractCommand s = if s.flagCompressed || s.flagImplode then extractSectored s else extractRaw s := by
  unfold extractCommand
  rw [if_neg (by rw [h.shift]; decide), if_neg (by rw [h.existing]; decide), if_neg h.archived, if_neg h.size,
    if_neg (by rw [h.supported]; decide), if_neg (Nat.not_lt.2 h.region_fits), if_neg (Nat.not_lt.2 h.file_fits)]

/-- Every way the entry tests of `EXTRACT` can end it, or the record passes them all (R145). -/
theorem extractCommand_entry (s : State) :
    (∃ r : Raised, r.cause ∈ [EngineFault.illegalOperand, .unsupportedFeature, .boundsFault] ∧ extractCommand s = raise r s) ∨
    extractCommand s = complete .notFound (s.setOlen 0) ∨
    extractCommand s = complete .ok (s.setOlen 0) ∨
    extractCommand s = complete .ok ((s.setObuf (s.obuf.write 0 0x00)).setOlen 1) ∨
    s.Enters := by
  by_cases h1 : s.shiftTooLarge = true
  · refine .inl ⟨_, ?_, by unfold extractCommand; rw [if_pos h1]⟩
    simp
  by_cases h2 : (!s.flagExists) = true
  · exact .inr (.inl (by unfold extractCommand; rw [if_neg h1, if_pos h2]))
  by_cases h3 : s.csize = 0
  · exact .inr (.inr (.inl (by unfold extractCommand; rw [if_neg h1, if_neg h2, if_pos h3])))
  by_cases h4 : s.usize ≤ 1
  · exact .inr (.inr (.inr (.inl (by unfold extractCommand; rw [if_neg h1, if_neg h2, if_neg h3, if_pos h4]))))
  by_cases h5 : (s.flagSingleUnit || s.flagHasCrc) = true
  · refine .inl ⟨_, ?_, by unfold extractCommand; rw [if_neg h1, if_neg h2, if_neg h3, if_neg h4, if_pos h5]⟩
    simp
  by_cases h6 : s.geom.dbufSize < s.csize.toNat
  · refine .inl ⟨_, ?_, by unfold extractCommand; rw [if_neg h1, if_neg h2, if_neg h3, if_neg h4, if_neg h5, if_pos h6]⟩
    simp
  by_cases h7 : s.geom.obufSize < s.usize.toNat
  · refine .inl ⟨_, ?_, by
      unfold extractCommand
      rw [if_neg h1, if_neg h2, if_neg h3, if_neg h4, if_neg h5, if_neg h6, if_pos h7]⟩
    simp
  · exact .inr (.inr (.inr (.inr
      ⟨by simpa using h1, by simpa using h2, h3, h4, by simpa using h5, Nat.not_lt.1 h6, Nat.not_lt.1 h7⟩)))

/-- Every way the sectored path can end (R155, R163). -/
theorem extractSectored_cases (s : State) :
    extractSectored s = raise ⟨.boundsFault, taggedInfo 1 0⟩ s ∨
    (s.tableBytes ≤ s.csize.toNat ∧ ∃ r : Raised,
      r.cause ∈ [EngineFault.corruptArchive, .boundsFault, .unsupportedCompression, .codecFailure] ∧
      extractSectored s = raise r s.spoilBuffers) ∨
    (s.tableBytes ≤ s.csize.toNat ∧ ∃ t, ExtractFrame s t ∧ sectors s.sectorCount 0 s.openSectored = .ok t ∧
      extractSectored s = complete .ok (t.setOlen t.usize)) := by
  unfold extractSectored
  split
  · exact .inl rfl
  · rename_i h
    rw [Nat.not_lt] at h
    right
    split
    · rename_i r hr
      exact .inl ⟨h, r, sectors_error _ _ _ _ hr, rfl⟩
    · rename_i t ht
      exact .inr ⟨h, t, (s.openSectored_frame h).trans (sectors_frame _ _ _ _ ht), ht, rfl⟩

/-- Every way the raw path can end (R161). -/
theorem extractRaw_cases (s : State) :
    extractRaw s = raise ⟨.boundsFault, taggedInfo 5 0⟩ s ∨
    (s.usize.toNat ≤ s.csize.toNat ∧ ∃ t, ExtractFrame s t ∧ t = rawChunks s.sectorCount 0 s ∧
      extractRaw s = complete .ok (t.setOlen t.usize)) := by
  unfold extractRaw
  split
  · exact .inl rfl
  · rename_i h
    rw [Nat.not_lt] at h
    exact .inr ⟨h, _, rawChunks_frame _ _ _ (by omega) h, rfl, rfl⟩

end Sys2Proof.Machine
end

