-- ==== Sys2Proof/Laws/HostPort.lean ====
section
/-! SUPPORT. What one step can do, move by move: proofs about runs cite these and do not unfold the step. -/

namespace Sys2Proof.Machine

/-- With a move to make, a step is that move, on the state without it. -/
theorem step_cons (s : State) (a : HostAccess) (rest : List HostAccess) (h : s.script = a :: rest) :
    step s = hostAccess a { s with script := rest } := by
  unfold step nextMove
  rw [h]
  rfl

/-- With no move to make, the state stays (R227). -/
theorem step_nil (s : State) (h : s.script = []) : step s = .next s := by
  unfold step nextMove
  rw [h]

/-- A `CMD` write of a legal word runs its command (R84). -/
theorem issueCommand_of_decode (w : Word) (i : Instr) (s : State) (h : decode w = .ok i) : issueCommand w s = exec i s := by
  unfold issueCommand
  rw [h]

/-- An access inside a buffer misses no address. -/
theorem State.missingAddress_eq_none (s : State) (space : Space) (addr n : Nat) (h : addr + n ≤ s.capacity space) :
    s.missingAddress space addr n = none := if_pos (.inr h)

/-- The first address an access misses. -/
theorem State.missingAddress_eq_some (s : State) (space : Space) (addr n : Nat) (hn : n ≠ 0) (h : s.capacity space < addr + n) :
    s.missingAddress space addr n = some (max addr (s.capacity space)) := if_neg (by omega)

/-- A host read at an offset that is no register's, or of `CMD`, returns 0 (R27, R31). -/
theorem regRead_reserved (s : State) (offset : Nat)
    (h : offset ∉ [0x04, 0x08, 0x0C, 0x10, 0x14, 0x18, 0x1C, 0x20, 0x24, 0x28, 0x2C, 0x30, 0x34]) : regRead s offset = 0 := by
  simp only [List.mem_cons, List.not_mem_nil, or_false, not_or] at h
  obtain ⟨h1, h2, h3, h4, h5, h6, h7, h8, h9, h10, h11, h12, h13⟩ := h
  unfold regRead
  exact (if_neg h1).trans <| (if_neg h2).trans <| (if_neg h3).trans <| (if_neg h4).trans <| (if_neg h5).trans <|
    (if_neg h6).trans <| (if_neg h7).trans <| (if_neg h8).trans <| (if_neg h9).trans <| (if_neg h10).trans <|
    (if_neg h11).trans <| (if_neg h12).trans (if_neg h13)

/-- A host write at an offset that is no operand register's changes nothing (R23, R25, R26, R31). -/
theorem regWrite_ignored (s : State) (offset : Nat) (v : Word)
    (h : offset ∉ [0x14, 0x18, 0x1C, 0x20, 0x24, 0x28, 0x2C, 0x30, 0x34]) : regWrite s offset v = s := by
  simp only [List.mem_cons, List.not_mem_nil, or_false, not_or] at h
  obtain ⟨h1, h2, h3, h4, h5, h6, h7, h8, h9⟩ := h
  unfold regWrite
  exact (if_neg h1).trans <| (if_neg h2).trans <| (if_neg h3).trans <| (if_neg h4).trans <| (if_neg h5).trans <|
    (if_neg h6).trans <| (if_neg h7).trans <| (if_neg h8).trans (if_neg h9)

/-- A host write to an operand register changes operand registers only. -/
theorem regWrite_others (s : State) (offset : Nat) (v : Word) :
    regWrite s offset v =
      { s with
        key := (regWrite s offset v).key
        offset := (regWrite s offset v).offset
        length := (regWrite s offset v).length
        nlen := (regWrite s offset v).nlen
        boff := (regWrite s offset v).boff
        csize := (regWrite s offset v).csize
        usize := (regWrite s offset v).usize
        flags := (regWrite s offset v).flags
        sshift := (regWrite s offset v).sshift } := by
  unfold regWrite
  repeat' split
  all_goals rfl

/-- Every way a move can end in a next state. -/
theorem hostAccess_next (a : HostAccess) (s t : State) (h : hostAccess a s = .next t) :
    (∃ off size v, a = .regWrite off size v ∧ off = Config.offCmd ∧ wordAligned off size = true ∧ issueCommand v s = .next t) ∨
    (∃ off size v, a = .regWrite off size v ∧ off ≠ Config.offCmd ∧ wordAligned off size = true ∧ t = regWrite s off v) ∨
    (∃ off size, a = .regRead off size ∧ wordAligned off size = true ∧ t = s.pushReply (.word (regRead s off))) ∨
    (∃ space addr bytes, a = .bufWrite space addr bytes ∧ s.missingAddress space addr bytes.length = none ∧
      t = s.setBuffer space ((s.buffer space).writeBytes addr bytes)) ∨
    (∃ space addr n, a = .bufRead space addr n ∧ s.missingAddress space addr n = none ∧
      t = s.pushReply (.bytes ((s.buffer space).readBytes addr n))) ∨
    (a = .reset ∧ t = s.pulseReset) := by
  cases a with
  | regWrite off size v =>
    simp only [hostAccess] at h
    split at h
    · cases h
    · rename_i hw
      rw [Bool.not_eq_true, Bool.not_eq_false'] at hw
      split at h
      · rename_i h0
        exact .inl ⟨off, size, v, rfl, h0, hw, h⟩
      · rename_i h0
        injection h with h
        exact .inr (.inl ⟨off, size, v, rfl, h0, hw, h.symm⟩)
  | regRead off size =>
    simp only [hostAccess] at h
    split at h
    · cases h
    · rename_i hw
      rw [Bool.not_eq_true, Bool.not_eq_false'] at hw
      injection h with h
      exact .inr (.inr (.inl ⟨off, size, rfl, hw, h.symm⟩))
  | bufWrite space addr bytes =>
    simp only [hostAccess] at h
    split at h
    · cases h
    · rename_i hm
      injection h with h
      exact .inr (.inr (.inr (.inl ⟨space, addr, bytes, rfl, hm, h.symm⟩)))
  | bufRead space addr n =>
    simp only [hostAccess] at h
    split at h
    · cases h
    · rename_i hm
      injection h with h
      exact .inr (.inr (.inr (.inr (.inl ⟨space, addr, n, rfl, hm, h.symm⟩))))
  | reset =>
    injection h with h
    exact .inr (.inr (.inr (.inr (.inr ⟨rfl, h.symm⟩))))

end Sys2Proof.Machine
end

