-- ==== Sys2Proof/Laws/PerInstr.lean ====
section
/-! SUPPORT. What holds of every command as syntax, one lemma for each. -/

namespace Sys2Proof.Laws

/-- The fields of a command's word are the command's opcode, its purpose and zeros, and they are legal (R81, R82). -/
def EncodedFields.Statement (i : Instr) : Prop :=
  CommandFields.ofWord (encode i) = { opcode := i.opcode, purpose := i.purposeField, reserved := 0 } ∧
  (CommandFields.ofWord (encode i)).wellFormed = true

theorem EncodedFields.hashA : EncodedFields.Statement .hashA := ⟨by decide, by decide⟩
theorem EncodedFields.hashB : EncodedFields.Statement .hashB := ⟨by decide, by decide⟩
theorem EncodedFields.hashK : EncodedFields.Statement .hashK := ⟨by decide, by decide⟩
theorem EncodedFields.decrypt : EncodedFields.Statement .decrypt := ⟨by decide, by decide⟩
theorem EncodedFields.encrypt : EncodedFields.Statement .encrypt := ⟨by decide, by decide⟩
theorem EncodedFields.keygen : EncodedFields.Statement .keygen := ⟨by decide, by decide⟩
theorem EncodedFields.extract : EncodedFields.Statement .extract := ⟨by decide, by decide⟩
theorem EncodedFields.decomp : EncodedFields.Statement .decomp := ⟨by decide, by decide⟩

end Sys2Proof.Laws
end

