-- ==== Sys2Proof/Tests/Slice0.lean ====
section
/-! SUPPORT. Small checks of the model against numbers the spec gives (`spec/95_test_vectors.md`), the refusals of the
well-formedness checks, and one witness for each statement that has hypotheses. -/

namespace Sys2Proof.Tests

open Sys2Proof.Machine

/-! ### Well-formedness: each check refuses an ill-formed term -/

theorem test_reserved_bits_refused : (CommandFields.mk 0x05 0 1).wellFormed = false := by decide
theorem test_unknown_opcode_refused : (CommandFields.mk 0x07 0 0).wellFormed = false := by decide
theorem test_opcode_zero_refused : (CommandFields.mk 0x00 0 0).wellFormed = false := by decide
theorem test_hash_purpose_zero_refused : (CommandFields.mk 0x01 0 0).wellFormed = false := by decide
theorem test_other_purpose_refused : (CommandFields.mk 0x02 1 0).wellFormed = false := by decide
theorem test_misaligned_access_refused : (HostAccess.regRead 0x06 4).wellFormed = false := by decide
theorem test_narrow_access_refused : (HostAccess.regWrite 0x14 2 0).wellFormed = false := by decide
theorem test_legal_fields_accepted : (CommandFields.mk 0x01 3 0).wellFormed = true := by decide
theorem test_aligned_access_accepted : (HostAccess.regWrite 0x14 4 0).wellFormed = true := by decide
theorem test_commands_well_formed : ∀ i ∈ [Instr.hashA, .hashB, .hashK, .decrypt, .encrypt, .keygen, .extract, .decomp],
    i.wellFormed = true := by decide

/-! ### Decoding: every row's word, written bit by bit from R81 and R82 (reserved, purpose, opcode) -/

theorem test_decode_hashA : decode 0b0000000000000000000000_01_00000001 = .ok .hashA := by decide
theorem test_decode_hashB : decode 0b0000000000000000000000_10_00000001 = .ok .hashB := by decide
theorem test_decode_hashK : decode 0b0000000000000000000000_11_00000001 = .ok .hashK := by decide
theorem test_decode_decrypt : decode 0b0000000000000000000000_00_00000010 = .ok .decrypt := by decide
theorem test_decode_encrypt : decode 0b0000000000000000000000_00_00000011 = .ok .encrypt := by decide
theorem test_decode_keygen : decode 0b0000000000000000000000_00_00000100 = .ok .keygen := by decide
theorem test_decode_extract : decode 0b0000000000000000000000_00_00000101 = .ok .extract := by decide
theorem test_decode_decomp : decode 0b0000000000000000000000_00_00000110 = .ok .decomp := by decide
theorem test_decode_table_word : decodeTableWord 32 0x00000301 = some .hashK ∧ decodeTableWord 32 0x00000401 = none := by decide

/-! ### Small states -/

/-- A legal choice of the three capacities (V-H6, V-C9). -/
def geometry : Geometry := { nameMax := 260, dbufSize := 65536, obufSize := 65536 }

/-- The reset state of an engine with these capacities. -/
def base : State := { State.reset with geom := geometry }

/-- Bytes stored from address 0 on. -/
def stored (bs : List Byte) : Memory := ({ cells := [], draw := 0 } : Memory).writeBytes 0 bs

/-- A name in `NBUF`. -/
def named (n : List Byte) : State := { base with nbuf := stored n, nlen := BitVec.ofNat 32 n.length }

/-- A region in `DBUF` for the cipher, and its key. -/
def region (key off len : Word) (bs : List Byte) : State :=
  { base with dbuf := stored bs, key := key, offset := off, length := len }

/-- A file to extract, in sectors of 512 bytes. -/
def file (flags csize usize : Word) (bs : List Byte) : State :=
  { base with dbuf := stored bs, flags := flags, csize := csize, usize := usize }

/-- An engine with one move to make, and a second one after it. -/
def moving (a : HostAccess) : State := { base with script := [a, .reset] }

/-- `test.txt`. -/
def testTxt : List Byte := [0x74, 0x65, 0x73, 0x74, 0x2E, 0x74, 0x78, 0x74]

/-! ### Commands against the vectors -/

/-- V-H1 row 2. -/
theorem test_hashA : (hashCommand .hashA (named [0x41])).result = 0x8BB369CA := by decide +kernel
/-- V-H5: index 2, byte `0xE9`. -/
theorem test_hashA_unsupported : (hashCommand .hashA (named [0x61, 0x62, 0xE9])).einfo = 0x000002E9 := by decide
/-- V-H1 row 3: lower case. -/
theorem test_hashB : (hashCommand .hashB (named [0x61])).result = 0x1D93CC30 := by decide +kernel
/-- V-H1 rows 11 and 12: a name with both slashes keeps its `/`. -/
theorem test_hashB_both_slashes : prep [0x61, 0x2F, 0x62, 0x5C, 0x63] = [0x41, 0x2F, 0x42, 0x5C, 0x43] := by decide
/-- V-H1 row 14. -/
theorem test_hashK : (hashCommand .tableKey (named testTxt)).result = 0x82C45239 := by decide +kernel
/-- V-C2. -/
theorem test_encrypt :
    (cryptCommand .enc (region 0xC3AF3770 0 8 [0x41, 0x42, 0x43, 0x44, 0x45, 0x46, 0x47, 0x48])).dbuf.readBytes 0 8 =
      [0x8D, 0x8D, 0x7F, 0xC2, 0x5C, 0x2F, 0x57, 0xE4] := by decide +kernel
/-- V-C3: a remainder of two bytes stays. -/
theorem test_encrypt_remainder :
    (cryptCommand .enc (region 0x12345678 0 10 [1, 2, 3, 4, 5, 6, 7, 8, 9, 10])).dbuf.readBytes 0 10 =
      [0x13, 0xC2, 0x17, 0x2F, 0x71, 0x96, 0xF4, 0x8A, 9, 10] := by decide +kernel
/-- V-C6: the directions differ from the second word on. -/
theorem test_decrypt :
    (cryptCommand .dec (region 0 0 8 [0, 0, 0, 0, 0, 0, 0, 0])).dbuf.readBytes 0 8 =
      [0x86, 0x95, 0x29, 0x08, 0x96, 0x1E, 0xC9, 0x31] := by decide +kernel
/-- V-C9: the sum is not wrapped. -/
theorem test_decrypt_bounds : (cryptCommand .dec (region 0 0xFFFFFFFF 2 [])).status = 0x00008203 := by decide
/-- V-K4: the sum wraps before the exclusive-or. -/
theorem test_keygen_fix : adjustKey 0x7D7B21D3 0xFFFFFFF0 0x00001234 = 0x7D7B33F7 := by decide
/-- V-K7: the byte above `0x7F` is in the stripped prefix. -/
theorem test_keygen : (keygenCommand (named (0xC9 :: 0x5C :: testTxt))).key = 0x82C45239 := by decide +kernel
/-- V-X3: `nxt` below `cur`. -/
theorem test_extract_corrupt :
    (extractCommand (file 0x80000200 16 20 [8, 0, 0, 0, 4, 0, 0, 0])).einfo = 0x01000000 := by decide
/-- V-X15: a raw encrypted file of ten bytes. -/
theorem test_extract_raw_encrypted :
    (extractCommand { file 0x80010000 10 10 [0xD7, 0x1E, 0xCF, 0xAF, 0x8D, 0x4E, 0x15, 0xAE, 0x38, 0x39] with
      key := 0x7D7B33F7 }).obuf.readBytes 0 10 =
      [0x30, 0x31, 0x32, 0x33, 0x34, 0x35, 0x36, 0x37, 0x38, 0x39] := by decide +kernel
/-- R182: an unknown tag. -/
theorem test_decomp_unknown_tag : (decompCommand (region 0 0 2 [0x12, 0x00])).einfo = 0x12000000 := by decide
/-- R180: the limit of the shift. -/
theorem test_decomp_shift : (decompCommand { base with sshift := 23, length := 1 }).einfo = 0x00000034 := by decide
/-- The host's next move is the command that `withFetchWord` places. -/
theorem test_fetch : (base.withFetchWord 32 0x00000001).script = [.regWrite 0 4 0x00000001] := by decide
/-- An overwritten byte and one below it: the cells stay in rising order. -/
theorem test_memory_canonical : (((stored [7, 8]).write 5 9).write 1 3).cells = [(0, 7), (1, 3), (5, 9)] := by decide

/-! ### Witnesses: for each statement with hypotheses, states and operands that meet all of them -/

theorem witness_DecodeAndEncodeAgreeOnEveryWord :
    (CommandFields.ofWord 0x00000301).wellFormed = true ∧ (CommandFields.ofWord 0x00000401).wellFormed = false := by decide

theorem witness_StepRunsTheDecodedCommand :
    (moving (.regWrite 0x00 4 0x00000005)).script = .regWrite 0x00 4 0x00000005 :: [.reset] ∧
    decode 0x00000005 = .ok .extract ∧ Instr.extract.wellFormed = true := by decide

theorem witness_IllegalWordRaisesIllegalCommand :
    (moving (.regWrite 0x00 4 0x00000102)).script = .regWrite 0x00 4 0x00000102 :: [.reset] ∧
    (0x00000102 : Word) ∉
      ([0x00000101, 0x00000201, 0x00000301, 0x00000002, 0x00000003, 0x00000004, 0x00000005, 0x00000006] : List Word) := by
  decide

/-- An ordinary operand register, and `SSHIFT` with a value wider than its 16 bits. -/
theorem witness_OperandRegisterWriteThenRead :
    (0x14 ∈ Spec.operandOffsets ∧ ({ base with script := [.regWrite 0x14 4 7, .regRead 0x14 4] } : State).script =
      .regWrite 0x14 4 7 :: .regRead 0x14 4 :: []) ∧
    (0x34 ∈ Spec.operandOffsets ∧ ({ base with script := [.regWrite 0x34 4 0x12345, .regRead 0x34 4] } : State).script =
      .regWrite 0x34 4 0x12345 :: .regRead 0x34 4 :: []) := by decide

/-- `CMD`, the last register and the first reserved offset. -/
theorem witness_RegisterReadReturnsTheValueOnly :
    ∀ off ∈ [0x00, 0x34, 0x38], off % 4 = 0 ∧ (moving (.regRead off 4)).script = .regRead off 4 :: [.reset] := by decide

/-- The first and last read-only register and the first reserved offset. -/
theorem witness_WritesToReadOnlyAndReservedAreIgnored :
    ∀ off ∈ [0x04, 0x10, 0x38], off % 4 = 0 ∧ (off ∈ [0x04, 0x08, 0x0C, 0x10] ∨ 0x38 ≤ off) ∧
      (moving (.regWrite off 4 5)).script = .regWrite off 4 5 :: [.reset] := by decide

/-- A misaligned write and a narrow read. -/
theorem witness_MisalignedOrNarrowRegisterAccessIsRefused :
    (¬ (0x16 % 4 = 0 ∧ 4 = 4) ∧ (moving (.regWrite 0x16 4 0)).script = .regWrite 0x16 4 0 :: [.reset]) ∧
    (¬ (0x14 % 4 = 0 ∧ 2 = 4) ∧ (moving (.regRead 0x14 2)).script = .regRead 0x14 2 :: [.reset]) := by decide

/-- Up to the last byte of the buffer. -/
theorem witness_HostBufferWriteLandsByteForByte :
    (moving (.bufWrite .nbuf 258 [1, 2])).script = .bufWrite .nbuf 258 [1, 2] :: [.reset] ∧
    258 + ([1, 2] : List Byte).length ≤ (moving (.bufWrite .nbuf 258 [1, 2])).capacity .nbuf := by decide

theorem witness_HostBufferReadReturnsTheBytes :
    (moving (.bufRead .obuf 65535 1)).script = .bufRead .obuf 65535 1 :: [.reset] ∧
    65535 + 1 ≤ (moving (.bufRead .obuf 65535 1)).capacity .obuf := by decide

/-- A write that runs over the end, and a read that starts beyond it. -/
theorem witness_HostAccessBeyondABufferFaults :
    ((moving (.bufWrite .nbuf 259 [1, 2])).script = .bufWrite .nbuf 259 [1, 2] :: [.reset] ∧ 2 = ([1, 2] : List Byte).length ∧
      0 < 2 ∧ (moving (.bufWrite .nbuf 259 [1, 2])).capacity .nbuf < 259 + 2) ∧
    ((moving (.bufRead .dbuf 65536 1)).script = .bufRead .dbuf 65536 1 :: [.reset] ∧ 0 < 1 ∧
      (moving (.bufRead .dbuf 65536 1)).capacity .dbuf < 65536 + 1) := by decide

/-- The moves of this state's script exist, the next one a buffer write up to the last byte. -/
theorem witness_ExistingMovesNeverStop (a : HostAccess) (rest : List HostAccess)
    (h : (moving (.bufWrite .nbuf 258 [1, 2])).script = a :: rest) :
    (moving (.bufWrite .nbuf 258 [1, 2])).moveExists a = true := by
  injection h with h _
  subst h
  decide

theorem witness_ResetMoveResetsTheEngine : (moving .reset).script = .reset :: [.reset] := by decide

theorem witness_CipherTableSlotsAreTheInterleavedDraws : (0 < 256 ∧ 0 < 5) ∧ (255 < 256 ∧ 4 < 5) := by decide

/-- A step that is no reset, and a reset. -/
theorem witness_NoStepChangesTheCipherTable :
    (∃ t, step base = .next t ∧ base.script.head? ≠ some .reset) ∧ ∃ t, step (moving .reset) = .next t :=
  ⟨⟨base, rfl, by decide⟩, ⟨_, rfl⟩⟩

theorem witness_HashCommandsWriteTheDigest :
    ∀ ip ∈ [(Instr.hashA, 1), (Instr.hashB, 2), (Instr.hashK, 3)],
      (ip.1, ip.2) ∈ [(Instr.hashA, 1), (Instr.hashB, 2), (Instr.hashK, 3)] ∧
      (named [0x41, 0x7F]).nlen.toNat ≤ (named [0x41, 0x7F]).geom.nameMax ∧
      ∀ c ∈ Spec.name (named [0x41, 0x7F]), c.toNat < 0x80 := by decide

/-- V-H5: the third byte is the first at or above `0x80`. -/
theorem witness_HashReportsTheFirstUnsupportedCharacter :
    Instr.hashA ∈ [Instr.hashA, .hashB, .hashK] ∧
    (named [0x61, 0x62, 0x80, 0xFF]).nlen.toNat ≤ (named [0x61, 0x62, 0x80, 0xFF]).geom.nameMax ∧
    Spec.name (named [0x61, 0x62, 0x80, 0xFF]) = [0x61, 0x62] ++ 0x80 :: [0xFF] ∧
    (∀ x ∈ ([0x61, 0x62] : List Byte), x.toNat < 0x80) ∧ 0x80 ≤ (0x80 : Byte).toNat := by decide

theorem witness_OverlongNameRaisesIllegalOperand :
    ∀ i ∈ [Instr.hashA, .hashB, .hashK, .keygen], i ∈ [Instr.hashA, .hashB, .hashK, .keygen] ∧
      ({ base with nlen := 261 } : State).geom.nameMax < ({ base with nlen := 261 } : State).nlen.toNat := by decide

theorem witness_DigestIgnoresCaseAndSlashStyle : (0x5C : Byte) ∉ ([0x61, 0x2F, 0x62] : List Byte) := by decide

/-- Two states with one name, different keys and different bytes after the name. -/
theorem witness_HashSeesOnlyTheName :
    Instr.hashB ∈ [Instr.hashA, .hashB, .hashK] ∧ (named [0x41]).nlen = ({ named [0x41] with key := 7 } : State).nlen ∧
    (named [0x41]).geom.nameMax = ({ named [0x41] with key := 7 } : State).geom.nameMax ∧
    (named [0x41]).table = ({ named [0x41] with key := 7 } : State).table ∧
    ∀ a, a < (named [0x41]).nlen.toNat →
      (named [0x41]).nbuf.read a = ({ named [0x41] with key := 7, nbuf := stored [0x41, 9] } : State).nbuf.read a := by
  refine ⟨by decide, rfl, rfl, rfl, ?_⟩
  decide

/-- A region of two words and a remainder, ending at the last byte of `DBUF`. -/
theorem witness_DecryptDeciphersTheWholeWords :
    (region 5 65526 10 []).offset.toNat + (region 5 65526 10 []).length.toNat ≤ (region 5 65526 10 []).geom.dbufSize := by
  decide

theorem witness_EncryptEnciphersTheWholeWords :
    (region 5 65526 10 []).offset.toNat + (region 5 65526 10 []).length.toNat ≤ (region 5 65526 10 []).geom.dbufSize := by
  decide

theorem witness_CipherRoundTripRestoresDbuf :
    ∀ ij ∈ [(Instr.encrypt, Instr.decrypt), (.decrypt, .encrypt)],
      (ij.1, ij.2) ∈ [(Instr.encrypt, Instr.decrypt), (.decrypt, .encrypt)] ∧
      (region 5 1 10 [1, 2, 3]).offset.toNat + (region 5 1 10 [1, 2, 3]).length.toNat ≤ (region 5 1 10 [1, 2, 3]).geom.dbufSize := by
  decide

/-- V-C9. -/
theorem witness_CipherRegionBeyondDbufRaisesBoundsFault :
    ∀ i ∈ [Instr.decrypt, .encrypt], i ∈ [Instr.decrypt, .encrypt] ∧
      (region 5 65532 5 []).geom.dbufSize < (region 5 65532 5 []).offset.toNat + (region 5 65532 5 []).length.toNat := by decide

/-- One whole word; the two buffers differ in the remainder. -/
theorem witness_CipherRemainderIsNeitherReadNorWritten :
    Instr.encrypt ∈ [Instr.decrypt, .encrypt] ∧
    (region 5 0 6 [1, 2, 3, 4, 5, 6]).offset.toNat + (region 5 0 6 [1, 2, 3, 4, 5, 6]).length.toNat ≤
      (region 5 0 6 [1, 2, 3, 4, 5, 6]).geom.dbufSize ∧
    (∀ a, 0 ≤ a → a < 0 + 4 * (6 / 4) → (stored [1, 2, 3, 4, 7, 8]).read a = (stored [1, 2, 3, 4, 5, 6]).read a) ∧
    (stored [1, 2, 3, 4, 7, 8]).read 4 ≠ (stored [1, 2, 3, 4, 5, 6]).read 4 := by
  refine ⟨by decide, by decide, ?_, by decide⟩
  have h : ∀ a, a < 4 → (stored [1, 2, 3, 4, 7, 8]).read a = (stored [1, 2, 3, 4, 5, 6]).read a := by decide
  exact fun a _ ha => h a (by omega)

theorem witness_CipherStreamDependsOnlyOnItsPrefix :
    Instr.decrypt ∈ [Instr.decrypt, .encrypt] ∧
    (region 5 0 12 []).offset.toNat + (region 5 0 12 []).length.toNat ≤ (region 5 0 12 []).geom.dbufSize ∧
    (8 : Word).toNat ≤ (region 5 0 12 []).length.toNat := by decide

/-- `a\b`, without and with `EncryptionFix`. -/
theorem witness_KeygenWritesTheFileKey :
    (named [0x61, 0x5C, 0x62]).nlen.toNat ≤ (named [0x61, 0x5C, 0x62]).geom.nameMax ∧
    Spec.IsBaseName (Spec.name (named [0x61, 0x5C, 0x62])) [0x62] ∧ (∀ c ∈ ([0x62] : List Byte), c.toNat < 0x80) ∧
    Spec.IsBaseName (Spec.name { named [0x61, 0x5C, 0x62] with flags := 0x00020000 }) [0x62] := by
  have h : Spec.name (named [0x61, 0x5C, 0x62]) = [0x61] ++ 0x5C :: [0x62] := by decide
  have b : Spec.IsBaseName (Spec.name (named [0x61, 0x5C, 0x62])) [0x62] :=
    ⟨by unfold Spec.separator; decide, .inr ⟨[0x61], 0x5C, .inl rfl, h⟩⟩
  exact ⟨by decide, b, by decide, b⟩

/-- V-K8, shortened: the index counts in the base name. -/
theorem witness_KeygenReportsTheIndexInTheBaseName :
    (named [0x64, 0x5C, 0x74, 0xE9, 0x73]).nlen.toNat ≤ (named [0x64, 0x5C, 0x74, 0xE9, 0x73]).geom.nameMax ∧
    Spec.IsBaseName (Spec.name (named [0x64, 0x5C, 0x74, 0xE9, 0x73])) ([0x74] ++ 0xE9 :: [0x73]) ∧
    (∀ x ∈ ([0x74] : List Byte), x.toNat < 0x80) ∧ 0x80 ≤ (0xE9 : Byte).toNat := by
  refine ⟨by decide, ⟨by unfold Spec.separator; decide, .inr ⟨[0x64], 0x5C, .inl rfl, by decide⟩⟩, by decide, by decide⟩

/-- `a\b` and `B`. -/
theorem witness_KeygenKeyDependsOnTheBaseNameOnly :
    (named [0x61, 0x5C, 0x62]).nlen.toNat ≤ (named [0x61, 0x5C, 0x62]).geom.nameMax ∧
    (named [0x42]).nlen.toNat ≤ (named [0x42]).geom.nameMax ∧
    Spec.IsBaseName (Spec.name (named [0x61, 0x5C, 0x62])) [0x62] ∧ Spec.IsBaseName (Spec.name (named [0x42])) [0x42] ∧
    ([0x62] : List Byte).map upperCase = ([0x42] : List Byte).map upperCase ∧ (∀ c ∈ ([0x62] : List Byte), c.toNat < 0x80) ∧
    (named [0x61, 0x5C, 0x62]).table = (named [0x42]).table ∧
    (Spec.isFixed (named [0x61, 0x5C, 0x62]) ↔ Spec.isFixed (named [0x42])) ∧
    (named [0x61, 0x5C, 0x62]).boff = (named [0x42]).boff ∧ (named [0x61, 0x5C, 0x62]).usize = (named [0x42]).usize := by
  refine ⟨by decide, by decide, witness_KeygenWritesTheFileKey.2.1, ⟨by unfold Spec.separator; decide, .inl (by decide)⟩,
    by decide, by decide, rfl, Iff.rfl, rfl, rfl⟩

theorem witness_ExtractShiftFaultComesFirst : 22 < ({ base with sshift := 23 } : State).sshift.toNat := by decide

/-- The largest legal shift. -/
theorem witness_ExtractWithoutExistsIsNotFound :
    ({ base with sshift := 22 } : State).sshift.toNat ≤ 22 ∧ ¬ Spec.isExisting { base with sshift := 22 } := by
  refine ⟨by decide, ?_⟩
  unfold Spec.isExisting
  decide

theorem witness_ExtractOfEmptyArchivedDataIsEmpty :
    (file 0x85000000 0 20 []).sshift.toNat ≤ 22 ∧ Spec.isExisting (file 0x85000000 0 20 []) ∧
    (file 0x85000000 0 20 []).csize = 0 := by
  refine ⟨by decide, ?_, rfl⟩
  unfold Spec.isExisting
  decide

/-- `USIZE` 1, and 0 in a record whose archived data is not empty. -/
theorem witness_ExtractOfTinyFileIsOneZeroByte : ∀ u ∈ ([0, 1] : List Word),
    (file 0x80000000 4 u []).sshift.toNat ≤ 22 ∧ Spec.isExisting (file 0x80000000 4 u []) ∧
    (file 0x80000000 4 u []).csize ≠ 0 ∧ (file 0x80000000 4 u []).usize.toNat ≤ 1 := by
  intro u h
  simp only [List.mem_cons, List.not_mem_nil, or_false] at h
  unfold Spec.isExisting
  rcases h with rfl | rfl <;> decide

/-- `SingleUnit`, `HasCrc`, and both. -/
theorem witness_ExtractRejectsUnsupportedRecords : ∀ f ∈ ([0x81000000, 0x84000000, 0x85000000] : List Word),
    (file f 4 2 []).sshift.toNat ≤ 22 ∧ Spec.isExisting (file f 4 2 []) ∧ (file f 4 2 []).csize ≠ 0 ∧
    2 ≤ (file f 4 2 []).usize.toNat ∧ Spec.isUnsupported (file f 4 2 []) := by
  intro f h
  simp only [List.mem_cons, List.not_mem_nil, or_false] at h
  unfold Spec.isExisting Spec.isUnsupported
  rcases h with rfl | rfl | rfl <;> decide

/-- One byte too long for `DBUF`, and one byte too long for `OBUF`. -/
theorem witness_ExtractChecksCapacity : ∀ cu ∈ ([(65537, 2), (65536, 65537)] : List (Word × Word)),
    (file 0x80000000 cu.1 cu.2 []).sshift.toNat ≤ 22 ∧ Spec.isExisting (file 0x80000000 cu.1 cu.2 []) ∧
    (file 0x80000000 cu.1 cu.2 []).csize ≠ 0 ∧ 2 ≤ (file 0x80000000 cu.1 cu.2 []).usize.toNat ∧
    ¬ Spec.isUnsupported (file 0x80000000 cu.1 cu.2 []) ∧
    ((file 0x80000000 cu.1 cu.2 []).geom.dbufSize < (file 0x80000000 cu.1 cu.2 []).csize.toNat ∨
      (file 0x80000000 cu.1 cu.2 []).geom.obufSize < (file 0x80000000 cu.1 cu.2 []).usize.toNat) := by
  intro cu h
  simp only [List.mem_cons, List.not_mem_nil, or_false] at h
  unfold Spec.isExisting Spec.isUnsupported
  rcases h with rfl | rfl <;> decide

/-- A file whose flags and sizes pass every entry test. -/
theorem file_passes_entry (flags csize usize : Word) (bs : List Byte) (h1 : flags &&& Config.flagMasks.existing ≠ 0) (h2 : csize ≠ 0)
    (h3 : 2 ≤ usize.toNat) (h4 : flags &&& Config.flagMasks.singleUnit = 0 ∧ flags &&& Config.flagMasks.hasCrc = 0) (h5 : csize.toNat ≤ 65536)
    (h6 : usize.toNat ≤ 65536) : Spec.PassesEntry (file flags csize usize bs) where
  shift := by show (0 : Half).toNat ≤ 22; decide
  existing := h1
  archived := h2
  size := h3
  supported := by
    rintro (h | h)
    · exact h h4.1
    · exact h h4.2
  region_fits := h5
  file_fits := h6

/-- A region one byte too short for its table, and a raw region one byte shorter than its file. -/
theorem witness_ExtractPreCommitFaultsArePrecise :
    (Spec.PassesEntry (file 0x80000200 7 20 []) ∧ Spec.isSectored (file 0x80000200 7 20 []) ∧
      (file 0x80000200 7 20 []).csize.toNat <
        (((file 0x80000200 7 20 []).usize.toNat + Spec.sectorBytes (file 0x80000200 7 20 []) - 1) /
          Spec.sectorBytes (file 0x80000200 7 20 []) + 1) * 4) ∧
    (Spec.PassesEntry (file 0x80000000 4 5 []) ∧ ¬ Spec.isSectored (file 0x80000000 4 5 []) ∧
      (file 0x80000000 4 5 []).csize.toNat < (file 0x80000000 4 5 []).usize.toNat) := by
  refine ⟨⟨?_, ?_, by decide⟩, ?_, ?_, by decide⟩
  · exact file_passes_entry _ _ _ _ (by decide) (by decide) (by decide) (by decide) (by decide) (by decide)
  · unfold Spec.isSectored; decide
  · exact file_passes_entry _ _ _ _ (by decide) (by decide) (by decide) (by decide) (by decide) (by decide)
  · unfold Spec.isSectored; decide

/-- A raw plain file of more than one sector. -/
theorem witness_ExtractRawPlainFileCopiesTheBytes :
    Spec.PassesEntry (file 0x80000000 600 600 []) ∧ ¬ Spec.isSectored (file 0x80000000 600 600 []) ∧
    ¬ Spec.isEncrypted (file 0x80000000 600 600 []) ∧
    (file 0x80000000 600 600 []).usize.toNat ≤ (file 0x80000000 600 600 []).csize.toNat := by
  refine ⟨?_, ?_, ?_, by decide⟩
  · exact file_passes_entry _ _ _ _ (by decide) (by decide) (by decide) (by decide) (by decide) (by decide)
  · unfold Spec.isSectored; decide
  · unfold Spec.isEncrypted; decide

/-- A region that fits is a cipher pass of its command. -/
theorem cipherPass_of_fits (i : Instr) (dir : Direction) (h : ∀ s, exec i s = .next (cryptCommand dir s)) (s : State) (key : Word)
    (off len : Nat) (m : Memory) (fits : off + len ≤ s.geom.dbufSize) :
    Spec.CipherPass i s key off len m (cryptCommand dir { s with
      dbuf := m, key := key, offset := BitVec.ofNat 32 off, length := BitVec.ofNat 32 len }).dbuf := by
  refine ⟨_, h _, ?_, rfl⟩
  unfold cryptCommand
  rw [if_neg]
  · rfl
  · rw [State.regionOverruns_iff]
    have := Nat.mod_le off (2 ^ 32)
    have := Nat.mod_le len (2 ^ 32)
    simp only [BitVec.toNat_ofNat]
    omega

/-- A raw encrypted file of two chunks, the second a part of one, whose keys are `0xFFFFFFFF` and 0. -/
def rawFile : State := { file 0x80010000 600 600 [] with key := 0xFFFFFFFF }

/-- The file enciphered chunk by chunk. -/
def rawRun : Nat → Memory
  | 0 => rawFile.dbuf
  | i + 1 => (cryptCommand .enc { rawFile with
      dbuf := rawRun i, key := rawFile.key + BitVec.ofNat 32 i, offset := BitVec.ofNat 32 (i * Spec.sectorBytes rawFile),
      length := BitVec.ofNat 32 (min (Spec.sectorBytes rawFile) (rawFile.usize.toNat - i * Spec.sectorBytes rawFile)) }).dbuf

theorem witness_EncryptThenExtractRawFileRoundTrips :
    Spec.PassesEntry rawFile ∧ ¬ Spec.isSectored rawFile ∧ Spec.isEncrypted rawFile ∧
    rawFile.usize.toNat ≤ rawFile.csize.toNat ∧ rawRun 0 = rawFile.dbuf ∧ Spec.sectorCount rawFile = 2 ∧
    ∀ i, i < Spec.sectorCount rawFile →
      Spec.CipherPass .encrypt rawFile (rawFile.key + BitVec.ofNat 32 i) (i * Spec.sectorBytes rawFile)
        (min (Spec.sectorBytes rawFile) (rawFile.usize.toNat - i * Spec.sectorBytes rawFile)) (rawRun i) (rawRun (i + 1)) := by
  have h := file_passes_entry 0x80010000 600 600 [] (by decide) (by decide) (by decide) (by decide) (by decide) (by decide)
  refine ⟨⟨h.shift, h.existing, h.archived, h.size, h.supported, h.region_fits, h.file_fits⟩, ?_, ?_, by decide, rfl, by decide, ?_⟩
  · unfold Spec.isSectored; decide
  · unfold Spec.isEncrypted; decide
  · intro i hi
    refine cipherPass_of_fits .encrypt .enc (fun _ => rfl) _ _ _ _ _ ?_
    rcases (show i = 0 ∨ i = 1 by have : Spec.sectorCount rawFile = 2 := by decide
                                  omega) with rfl | rfl <;> decide

/-- Two stored sectors behind a table of three entries: 12, 524 and 1036. -/
theorem witness_ExtractStoredSectorsConcatenates :
    let s := file 0x80000200 1036 1024 [12, 0, 0, 0, 12, 2, 0, 0, 12, 4, 0, 0]
    Spec.PassesEntry s ∧ Spec.isSectored s ∧ ¬ Spec.isEncrypted s ∧ s.usize.toNat = 2 * Spec.sectorBytes s ∧
    (2 + 1) * 4 ≤ s.csize.toNat ∧ 12 + 2 * Spec.sectorBytes s ≤ s.csize.toNat ∧
    ∀ j, j ≤ 2 → (Spec.word s.dbuf (4 * j)).toNat = 12 + j * Spec.sectorBytes s := by
  refine ⟨?_, ?_, ?_, by decide, by decide, by decide, ?_⟩
  · exact file_passes_entry _ _ _ _ (by decide) (by decide) (by decide) (by decide) (by decide) (by decide)
  · unfold Spec.isSectored; decide
  · unfold Spec.isEncrypted; decide
  · intro j hj
    rcases (by omega : j = 0 ∨ j = 1 ∨ j = 2) with rfl | rfl | rfl <;> decide

/-- A packed sector of one byte, the tag alone, for both tags. -/
theorem witness_ExtractPackedSectorDispatchesOnTheTag : ∀ tc ∈ [((0x02 : Byte), Codec.zlib), (0x08, Codec.implode)],
    let s := file 0x80000200 9 20 [8, 0, 0, 0, 9, 0, 0, 0, tc.1]
    Spec.PassesEntry s ∧ Spec.isSectored s ∧ ¬ Spec.isEncrypted s ∧ s.usize.toNat ≤ Spec.sectorBytes s ∧ 8 ≤ s.csize.toNat ∧
    (Spec.word s.dbuf 0).toNat = 8 ∧ (Spec.word s.dbuf 4).toNat = 8 + 1 ∧ 8 + 1 ≤ s.csize.toNat ∧ 0 < 1 ∧
    1 < Spec.sectorBytes s ∧ s.dbuf.read 8 = tc.1 ∧ (tc.1, tc.2) ∈ [((0x02 : Byte), Codec.zlib), (0x08, Codec.implode)] := by
  intro tc h
  refine ⟨?_, ?_, ?_, ?_⟩
  · exact file_passes_entry _ _ _ _ (by decide) (by decide) (by decide) (by decide) (by decide) (by decide)
  · unfold Spec.isSectored; exact .inl (by show (0x80000200 : Word) &&& 0x00000200 ≠ 0; decide)
  · unfold Spec.isEncrypted; show ¬ (0x80000200 : Word) &&& 0x00010000 ≠ 0; decide
  · revert tc; decide

/-- In an unencrypted file no pass changes the buffer. -/
theorem deciphers_of_plain (s : State) (h : ¬ Spec.isEncrypted s) (key : Word) (off len : Nat) (m : Memory) :
    Spec.Deciphers s key off len m m := ⟨fun e => absurd e h, fun _ => rfl⟩

theorem file_plain (csize usize : Word) (bs : List Byte) : ¬ Spec.isEncrypted (file 0x80000200 csize usize bs) :=
  (by decide : ¬ (0x80000200 : Word) &&& 0x00010000 ≠ 0)

theorem file_sectored (csize usize : Word) (bs : List Byte) : Spec.isSectored (file 0x80000200 csize usize bs) :=
  .inl (by decide : (0x80000200 : Word) &&& 0x00000200 ≠ 0)

/-- Sector 0 of an unencrypted file at 12 to 524, stored. -/
theorem stored_before_second (s : State) (plain : ¬ Spec.isEncrypted s)
    (h : Spec.sectorBytes s = 512 ∧ Spec.entry s.dbuf 0 = 12 ∧ Spec.entry s.dbuf 1 = 524 ∧ 524 ≤ s.csize.toNat ∧ 512 ≤ s.usize.toNat) :
    ∀ j, j < 1 → ∃ out, Spec.GivesSector s j s.dbuf s.dbuf out := by
  intro j hj
  obtain rfl : j = 0 := by omega
  obtain ⟨hb, h0, h1, hc, hu⟩ := h
  change Spec.entry s.dbuf (0 + 1) = 524 at h1
  refine ⟨Spec.bytes s.dbuf (Spec.entry s.dbuf 0) (Spec.sectorBytes s),
    ⟨by omega, by omega, by omega, deciphers_of_plain _ plain _ _ _ _⟩, ?_⟩
  rw [if_pos (by omega)]
  exact ⟨by omega, rfl⟩

theorem first_sector_stored (csize usize : Word) (bs : List Byte)
    (h : Spec.sectorBytes (file 0x80000200 csize usize bs) = 512 ∧ Spec.entry (file 0x80000200 csize usize bs).dbuf 0 = 12 ∧
      Spec.entry (file 0x80000200 csize usize bs).dbuf 1 = 524 ∧ 524 ≤ (file 0x80000200 csize usize bs).csize.toNat ∧
      512 ≤ (file 0x80000200 csize usize bs).usize.toNat) :
    ∀ j, j < 1 → ∃ out, Spec.GivesSector (file 0x80000200 csize usize bs) j (file 0x80000200 csize usize bs).dbuf
      (file 0x80000200 csize usize bs).dbuf out := stored_before_second _ (file_plain _ _ _) h

/-- The clauses of `FaultsSector` that look at the extent only. -/
def extentFault (s : State) (i : Nat) (m : Memory) : Option (Word × Word) :=
  if Spec.entry m (i + 1) < Spec.entry m i then some (0x00003003, Spec.sectorInfo 1 i)
  else if Spec.sectorBytes s < Spec.entry m (i + 1) - Spec.entry m i then some (0x00003003, Spec.sectorInfo 2 i)
  else if s.csize.toNat < Spec.entry m i then some (0x00003003, Spec.sectorInfo 3 i)
  else if s.csize.toNat < Spec.entry m (i + 1) then some (0x00008203, Spec.sectorInfo 2 i)
  else if Spec.entry m (i + 1) = Spec.entry m i then some (0x00008203, Spec.sectorInfo 3 i)
  else if Spec.entry m (i + 1) - Spec.entry m i = Spec.sectorBytes s ∧ s.usize.toNat - i * Spec.sectorBytes s < Spec.sectorBytes s then
    some (0x00008203, Spec.sectorInfo 4 i)
  else none

theorem bad_extent (s : State) (i : Nat) (status einfo : Word) (h : extentFault s i s.dbuf = some (status, einfo)) :
    Spec.FaultsSector s i s.dbuf status einfo := by
  unfold extentFault at h
  unfold Spec.FaultsSector
  repeat' split at h
  all_goals simp_all

/-- Two sectors, the first stored, the second of the unknown tag `0x12`. -/
def taggedFile : State :=
  { file 0x80000200 526 1024 [] with dbuf := (stored [12, 0, 0, 0, 12, 2, 0, 0, 14, 2, 0, 0]).write 524 0x12 }

/-- Sector `i` of an unencrypted file meets the hypotheses behind `i` stored sectors. -/
def BadSector (s : State) (i : Nat) (status einfo : Word) : Prop :=
  Spec.PassesEntry s ∧ Spec.isSectored s ∧ (Spec.sectorCount s + 1) * 4 ≤ s.csize.toNat ∧ i < Spec.sectorCount s ∧
  Spec.OpensTable s s.dbuf ∧ (∀ j, j < i → ∃ out, Spec.GivesSector s j s.dbuf s.dbuf out) ∧
  Spec.FaultsSector s i s.dbuf status einfo

/-- The clauses on an extent, in their order, for sector 0: a reversed extent; one a byte longer than a sector; one that starts past
the region; one that ends past it; an empty one; a whole sector of a shorter file. -/
theorem witness_ExtractEndsAtTheFirstBadSector :
    ∀ c ∈ ([(16, 20, [8, 0, 0, 0, 7, 0, 0, 0], 0x00003003, 0x01000000), (600, 20, [8, 0, 0, 0, 9, 2, 0, 0], 0x00003003, 0x02000000),
        (16, 20, [17, 0, 0, 0, 18, 0, 0, 0], 0x00003003, 0x03000000), (16, 20, [16, 0, 0, 0, 17, 0, 0, 0], 0x00008203, 0x02000000),
        (16, 20, [16, 0, 0, 0, 16, 0, 0, 0], 0x00008203, 0x03000000),
        (600, 511, [8, 0, 0, 0, 8, 2, 0, 0], 0x00008203, 0x04000000)] : List (Word × Word × List Byte × Word × Word)),
      BadSector (file 0x80000200 c.1 c.2.1 c.2.2.1) 0 c.2.2.2.1 c.2.2.2.2 := by
  intro c h
  refine ⟨?_, file_sectored _ _ _, ?_, ?_, deciphers_of_plain _ (file_plain _ _ _) _ _ _ _, fun j hj => absurd hj (by omega), ?_⟩ <;>
    simp only [List.mem_cons, List.not_mem_nil, or_false] at h <;> rcases h with rfl | rfl | rfl | rfl | rfl | rfl
  all_goals first
    | exact file_passes_entry _ _ _ _ (by decide) (by decide) (by decide) (by decide) (by decide) (by decide)
    | decide +kernel
    | exact bad_extent _ _ _ _ (by decide +kernel)

/-- The same at sector 1, behind a stored sector 0 at 12: entry 2 below entry 1; a byte more than a sector; past the region; equal to
entry 1; a whole sector where the file has a byte less. -/
theorem witness_ExtractEndsAtTheFirstBadSector_second :
    ∀ c ∈ ([(2000, 1024, [12, 0, 0, 0, 12, 2, 0, 0, 11, 2, 0, 0], 0x00003003, 0x01000001),
        (2000, 1024, [12, 0, 0, 0, 12, 2, 0, 0, 13, 4, 0, 0], 0x00003003, 0x02000001),
        (524, 1024, [12, 0, 0, 0, 12, 2, 0, 0, 13, 2, 0, 0], 0x00008203, 0x02000001),
        (524, 1024, [12, 0, 0, 0, 12, 2, 0, 0, 12, 2, 0, 0], 0x00008203, 0x03000001),
        (2000, 1023, [12, 0, 0, 0, 12, 2, 0, 0, 12, 4, 0, 0], 0x00008203, 0x04000001)] : List (Word × Word × List Byte × Word × Word)),
      BadSector (file 0x80000200 c.1 c.2.1 c.2.2.1) 1 c.2.2.2.1 c.2.2.2.2 := by
  intro c h
  refine ⟨?_, file_sectored _ _ _, ?_, ?_, deciphers_of_plain _ (file_plain _ _ _) _ _ _ _, ?_, ?_⟩ <;>
    simp only [List.mem_cons, List.not_mem_nil, or_false] at h <;> rcases h with rfl | rfl | rfl | rfl | rfl
  all_goals first
    | exact file_passes_entry _ _ _ _ (by decide) (by decide) (by decide) (by decide) (by decide) (by decide)
    | decide +kernel
    | exact bad_extent _ _ _ _ (by decide +kernel)
    | exact first_sector_stored _ _ _ (by decide +kernel)

/-- An unknown tag in sector 1. -/
theorem witness_ExtractEndsAtTheFirstBadSector_tag : BadSector taggedFile 1 0x00002103 0x12000001 := by
  have h := file_passes_entry 0x80000200 526 1024 [] (by decide) (by decide) (by decide) (by decide) (by decide) (by decide)
  have plain : ¬ Spec.isEncrypted taggedFile := file_plain 526 1024 []
  refine ⟨⟨h.shift, h.existing, h.archived, h.size, h.supported, h.region_fits, h.file_fits⟩, file_sectored 526 1024 [],
    by decide +kernel, by decide +kernel, deciphers_of_plain _ plain _ _ _ _, stored_before_second _ plain (by decide +kernel), ?_⟩
  unfold Spec.FaultsSector
  iterate 6 rw [if_neg (by decide +kernel)]
  exact ⟨taggedFile.dbuf, ⟨by decide +kernel, by decide +kernel, by decide +kernel, deciphers_of_plain _ plain _ _ _ _⟩,
    by decide +kernel, .inl (by decide +kernel)⟩

/-- The file of R166: 40 bytes, encrypted, one sector. -/
def r166 : State :=
  { file 0x80030200 40 20
      [0x7D, 0xDA, 0x93, 0xBE, 0x19, 0xA2, 0x0F, 0xAB, 0xE9, 0x7D, 0x06, 0x34, 0x54, 0xB4, 0x22, 0x0F, 0x02, 0x77, 0xC9, 0x00,
       0xF4, 0xD5, 0xD7, 0xCE, 0x81, 0x19, 0x5D, 0xEF, 0xD3, 0xFF, 0xDF, 0x40, 0xB9, 0xDC, 0x73, 0x8F, 0x9B, 0xCD, 0x7C, 0x65] with
    key := 0x82C4622D }

/-- R166 with its table deciphered by hand. -/
def r166Table : State := cryptCommand .dec { r166 with key := r166.key - 1, offset := 0, length := 8 }

/-- R166 with its sector deciphered too. -/
def r166Plain : State :=
  cryptCommand .dec { r166 with dbuf := r166Table.dbuf, offset := BitVec.ofNat 32 8, length := BitVec.ofNat 32 (40 - 8) }

/-- R166: the table deciphers to 8 and 40, and the first word of the sector to the tag 2 and the stream's first bytes. -/
theorem test_r166 : r166Table.dbuf.readBytes 0 8 = [8, 0, 0, 0, 40, 0, 0, 0] ∧
    r166Plain.dbuf.readBytes 8 8 = [0x02, 0x78, 0x01, 0x01, 0x14, 0x00, 0xEB, 0xFF] := by decide +kernel

/-- Two encrypted packed sectors behind a table that deciphers to 12, 20 and 28; with `KEY` at its largest value the key of sector 1 is 0
(V-X18). -/
def twoSectors : State :=
  { file 0x80010200 28 600 [245, 103, 255, 58, 193, 143, 47, 31, 4, 235, 247, 79, 1, 2, 3, 4, 5, 6, 7, 8, 9, 10, 11, 12, 13, 14, 15, 16] with
    key := 0xFFFFFFFF }

/-- The region deciphered by hand: the table, then sector by sector. -/
def sectorRun (s : State) : Nat → Memory
  | 0 => (cryptCommand .dec { s with
      dbuf := s.dbuf, key := s.key - 1, offset := BitVec.ofNat 32 0, length := BitVec.ofNat 32 ((Spec.sectorCount s + 1) * 4) }).dbuf
  | i + 1 => (cryptCommand .dec { s with
      dbuf := sectorRun s i, key := s.key + BitVec.ofNat 32 i, offset := BitVec.ofNat 32 (Spec.entry (sectorRun s i) i),
      length := BitVec.ofNat 32 (Spec.entry (sectorRun s i) (i + 1) - Spec.entry (sectorRun s i) i) }).dbuf

theorem sectorRun_opensTable (s : State) (h : Spec.isEncrypted s) (fits : 0 + (Spec.sectorCount s + 1) * 4 ≤ s.geom.dbufSize) :
    Spec.OpensTable s (sectorRun s 0) :=
  ⟨fun _ => cipherPass_of_fits .decrypt .dec (fun _ => rfl) _ _ _ _ _ fits, fun n => absurd h n⟩

theorem sectorRun_opensSector (s : State) (i : Nat) (h : Spec.isEncrypted s) (fits : s.csize.toNat ≤ s.geom.dbufSize)
    (le : Spec.entry (sectorRun s i) i ≤ Spec.entry (sectorRun s i) (i + 1))
    (short : Spec.entry (sectorRun s i) (i + 1) - Spec.entry (sectorRun s i) i ≤ Spec.sectorBytes s)
    (inside : Spec.entry (sectorRun s i) (i + 1) ≤ s.csize.toNat) :
    Spec.OpensSector s i (sectorRun s i) (sectorRun s (i + 1)) :=
  ⟨le, short, inside, fun _ => cipherPass_of_fits .decrypt .dec (fun _ => rfl) _ _ _ _ _ (by omega), fun n => absurd h n⟩

theorem twoSectors_opens : Spec.PassesEntry twoSectors ∧ Spec.isSectored twoSectors ∧ Spec.isEncrypted twoSectors ∧
    Spec.sectorCount twoSectors = 2 ∧ (Spec.sectorCount twoSectors + 1) * 4 ≤ twoSectors.csize.toNat ∧
    Spec.OpensTable twoSectors (sectorRun twoSectors 0) ∧
    ∀ i, i < Spec.sectorCount twoSectors → Spec.OpensSector twoSectors i (sectorRun twoSectors i) (sectorRun twoSectors (i + 1)) := by
  have h := file_passes_entry 0x80010200 28 600 [] (by decide) (by decide) (by decide) (by decide) (by decide) (by decide)
  have enc : Spec.isEncrypted twoSectors := (by decide : (0x80010200 : Word) &&& 0x00010000 ≠ 0)
  refine ⟨⟨h.shift, h.existing, h.archived, h.size, h.supported, h.region_fits, h.file_fits⟩,
    .inl (by decide : (0x80010200 : Word) &&& 0x00000200 ≠ 0), enc, by decide, by decide,
    sectorRun_opensTable _ enc (by decide), ?_⟩
  intro i hi
  have : Spec.sectorCount twoSectors = 2 := by decide
  rcases (by omega : i = 0 ∨ i = 1) with rfl | rfl <;>
    exact sectorRun_opensSector _ _ enc (by decide) (by decide +kernel) (by decide +kernel) (by decide +kernel)

/-- Two sectors behind the table. -/
theorem witness_EncryptedSectorExtractsLikeItsDecipheredRegion :
    Spec.PassesEntry twoSectors ∧ Spec.isSectored twoSectors ∧ Spec.isEncrypted twoSectors ∧
    (Spec.sectorCount twoSectors + 1) * 4 ≤ twoSectors.csize.toNat ∧ Spec.OpensTable twoSectors (sectorRun twoSectors 0) ∧
    (Spec.sectorCount twoSectors + 1) * 4 ≤ Spec.entry (sectorRun twoSectors 0) 0 ∧
    ∀ i, i < Spec.sectorCount twoSectors → Spec.OpensSector twoSectors i (sectorRun twoSectors i) (sectorRun twoSectors (i + 1)) :=
  have ⟨h1, h2, h3, _, h4, h5, h6⟩ := twoSectors_opens
  ⟨h1, h2, h3, h4, h5, by decide +kernel, h6⟩

/-- The encrypted file, whose sectors open, and the file of two stored sectors, whose sectors give their bytes. -/
theorem witness_ExtractPlacesEverySectorInOrder :
    (Spec.PassesEntry twoSectors ∧ Spec.isSectored twoSectors ∧ (Spec.sectorCount twoSectors + 1) * 4 ≤ twoSectors.csize.toNat ∧
      Spec.OpensTable twoSectors (sectorRun twoSectors 0) ∧
      ∀ i, i < Spec.sectorCount twoSectors → Spec.OpensSector twoSectors i (sectorRun twoSectors i) (sectorRun twoSectors (i + 1))) ∧
    let s := file 0x80000200 1036 1024 [12, 0, 0, 0, 12, 2, 0, 0, 12, 4, 0, 0]
    Spec.PassesEntry s ∧ Spec.isSectored s ∧ (Spec.sectorCount s + 1) * 4 ≤ s.csize.toNat ∧ Spec.OpensTable s s.dbuf ∧
      ∀ i, i < Spec.sectorCount s →
        Spec.GivesSector s i s.dbuf s.dbuf (Spec.bytes s.dbuf (Spec.entry s.dbuf i) (Spec.sectorBytes s)) := by
  have ⟨h1, h2, _, _, h4, h5, h6⟩ := twoSectors_opens
  refine ⟨⟨h1, h2, h4, h5, h6⟩, ?_, file_sectored _ _ _, by decide, deciphers_of_plain _ (file_plain _ _ _) _ _ _ _, ?_⟩
  · exact file_passes_entry _ _ _ _ (by decide) (by decide) (by decide) (by decide) (by decide) (by decide)
  · intro i hi
    have : Spec.sectorCount (file 0x80000200 1036 1024 [12, 0, 0, 0, 12, 2, 0, 0, 12, 4, 0, 0]) = 2 := by decide
    rcases (by omega : i = 0 ∨ i = 1) with rfl | rfl <;>
      exact ⟨⟨by decide +kernel, by decide +kernel, by decide +kernel, deciphers_of_plain _ (file_plain _ _ _) _ _ _ _⟩,
        by rw [if_pos (by decide +kernel)]; exact ⟨by decide +kernel, rfl⟩⟩

/-- A normal end of an unencrypted file. -/
theorem witness_ExtractLeavesTheRestAlone :
    ∃ t, exec .extract (file 0x80000000 2 2 []) = .next t ∧ ¬ Spec.isEncrypted (file 0x80000000 2 2 []) ∧
      t.status.getLsbD 1 = false :=
  ⟨_, rfl, (by decide : ¬ (0x80000000 : Word) &&& 0x00010000 ≠ 0), by decide +kernel⟩

/-- A precise fault, and one past the commit point. -/
theorem witness_ExtractFaultsArePreciseOrFreeTheBuffers :
    (∃ t, exec .extract { base with sshift := 23 } = .next t ∧ t.status.getLsbD 1 = true) ∧
    ∃ t, exec .extract (file 0x80000200 16 20 [8, 0, 0, 0, 4, 0, 0, 0]) = .next t ∧ t.status.getLsbD 1 = true ∧ t.draws = 5 :=
  ⟨⟨_, rfl, by decide +kernel⟩, ⟨_, rfl, by decide +kernel, by decide +kernel⟩⟩

/-- A region of the tag alone, for both tags. -/
theorem witness_DecompEndsAsItsCodecAnswers : ∀ tc ∈ [((0x02 : Byte), Codec.zlib), (0x08, Codec.implode)],
    let s := region 0 0 1 [tc.1]
    s.sshift.toNat ≤ 22 ∧ s.length ≠ 0 ∧ s.offset.toNat + s.length.toNat ≤ s.geom.dbufSize ∧
    s.dbuf.read s.offset.toNat = tc.1 ∧ (tc.1, tc.2) ∈ [((0x02 : Byte), Codec.zlib), (0x08, Codec.implode)] := by decide

/-- The largest sector index `EINFO` can name, and a region of an unknown tag. -/
theorem witness_UnknownTagsRaiseUnsupportedCompression :
    ((0x00 : Byte) ≠ 0x02 ∧ (0x00 : Byte) ≠ 0x08 ∧ 2 ^ 24 - 1 < 2 ^ 24) ∧
    ((region 0 0 1 [0x0A]).sshift.toNat ≤ 22 ∧ (region 0 0 1 [0x0A]).length ≠ 0 ∧
      (region 0 0 1 [0x0A]).offset.toNat + (region 0 0 1 [0x0A]).length.toNat ≤ (region 0 0 1 [0x0A]).geom.dbufSize ∧
      (region 0 0 1 [0x0A]).dbuf.read 0 ≠ 0x02 ∧ (region 0 0 1 [0x0A]).dbuf.read 0 ≠ 0x08) := by decide

/-- Each of the three faults. -/
theorem witness_DecompOperandFaultsInOrder :
    22 < ({ base with sshift := 23 } : State).sshift.toNat ∧ (base.sshift.toNat ≤ 22 ∧ base.length = 0) ∧
    ((region 0 65536 1 []).sshift.toNat ≤ 22 ∧ (region 0 65536 1 []).length ≠ 0 ∧
      (region 0 65536 1 []).geom.dbufSize < (region 0 65536 1 []).offset.toNat + (region 0 65536 1 []).length.toNat) := by decide

/-- One command that is neither `KEYGEN` nor `EXTRACT`, and `EXTRACT`. -/
theorem witness_CommandsWriteOnlyTheirState :
    (∃ t, exec .decrypt base = .next t) ∧ ∃ t, exec .extract base = .next t := ⟨⟨_, rfl⟩, ⟨_, rfl⟩⟩

theorem witness_FaultsOutsideExtractArePrecise :
    Instr.decrypt ≠ .extract ∧ ∃ t, exec .decrypt (region 5 65532 5 []) = .next t ∧ t.status.getLsbD 1 = true :=
  ⟨by decide, _, rfl, by decide +kernel⟩

/-- The engine with its two moves meets the invariant, and its first move goes on. -/
theorem witness_StepKeepsTheInvariant :
    (moving (.bufWrite .nbuf 258 [1, 2])).Inv ∧ ∃ t, step (moving (.bufWrite .nbuf 258 [1, 2])) = .next t where
  left :=
    { table_constant := rfl
      geom_legal := by show 1 ≤ 260 ∧ 1 ≤ 65536 ∧ 65536 ≤ 2 ^ 32 ∧ 1 ≤ 65536 ∧ 65536 ≤ 2 ^ 32; decide
      nbuf_legal := ⟨rfl, rfl⟩
      dbuf_legal := ⟨rfl, rfl⟩
      obuf_legal := ⟨rfl, rfl⟩
      status_legal := by show (0 : Word) ∈ legalStatus; decide
      einfo_zero := fun _ => rfl
      olen_fits := by show (0 : Word).toNat ≤ 65536; decide
      draws_made := by show 0 < 3 ∧ 1 < 3 ∧ 2 < 3; decide }
  right := ⟨_, rfl⟩

end Sys2Proof.Tests
end

section
/-! The register block and the moves, each said once: what a register read returns after a register write, which moves go on, and
what a command leaves. -/

namespace Sys2Proof.Machine

/-! ### The register block -/

/-- A host read of the register block returns the value the statements speak of (R22 to R27, R31). -/
theorem regRead_eq_registerValue (s : State) (off : Nat) : regRead s off = Spec.registerValue s off := by
  by_cases h : off ∈ [0x04, 0x08, 0x0C, 0x10, 0x14, 0x18, 0x1C, 0x20, 0x24, 0x28, 0x2C, 0x30, 0x34]
  · simp only [List.mem_cons, List.not_mem_nil, or_false] at h
    rcases h with rfl | rfl | rfl | rfl | rfl | rfl | rfl | rfl | rfl | rfl | rfl | rfl | rfl
    rotate_right
    · exact (BitVec.ofNat_toNat 32 s.sshift).symm
    all_goals rfl
  · rw [regRead_reserved s off h]
    simp only [List.mem_cons, List.not_mem_nil, or_false, not_or] at h
    unfold Spec.registerValue
    split <;> simp_all

/-- What an operand register holds after the host wrote `v` to it: `SSHIFT` keeps the low 16 bits (R22). -/
def storedOperand (off : Nat) (v : Word) : Word := if off = 0x34 then BitVec.ofNat 32 (v.toNat % 2 ^ 16) else v

/-- A read after a write to an operand register: what was stored there, the old value at every other offset (R22, R31). -/
theorem registerValue_regWrite (s : State) (off : Nat) (v : Word) (h : off ∈ Spec.operandOffsets) (o : Nat) :
    Spec.registerValue (regWrite s off v) o = if o = off then storedOperand off v else Spec.registerValue s o := by
  split
  · subst o
    simp only [Spec.operandOffsets, List.mem_cons, List.not_mem_nil, or_false] at h
    rcases h with rfl | rfl | rfl | rfl | rfl | rfl | rfl | rfl | rfl
    rotate_right
    · show BitVec.ofNat 32 (v.setWidth 16).toNat = BitVec.ofNat 32 (v.toNat % 2 ^ 16)
      rw [BitVec.toNat_setWidth]
    all_goals rfl
  · rename_i ho
    simp only [Spec.operandOffsets, List.mem_cons, List.not_mem_nil, or_false] at h
    rcases h with rfl | rfl | rfl | rfl | rfl | rfl | rfl | rfl | rfl
    all_goals
      unfold Spec.registerValue
      split <;> trivial

@[simp] theorem registerValue_setScript (s : State) (l : List HostAccess) (o : Nat) :
    Spec.registerValue (s.setScript l) o = Spec.registerValue s o := rfl

@[simp] theorem registerValue_pushReply (s : State) (r : HostReply) (o : Nat) :
    Spec.registerValue (s.pushReply r) o = Spec.registerValue s o := rfl

/-- Every register is 0 right after reset (R34). -/
theorem registerValue_reset (o : Nat) : Spec.registerValue State.reset o = 0 := by
  unfold Spec.registerValue
  split <;> rfl

/-- The reset input leaves the registers as `State.reset` has them (R240). -/
theorem registerValue_pulseReset (s : State) (o : Nat) : Spec.registerValue s.pulseReset o = 0 :=
  registerValue_reset o

/-- The state right after reset is what the reset input makes of it before the first draw (R34, R240). -/
theorem State.reset_eq_pulseReset : State.reset = State.pulseReset { State.reset with draws := 0 } := rfl

theorem regWrite_script (s : State) (off : Nat) (v : Word) : (regWrite s off v).script = s.script := by
  rw [regWrite_others]

theorem wordAligned_iff (off size : Nat) : wordAligned off size = true ↔ off % 4 = 0 ∧ size = 4 := by
  simp [wordAligned]

/-! ### The moves -/

@[simp] theorem State.setScript_capacity (s : State) (l : List HostAccess) (sp : Space) :
    (s.setScript l).capacity sp = s.capacity sp := by
  cases sp <;> rfl

@[simp] theorem State.setScript_buffer (s : State) (l : List HostAccess) (sp : Space) :
    (s.setScript l).buffer sp = s.buffer sp := by
  cases sp <;> rfl

/-- A step takes the next move off the script and makes it. -/
theorem step_of_script {s : State} {a : HostAccess} {rest : List HostAccess} (h : s.script = a :: rest) :
    step s = hostAccess a (s.setScript rest) :=
  step_cons s a rest h

/-- An aligned register write other than `CMD`'s goes on (R31). -/
theorem hostAccess_regWrite (s : State) (off : Nat) (v : Word) (h : off % 4 = 0) (h0 : off ≠ 0) :
    hostAccess (.regWrite off 4 v) s = .next (regWrite s off v) := by
  have hw := (wordAligned_iff off 4).2 ⟨h, rfl⟩
  have hc : off ≠ Config.offCmd := h0
  simp [hostAccess, hw, hc]

/-- An aligned register read goes on (R31). -/
theorem hostAccess_regRead (s : State) (off : Nat) (h : off % 4 = 0) :
    hostAccess (.regRead off 4) s = .next (s.pushReply (.word (Spec.registerValue s off))) := by
  have hw := (wordAligned_iff off 4).2 ⟨h, rfl⟩
  simp [hostAccess, hw, regRead_eq_registerValue]

/-- A register access that is not an aligned word is refused (R31, U8). -/
theorem hostAccess_regWrite_refused (s : State) (off size : Nat) (v : Word) (h : ¬ (off % 4 = 0 ∧ size = 4)) :
    hostAccess (.regWrite off size v) s = .refused (.registerAccess off size) := by
  rw [← wordAligned_iff] at h
  simp [hostAccess, h]

theorem hostAccess_regRead_refused (s : State) (off size : Nat) (h : ¬ (off % 4 = 0 ∧ size = 4)) :
    hostAccess (.regRead off size) s = .refused (.registerAccess off size) := by
  rw [← wordAligned_iff] at h
  simp [hostAccess, h]

/-- A buffer write inside the buffer goes on (R30). -/
theorem hostAccess_bufWrite (s : State) (sp : Space) (addr : Nat) (bs : List Byte) (h : addr + bs.length ≤ s.capacity sp) :
    hostAccess (.bufWrite sp addr bs) s = .next (s.setBuffer sp ((s.buffer sp).writeBytes addr bs)) := by
  simp [hostAccess, s.missingAddress_eq_none sp addr _ h]

/-- A buffer read inside the buffer goes on (R30). -/
theorem hostAccess_bufRead (s : State) (sp : Space) (addr n : Nat) (h : addr + n ≤ s.capacity sp) :
    hostAccess (.bufRead sp addr n) s = .next (s.pushReply (.bytes ((s.buffer sp).readBytes addr n))) := by
  simp [hostAccess, s.missingAddress_eq_none sp addr n h]

/-- A buffer access that misses an address stops the machine there (log entry 9). -/
theorem hostAccess_bufWrite_missing (s : State) (sp : Space) (addr : Nat) (bs : List Byte) (bad : Nat)
    (h : s.missingAddress sp addr bs.length = some bad) :
    hostAccess (.bufWrite sp addr bs) s = .fault (.noSuchAddress sp bad) := by
  simp only [hostAccess, h]

theorem hostAccess_bufRead_missing (s : State) (sp : Space) (addr n bad : Nat) (h : s.missingAddress sp addr n = some bad) :
    hostAccess (.bufRead sp addr n) s = .fault (.noSuchAddress sp bad) := by
  simp only [hostAccess, h]

/-- An access that misses no address is empty or lies in the buffer. -/
theorem State.fits_of_missingAddress (s : State) (sp : Space) (addr n : Nat) (h : s.missingAddress sp addr n = none) :
    n = 0 ∨ addr + n ≤ s.capacity sp := by
  by_contra hc
  rw [s.missingAddress_eq_some sp addr n (by omega) (by omega)] at h
  cases h

/-- The bytes of the statements are those the host port reads. -/
theorem Memory.readBytes_eq_bytes (m : Memory) (a n : Nat) : m.readBytes a n = Spec.bytes m a n := by
  unfold Memory.readBytes Spec.bytes
  rw [List.range'_eq_map_range, List.map_map]
  rfl

/-! ### The buffers of the state -/

/-- Putting a buffer back replaces that buffer and no other. -/
theorem State.setBuffer_buffer (s : State) (sp sp' : Space) (m : Memory) :
    (s.setBuffer sp m).buffer sp' = if sp' = sp then m else s.buffer sp' := by
  cases sp <;> cases sp' <;> rfl

/-- Putting a buffer back changes the buffers only. -/
theorem State.setBuffer_others (s : State) (sp : Space) (m : Memory) :
    s.setBuffer sp m =
      { s with nbuf := (s.setBuffer sp m).nbuf, dbuf := (s.setBuffer sp m).dbuf, obuf := (s.setBuffer sp m).obuf } := by
  cases sp <;> rfl

/-! ### The commands -/

/-- No command stops the machine. -/
theorem exec_next (i : Instr) (s : State) : ∃ t, exec i s = .next t := by
  cases i <;> exact ⟨_, rfl⟩

/-- A `CMD` write runs a command or raises `IllegalCommand` (R84, R211). -/
theorem issueCommand_cases (w : Word) (s : State) :
    (∃ i, issueCommand w s = exec i s) ∨ ∃ v, issueCommand w s = .next (raise ⟨.illegalCommand, v⟩ s) := by
  unfold issueCommand
  split
  · exact .inl ⟨_, rfl⟩
  · exact .inr ⟨_, rfl⟩

theorem issueCommand_next (w : Word) (s : State) : ∃ t, issueCommand w s = .next t := by
  rcases issueCommand_cases w s with ⟨i, h⟩ | ⟨v, h⟩
  · rw [h]; exact exec_next i s
  · exact ⟨_, h⟩

/-- Which command's body an execution ran. -/
theorem exec_cases (i : Instr) (s t : State) (h : exec i s = .next t) :
    (i ∈ [Instr.hashA, .hashB, .hashK] ∧ ∃ p, t = hashCommand p s) ∨
    (i ∈ [Instr.decrypt, .encrypt] ∧ ∃ dir, t = cryptCommand dir s) ∨
    (i = .keygen ∧ t = keygenCommand s) ∨
    (i = .extract ∧ t = extractCommand s) ∨
    (i = .decomp ∧ t = decompCommand s) := by
  cases i <;> injection h with h <;> subst h
  case hashA | hashB | hashK => exact .inl ⟨by decide, _, rfl⟩
  case decrypt | encrypt => exact .inr (.inl ⟨by decide, _, rfl⟩)
  case keygen => exact .inr (.inr (.inl ⟨rfl, rfl⟩))
  case extract => exact .inr (.inr (.inr (.inl ⟨rfl, rfl⟩)))
  case decomp => exact .inr (.inr (.inr (.inr ⟨rfl, rfl⟩)))

/-- Every way `EXTRACT` can end: a fault before the commit point, one of the three short ends, a fault past the commit point, or the
file in `OBUF` (R145 to R163). -/
theorem extractCommand_cases (s : State) :
    (∃ r : Raised, r.cause ∈ [EngineFault.illegalOperand, .unsupportedFeature, .boundsFault] ∧ extractCommand s = raise r s) ∨
    (∃ c, extractCommand s = complete c (s.setOlen 0)) ∨
    extractCommand s = complete .ok ((s.setObuf (s.obuf.write 0 0x00)).setOlen 1) ∨
    (s.Enters ∧ ∃ r : Raised,
      r.cause ∈ [EngineFault.corruptArchive, .boundsFault, .unsupportedCompression, .codecFailure] ∧
      extractCommand s = raise r s.spoilBuffers) ∨
    (s.Enters ∧ ∃ t, ExtractFrame s t ∧ extractCommand s = complete .ok (t.setOlen t.usize)) := by
  rcases extractCommand_entry s with h | h | h | h | he
  · exact .inl h
  · exact .inr (.inl ⟨_, h⟩)
  · exact .inr (.inl ⟨_, h⟩)
  · exact .inr (.inr (.inl h))
  rw [extractCommand_of_enters s he]
  split
  · rcases extractSectored_cases s with h | ⟨-, r, hr, h⟩ | ⟨-, t, ht, -, h⟩
    · exact .inl ⟨_, by simp, h⟩
    · exact .inr (.inr (.inr (.inl ⟨he, r, hr, h⟩)))
    · exact .inr (.inr (.inr (.inr ⟨he, t, ht, h⟩)))
  · rcases extractRaw_cases s with h | ⟨-, t, ht, -, h⟩
    · exact .inl ⟨_, by simp, h⟩
    · exact .inr (.inr (.inr (.inr ⟨he, t, ht, h⟩)))

end Sys2Proof.Machine
end

section
/-! Which fields each command may write (R33): one equation a command. -/

namespace Sys2Proof.Machine

theorem hashCommand_frame (p : Purpose) (s : State) :
    ∃ st e v, hashCommand p s = { s with status := st, einfo := e, result := v } := by
  rcases hashCommand_cases p s with h | ⟨i, c, h⟩ | ⟨d, h⟩ <;> exact ⟨_, _, _, h⟩

theorem keygenCommand_frame (s : State) :
    ∃ st e k v, keygenCommand s = { s with status := st, einfo := e, key := k, result := v } := by
  rcases keygenCommand_cases s with h | ⟨i, c, h⟩ | ⟨k, h⟩ <;> exact ⟨_, _, _, _, h⟩

theorem cryptCommand_frame (dir : Direction) (s : State) :
    ∃ st e m, cryptCommand dir s = { s with status := st, einfo := e, dbuf := m } := by
  rcases cryptCommand_cases dir s with h | ⟨-, h⟩ <;> exact ⟨_, _, _, h⟩

theorem decompCommand_frame (s : State) :
    ∃ st e n m, decompCommand s = { s with status := st, einfo := e, olen := n, obuf := m } := by
  rcases decompCommand_cases s with ⟨r, -, h⟩ | ⟨bs, -, -, -, h⟩ <;> exact ⟨_, _, _, _, h⟩

theorem extractCommand_frame (s : State) :
    ∃ st e n d o k, extractCommand s =
      { s with status := st, einfo := e, olen := n, dbuf := d, obuf := o, draws := k } := by
  rcases extractCommand_cases s with ⟨r, -, h⟩ | ⟨c, h⟩ | h | ⟨-, r, -, h⟩ | ⟨-, t, ht, h⟩
  · exact ⟨_, _, _, _, _, _, h⟩
  · exact ⟨_, _, _, _, _, _, h⟩
  · exact ⟨_, _, _, _, _, _, h⟩
  · exact ⟨_, _, _, _, _, _, h⟩
  · rw [ht.others] at h
    exact ⟨_, _, _, _, _, _, h⟩

end Sys2Proof.Machine
end

section
/-! The invariant: each operation on the state keeps it, then each command, then each move. -/

namespace Sys2Proof.Machine

/-! ### Legal buffers -/

/-- A buffer nothing has written is legal. -/
theorem Memory.Legal.nil (n draw : Nat) : Memory.Legal n ⟨[], draw⟩ := ⟨rfl, rfl⟩

theorem Memory.Legal.write {n : Nat} {m : Memory} (h : m.Legal n) (a : Nat) (b : Byte) (ha : a < n) :
    (m.write a b).Legal n :=
  ⟨m.wf_write a b h.canonical, m.within_write n a b h.fits ha⟩

theorem Memory.Legal.writeBytes {n : Nat} {m : Memory} (h : m.Legal n) (a : Nat) (bs : List Byte)
    (ha : bs = [] ∨ a + bs.length ≤ n) : (m.writeBytes a bs).Legal n :=
  ⟨m.wf_writeBytes a bs h.canonical, m.within_writeBytes n a bs h.fits ha⟩

theorem Memory.Legal.spoil {n : Nat} {m : Memory} (h : m.Legal n) (k draw : Nat) (hk : k ≤ n) : (m.spoil k draw).Legal n :=
  ⟨m.wf_spoil k draw h.canonical, m.within_spoil n k draw h.fits hk⟩

theorem Memory.Legal.crypt {n : Nat} {m : Memory} (h : m.Legal n) (table : List Word) (dir : Direction) (key : Word)
    (off len : Nat) (hl : off + len ≤ n) : (Machine.crypt table dir key off len m).Legal n :=
  ⟨crypt_wf _ _ _ _ _ _ h.canonical, crypt_within _ _ _ _ _ _ _ h.fits hl⟩

/-! ### Legal ends -/

/-- Every fault the engine raises has a legal status word (R201, R209). -/
theorem statusWord_raise_mem (c : EngineFault) (h : c ≠ .formatError) : statusWord c.code true true ∈ legalStatus := by
  cases c
  case formatError => exact absurd rfl h
  all_goals decide

theorem statusWord_complete_mem (c : Completion) : statusWord c.code false true ∈ legalStatus := by
  cases c <;> decide

/-- A fault's status word has `ERR` set (R203). -/
theorem statusErr_raise (c : EngineFault) : statusErr (statusWord c.code true true) = true := by
  cases c <;> decide

/-! ### The operations keep the invariant -/

/-- The reset input establishes the invariant from any state whose capacities are in the ranges of R7 (R240). -/
theorem State.pulseReset_inv (s : State) (h : s.geom.wf) : s.pulseReset.Inv where
  table_constant := rfl
  geom_legal := h
  nbuf_legal := .nil _ _
  dbuf_legal := .nil _ _
  obuf_legal := .nil _ _
  status_legal := List.mem_cons_self
  einfo_zero _ := rfl
  olen_fits := Nat.zero_le _
  draws_made := by
    simp only [pulseReset_nbuf, pulseReset_dbuf, pulseReset_obuf, pulseReset_draws]
    omega

namespace State.Inv

variable {s : State}

protected theorem complete (h : s.Inv) (c : Completion) : (Machine.complete c s).Inv :=
  { h with
    status_legal := statusWord_complete_mem c
    einfo_zero := fun _ => rfl }

protected theorem raise (h : s.Inv) (r : Raised) (hr : r.cause ≠ .formatError) : (Machine.raise r s).Inv :=
  { h with
    status_legal := statusWord_raise_mem r.cause hr
    einfo_zero := fun e => absurd ((statusErr_raise r.cause).symm.trans e) (by decide) }

protected theorem setResult (h : s.Inv) (v : Word) : (s.setResult v).Inv := { h with }

protected theorem setKeyResult (h : s.Inv) (v : Word) : (s.setKeyResult v).Inv := { h with }

protected theorem setOlen (h : s.Inv) (v : Word) (hv : v.toNat ≤ s.geom.obufSize) : (s.setOlen v).Inv :=
  { h with olen_fits := hv }

protected theorem setDbuf (h : s.Inv) (m : Memory) (hm : m.Legal s.geom.dbufSize) (hd : m.draw = s.dbuf.draw) :
    (s.setDbuf m).Inv :=
  { h with
    dbuf_legal := hm
    draws_made := by
      obtain ⟨hn, hdb, ho⟩ := h.draws_made
      exact ⟨hn, hd ▸ hdb, ho⟩ }

protected theorem setObuf (h : s.Inv) (m : Memory) (hm : m.Legal s.geom.obufSize) (hd : m.draw = s.obuf.draw) :
    (s.setObuf m).Inv :=
  { h with
    obuf_legal := hm
    draws_made := by
      obtain ⟨hn, hdb, ho⟩ := h.draws_made
      exact ⟨hn, hdb, hd ▸ ho⟩ }

protected theorem setScript (h : s.Inv) (l : List HostAccess) : (s.setScript l).Inv := { h with }

protected theorem pushReply (h : s.Inv) (r : HostReply) : (s.pushReply r).Inv := { h with }

protected theorem regWrite (h : s.Inv) (off : Nat) (v : Word) : (Machine.regWrite s off v).Inv := by
  rw [regWrite_others]
  exact { h with }

/-- The free bytes of a late `EXTRACT` fault stay inside the buffers the record fits (R163). -/
protected theorem spoilBuffers (h : s.Inv) (hc : s.csize.toNat ≤ s.geom.dbufSize) (hu : s.usize.toNat ≤ s.geom.obufSize) :
    s.spoilBuffers.Inv :=
  { h with
    dbuf_legal := h.dbuf_legal.spoil _ _ hc
    obuf_legal := h.obuf_legal.spoil _ _ hu
    olen_fits := Nat.zero_le _
    draws_made := by
      obtain ⟨hn, hd, ho⟩ := h.draws_made
      simp only [spoilBuffers_nbuf, spoilBuffers_dbuf, spoilBuffers_obuf, spoilBuffers_draws, Memory.spoil_draw]
      omega }

/-- The extractor's passes keep the invariant while the record fits the buffers (R151). -/
theorem of_extractFrame {t : State} (h : s.Inv) (f : ExtractFrame s t) (hc : s.csize.toNat ≤ s.geom.dbufSize)
    (hu : s.usize.toNat ≤ s.geom.obufSize) : t.Inv := by
  have hd : t.dbuf.Legal s.geom.dbufSize := ⟨f.dbuf_wf h.dbuf_legal.canonical, f.dbuf_within _ hc h.dbuf_legal.fits⟩
  have ho : t.obuf.Legal s.geom.obufSize := ⟨f.obuf_wf h.obuf_legal.canonical, f.obuf_within _ hu h.obuf_legal.fits⟩
  rw [f.others]
  exact (h.setDbuf t.dbuf hd f.dbuf_draw).setObuf t.obuf ho f.obuf_draw

/-- A host write of bytes that exist (R30). -/
protected theorem writeBuffer (h : s.Inv) (sp : Space) (addr : Nat) (bs : List Byte)
    (hb : bs = [] ∨ addr + bs.length ≤ s.capacity sp) :
    (s.setBuffer sp ((s.buffer sp).writeBytes addr bs)).Inv := by
  cases sp with
  | nbuf =>
    have hd : (s.nbuf.writeBytes addr bs).draw < s.draws := by
      rw [Memory.writeBytes_draw]
      exact h.draws_made.1
    exact { h with
      nbuf_legal := h.nbuf_legal.writeBytes addr bs hb
      draws_made := ⟨hd, h.draws_made.2⟩ }
  | dbuf => exact h.setDbuf _ (h.dbuf_legal.writeBytes addr bs hb) (Memory.writeBytes_draw ..)
  | obuf => exact h.setObuf _ (h.obuf_legal.writeBytes addr bs hb) (Memory.writeBytes_draw ..)

/-! ### The commands keep the invariant -/

protected theorem hashCommand (h : s.Inv) (p : Purpose) : (Machine.hashCommand p s).Inv := by
  rcases hashCommand_cases p s with e | ⟨i, c, e⟩ | ⟨d, e⟩ <;> rw [e]
  · exact h.raise _ (by decide)
  · exact h.raise _ nofun
  · exact (h.setResult d).complete .ok

protected theorem keygenCommand (h : s.Inv) : (Machine.keygenCommand s).Inv := by
  rcases keygenCommand_cases s with e | ⟨i, c, e⟩ | ⟨k, e⟩ <;> rw [e]
  · exact h.raise _ (by decide)
  · exact h.raise _ nofun
  · exact (h.setKeyResult k).complete .ok

protected theorem cryptCommand (h : s.Inv) (dir : Direction) : (Machine.cryptCommand dir s).Inv := by
  rcases cryptCommand_cases dir s with e | ⟨hl, e⟩ <;> rw [e]
  · exact h.raise _ (by decide)
  · exact (h.setDbuf _ (h.dbuf_legal.crypt _ _ _ _ _ hl) (crypt_draw ..)).complete .ok

protected theorem decompCommand (h : s.Inv) : (Machine.decompCommand s).Inv := by
  rcases decompCommand_cases s with ⟨r, hr, e⟩ | ⟨bs, -, -, hl, e⟩ <;> rw [e]
  · exact h.raise r (ne_of_mem_of_not_mem hr (by decide))
  · have ho := h.setObuf _ (h.obuf_legal.writeBytes 0 bs (.inr (by omega))) (Memory.writeBytes_draw ..)
    have hn : (BitVec.ofNat 32 bs.length).toNat ≤ s.geom.obufSize := by
      rw [BitVec.toNat_ofNat]
      exact (Nat.mod_le _ _).trans hl
    exact (ho.setOlen _ hn).complete .ok

protected theorem extractCommand (h : s.Inv) : (Machine.extractCommand s).Inv := by
  obtain ⟨-, -, -, hobuf, -⟩ := h.geom_legal
  rcases extractCommand_cases s with ⟨r, hr, e⟩ | ⟨c, e⟩ | e | ⟨he, r, hr, e⟩ | ⟨he, t, ht, e⟩ <;> rw [e]
  · exact h.raise r (ne_of_mem_of_not_mem hr (by decide))
  · exact (h.setOlen 0 (Nat.zero_le _)).complete c
  · have ho := h.setObuf _ (h.obuf_legal.write 0 0x00 hobuf) rfl
    exact (ho.setOlen 1 hobuf).complete .ok
  · exact (h.spoilBuffers he.region_fits he.file_fits).raise r (ne_of_mem_of_not_mem hr (by decide))
  · have hi := h.of_extractFrame ht he.region_fits he.file_fits
    have hu : t.usize.toNat ≤ t.geom.obufSize := by
      rw [ht.others]
      exact he.file_fits
    exact (hi.setOlen t.usize hu).complete .ok

protected theorem exec {t : State} (h : s.Inv) (i : Instr) (e : Machine.exec i s = .next t) : t.Inv := by
  rcases exec_cases i s t e with ⟨-, p, rfl⟩ | ⟨-, dir, rfl⟩ | ⟨-, rfl⟩ | ⟨-, rfl⟩ | ⟨-, rfl⟩
  · exact h.hashCommand p
  · exact h.cryptCommand dir
  · exact h.keygenCommand
  · exact h.extractCommand
  · exact h.decompCommand

protected theorem issueCommand {t : State} (h : s.Inv) (w : Word) (e : Machine.issueCommand w s = .next t) : t.Inv := by
  rcases issueCommand_cases w s with ⟨i, hi⟩ | ⟨v, hv⟩
  · exact h.exec i (hi.symm.trans e)
  · rw [hv] at e
    injection e with e
    subst e
    exact h.raise _ nofun

/-- Every move that goes on keeps the invariant. -/
protected theorem hostAccess {t : State} (h : s.Inv) (a : HostAccess) (e : Machine.hostAccess a s = .next t) : t.Inv := by
  rcases hostAccess_next a s t e with ⟨off, size, v, -, -, -, hc⟩ | ⟨off, size, v, -, -, -, rfl⟩ | ⟨off, size, -, -, rfl⟩ |
    ⟨sp, addr, bs, -, hm, rfl⟩ | ⟨sp, addr, n, -, -, rfl⟩ | ⟨-, rfl⟩
  · exact h.issueCommand v hc
  · exact h.regWrite off v
  · exact h.pushReply _
  · refine h.writeBuffer sp addr bs ?_
    exact (s.fits_of_missingAddress sp addr bs.length hm).imp_left List.eq_nil_of_length_eq_zero
  · exact h.pushReply _
  · exact s.pulseReset_inv h.geom_legal

end State.Inv

/-! ### The obligations on the invariant -/

/-- Settles O60: with no move left the state stays; a move keeps the invariant of the state without it. -/
theorem stepKeepsTheInvariant : Obligations.StepKeepsTheInvariant := by
  intro s t h e
  cases hs : s.script with
  | nil =>
    rw [step_nil s hs] at e
    injection e with e
    exact e ▸ h
  | cons a rest =>
    rw [step_of_script hs] at e
    exact (h.setScript rest).hostAccess a e

/-- The engine's capacities are in the ranges of R7, whatever they are. -/
theorem Config.geometry_wf : Config.geometry.wf := by
  have hd := Config.dbufSizeLessOne.isLt
  have ho := Config.obufSizeLessOne.isLt
  simp only [Geometry.wf, Config.geometry]
  omega

/-- Settles O59: the state right after reset is one the reset input makes. -/
theorem resetMeetsTheInvariant : Obligations.ResetMeetsTheInvariant := by
  unfold Obligations.ResetMeetsTheInvariant
  rw [State.reset_eq_pulseReset]
  exact State.pulseReset_inv _ Config.geometry_wf

end Sys2Proof.Machine
end

section
/-! The obligations on host moves, on reset and on what a command may write. -/

namespace Sys2Proof.Machine

/-- Settles O9: the port writes the bytes in a row, and a read after that is `Memory.read_writeBytes`. -/
theorem hostBufferWriteLandsByteForByte : Obligations.HostBufferWriteLandsByteForByte := by
  intro s sp addr bs rest hs hfit
  have hstep := (step_of_script hs).trans (hostAccess_bufWrite (s.setScript rest) sp addr bs (by simpa using hfit))
  refine ⟨_, hstep, fun a => ?_, fun sp' hne => ?_, State.setBuffer_others ..⟩
  · rw [State.setBuffer_buffer, if_pos rfl, Memory.read_writeBytes, State.setScript_buffer]
  · rw [State.setBuffer_buffer, if_neg hne, State.setScript_buffer]

/-- Settles O56: each command's frame names every field it may write. -/
theorem commandsWriteOnlyTheirState : Obligations.CommandsWriteOnlyTheirState := by
  intro i s t h
  rcases exec_cases i s t h with ⟨hi, p, rfl⟩ | ⟨hi, dir, rfl⟩ | ⟨rfl, rfl⟩ | ⟨rfl, rfl⟩ | ⟨rfl, rfl⟩
  · obtain ⟨st, e, v, hf⟩ := hashCommand_frame p s
    simp only [List.mem_cons, List.not_mem_nil, or_false] at hi
    rcases hi with rfl | rfl | rfl <;> simp [hf]
  · obtain ⟨st, e, m, hf⟩ := cryptCommand_frame dir s
    simp only [List.mem_cons, List.not_mem_nil, or_false] at hi
    rcases hi with rfl | rfl <;> simp [hf]
  · obtain ⟨st, e, k, v, hf⟩ := keygenCommand_frame s
    simp [hf]
  · obtain ⟨st, e, n, d, o, k, hf⟩ := extractCommand_frame s
    simp [hf]
  · obtain ⟨st, e, n, m, hf⟩ := decompCommand_frame s
    simp [hf]

/-- Settles O5: the write, then the read of the state it leaves. -/
theorem operandRegisterWriteThenRead : Obligations.OperandRegisterWriteThenRead := by
  intro s off v rest hoff hs
  have hal : off % 4 = 0 ∧ off ≠ 0 := by
    simp only [Spec.operandOffsets, List.mem_cons, List.not_mem_nil, or_false] at hoff
    omega
  set s1 := s.setScript (.regRead off 4 :: rest)
  set t := regWrite s1 off v with ht
  have hw : step s = .next t := (step_of_script hs).trans (hostAccess_regWrite s1 off v hal.1 hal.2)
  have hts : t.script = .regRead off 4 :: rest := regWrite_script s1 off v
  have hr := (step_of_script hts).trans (hostAccess_regRead (t.setScript rest) off hal.1)
  have hval (o : Nat) := registerValue_regWrite s1 off v hoff o
  refine ⟨t, _, hw, hr, rfl, ?_, fun o ho => ?_, ?_⟩
  · have hself := (hval off).trans (if_pos rfl)
    rw [State.pushReply_replies, registerValue_setScript, hself, State.setScript_replies, ht, regWrite_others]
    rfl
  · exact (hval o).trans (if_neg ho)
  · simp only [State.pushReply_table, State.pushReply_nbuf]
    rw [ht, regWrite_others]
    exact ⟨rfl, rfl, rfl, rfl, rfl, rfl⟩

/-- Settles O6. -/
theorem registerReadReturnsTheValueOnly : Obligations.RegisterReadReturnsTheValueOnly := by
  intro s off rest hal hs
  rw [step_of_script hs, hostAccess_regRead _ off hal]
  rfl

/-- Settles O7: none of these offsets is an operand register's. -/
theorem writesToReadOnlyAndReservedAreIgnored : Obligations.WritesToReadOnlyAndReservedAreIgnored := by
  intro s off v rest hal hoff hs
  have hne : off ≠ 0 := by
    rintro rfl
    revert hoff
    decide
  have hno : off ∉ [0x14, 0x18, 0x1C, 0x20, 0x24, 0x28, 0x2C, 0x30, 0x34] := by
    simp only [List.mem_cons, List.not_mem_nil, or_false] at hoff ⊢
    omega
  rw [step_of_script hs, hostAccess_regWrite _ off v hal hne, regWrite_ignored _ off v hno]
  rfl

/-- Settles O8. -/
theorem misalignedOrNarrowRegisterAccessIsRefused : Obligations.MisalignedOrNarrowRegisterAccessIsRefused := by
  intro s off size v rest hbad hs
  rcases hs with hs | hs
  · rw [step_of_script hs, hostAccess_regWrite_refused _ off size v hbad]
  · rw [step_of_script hs, hostAccess_regRead_refused _ off size hbad]

/-- Settles O10. -/
theorem hostBufferReadReturnsTheBytes : Obligations.HostBufferReadReturnsTheBytes := by
  intro s sp addr n rest hs hfit
  rw [step_of_script hs, hostAccess_bufRead _ sp addr n (by simpa using hfit), Memory.readBytes_eq_bytes,
    State.setScript_buffer]
  rfl

/-- Settles O11: a nonempty access past the capacity misses an address, and the first one is the larger of the start and the
capacity. -/
theorem hostAccessBeyondABufferFaults : Obligations.HostAccessBeyondABufferFaults := by
  intro s sp addr bs n rest hs hn hcap
  have hmiss : (s.setScript rest).missingAddress sp addr n =
      some (if addr < s.capacity sp then s.capacity sp else addr) := by
    rw [State.missingAddress_eq_some _ sp addr n (by omega) (by simpa using hcap), State.setScript_capacity]
    congr 1
    split <;> omega
  rcases hs with ⟨hs, rfl⟩ | hs
  · rw [step_of_script hs, hostAccess_bufWrite_missing _ sp addr bs _ hmiss]
  · rw [step_of_script hs, hostAccess_bufRead_missing _ sp addr n _ hmiss]

/-- A move that exists goes on. -/
theorem hostAccess_of_moveExists (s : State) (a : HostAccess) (h : s.moveExists a = true) : ∃ t, hostAccess a s = .next t := by
  cases a with
  | regWrite off size v =>
    obtain ⟨hal, rfl⟩ := (wordAligned_iff off size).1 h
    by_cases h0 : off = 0
    · subst h0
      exact issueCommand_next v s
    · exact ⟨_, hostAccess_regWrite s off v hal h0⟩
  | regRead off size =>
    obtain ⟨hal, rfl⟩ := (wordAligned_iff off size).1 h
    exact ⟨_, hostAccess_regRead s off hal⟩
  | bufWrite sp addr bs => exact ⟨_, hostAccess_bufWrite s sp addr bs (of_decide_eq_true h)⟩
  | bufRead sp addr n => exact ⟨_, hostAccess_bufRead s sp addr n (of_decide_eq_true h)⟩
  | reset => exact ⟨_, rfl⟩

/-- Which moves exist depends on the capacities alone, not on the script. -/
theorem State.moveExists_setScript (s : State) (l : List HostAccess) (a : HostAccess) :
    (s.setScript l).moveExists a = s.moveExists a := by
  cases a <;> simp only [State.moveExists, State.setScript_capacity]

/-- Settles O12. -/
theorem existingMovesNeverStop : Obligations.ExistingMovesNeverStop := by
  intro s h
  cases hs : s.script with
  | nil => exact ⟨s, step_nil s hs⟩
  | cons a rest =>
    rw [step_of_script hs]
    exact hostAccess_of_moveExists (s.setScript rest) a ((s.moveExists_setScript rest a).trans (h a rest hs))

/-- Settles O13. -/
theorem resetLeavesZeroRegistersAndTheTable : Obligations.ResetLeavesZeroRegistersAndTheTable :=
  ⟨fun off _ => registerValue_reset off, rfl, rfl, rfl, rfl, fun _ => ⟨rfl, rfl, rfl⟩⟩

/-- Settles O14. -/
theorem resetMoveResetsTheEngine : Obligations.ResetMoveResetsTheEngine := by
  intro s rest hs
  exact ⟨_, step_of_script hs, fun off _ => registerValue_pulseReset _ off, rfl, fun _ => ⟨rfl, rfl, rfl⟩, rfl, rfl, rfl, rfl⟩

end Sys2Proof.Machine
end

section
/-! The command word (R80 to R86): decoding is the inverse of encoding, and the fields of R81 say which words are commands. -/

namespace Sys2Proof

/-! ### The table of the eight words -/

/-- What the lookup finds stands in the table, under the word looked up. -/
theorem mem_of_lookupCommand {rows : List (Word × Instr)} {w : Word} {i : Instr} (h : lookupCommand rows w = some i) :
    (w, i) ∈ rows := by
  induction rows with
  | nil => cases h
  | cons row rows ih =>
    simp only [lookupCommand] at h
    split at h
    · rename_i hw
      injection h with hi
      subst hw hi
      exact .head _
    · exact .tail _ (ih h)

/-- The words listed in R82 are the ones R81 puts together. -/
theorem commandTable_eq_encode : ∀ row ∈ commandTable, row.1 = encode row.2 := by decide

/-! ### Decoding inverts encoding -/

theorem decode_encode (i : Instr) : decode (encode i) = .ok i := by
  cases i <;> decide

/-- A word is a command's encoding or is rejected by name (R84, R85). -/
theorem decode_cases (w : Word) : (∃ i, w = encode i) ∨ decode w = .error (.illegalCommand w) := by
  unfold decode
  split
  · rename_i i h
    exact .inl ⟨i, commandTable_eq_encode _ (mem_of_lookupCommand h)⟩
  · exact .inr rfl

theorem decode_eq_ok_iff (w : Word) (i : Instr) : decode w = .ok i ↔ w = encode i := by
  constructor
  · intro h
    rcases decode_cases w with ⟨j, rfl⟩ | herr
    · rw [decode_encode] at h
      injection h with h
      rw [h]
    · cases herr.symm.trans h
  · rintro rfl
    exact decode_encode i

/-! ### The fields of a word -/

/-- The word with these fields (R81). -/
def CommandFields.toWord (f : CommandFields) : Word := (f.reserved ++ f.purpose) ++ f.opcode

/-- Cutting a word into its fields loses nothing (R81). -/
theorem CommandFields.toWord_ofWord (w : Word) : (CommandFields.ofWord w).toWord = w := by
  have hhigh : w.extractLsb' 10 22 ++ w.extractLsb' 8 2 = w.extractLsb' 8 24 :=
    BitVec.extractLsb'_append_extractLsb'_eq_extractLsb' rfl
  have hall : w.extractLsb' 8 24 ++ w.extractLsb' 0 8 = w.extractLsb' 0 32 :=
    BitVec.extractLsb'_append_extractLsb'_eq_extractLsb' rfl
  calc (w.extractLsb' 10 22 ++ w.extractLsb' 8 2) ++ w.extractLsb' 0 8
      = w.extractLsb' 0 32 := by rw [hhigh, hall]
    _ = w := BitVec.extractLsb'_eq_self

/-- The fields of a command's word (R82). -/
def Instr.fields (i : Instr) : CommandFields := { opcode := i.opcode, purpose := i.purposeField, reserved := 0 }

theorem Instr.toWord_fields (i : Instr) : i.fields.toWord = encode i := rfl

/-- The fields of a command's word are its own and legal (R81, R82). -/
theorem encodedFields (i : Instr) : Laws.EncodedFields.Statement i := by
  cases i with
  | hashA => exact Laws.EncodedFields.hashA
  | hashB => exact Laws.EncodedFields.hashB
  | hashK => exact Laws.EncodedFields.hashK
  | decrypt => exact Laws.EncodedFields.decrypt
  | encrypt => exact Laws.EncodedFields.encrypt
  | keygen => exact Laws.EncodedFields.keygen
  | extract => exact Laws.EncodedFields.extract
  | decomp => exact Laws.EncodedFields.decomp

/-- `HASH` has a command for each purpose but 0 (R82, R85). -/
theorem exists_hash_of_purpose (p : BitVec 2) (h : p ≠ 0) :
    ∃ i : Instr, i.fields = { opcode := 0x01, purpose := p, reserved := 0 } := by
  have hp : p = 1 ∨ p = 2 ∨ p = 3 := by bv_omega
  rcases hp with rfl | rfl | rfl
  · exact ⟨.hashA, rfl⟩
  · exact ⟨.hashB, rfl⟩
  · exact ⟨.hashK, rfl⟩

/-- The opcodes from 2 to 6 have one command each, with purpose 0 (R82). -/
theorem exists_command_of_opcode (o : BitVec 8) (hlo : 0x02 ≤ o) (hhi : o ≤ 0x06) :
    ∃ i : Instr, i.fields = { opcode := o, purpose := 0, reserved := 0 } := by
  have ho : o = 0x02 ∨ o = 0x03 ∨ o = 0x04 ∨ o = 0x05 ∨ o = 0x06 := by bv_omega
  rcases ho with rfl | rfl | rfl | rfl | rfl
  · exact ⟨.decrypt, rfl⟩
  · exact ⟨.encrypt, rfl⟩
  · exact ⟨.keygen, rfl⟩
  · exact ⟨.extract, rfl⟩
  · exact ⟨.decomp, rfl⟩

/-- Legal fields are some command's (R82, R85). -/
theorem CommandFields.exists_command_of_wellFormed (f : CommandFields) (h : f.wellFormed = true) :
    ∃ i : Instr, i.fields = f := by
  obtain ⟨o, p, r⟩ := f
  simp only [wellFormed, Bool.and_eq_true, Bool.or_eq_true, beq_iff_eq, bne_iff_ne, decide_eq_true_eq] at h
  obtain ⟨rfl, ⟨rfl, hp⟩ | ⟨⟨hlo, hhi⟩, rfl⟩⟩ := h
  · exact exists_hash_of_purpose p hp
  · exact exists_command_of_opcode o hlo hhi

/-- The words with legal fields are the commands' words. -/
theorem wellFormed_ofWord_iff (w : Word) : (CommandFields.ofWord w).wellFormed = true ↔ ∃ i, w = encode i := by
  constructor
  · intro h
    obtain ⟨i, hi⟩ := CommandFields.exists_command_of_wellFormed _ h
    refine ⟨i, ?_⟩
    rw [← CommandFields.toWord_ofWord w, ← hi, Instr.toWord_fields]
  · rintro ⟨i, rfl⟩
    exact (encodedFields i).2

/-- Every word without legal fields is rejected by name (R84, R85). -/
theorem decode_of_not_wellFormed (w : Word) (h : (CommandFields.ofWord w).wellFormed = false) :
    decode w = .error (.illegalCommand w) := by
  refine (decode_cases w).resolve_left fun hw => ?_
  rw [(wellFormed_ofWord_iff w).2 hw] at h
  cases h

/-! ### The obligations -/

/-- Settles O1: decoding inverts encoding, and the words with legal fields are the encodings. -/
theorem decodeAndEncodeAgreeOnEveryWord : Obligations.DecodeAndEncodeAgreeOnEveryWord := by
  intro w
  refine ⟨decode_eq_ok_iff w, ?_, decode_of_not_wellFormed w⟩
  rw [wellFormed_ofWord_iff]
  exact exists_congr fun i => (decode_eq_ok_iff w i).symm

/-- Settles O2: each legal word is put together from the fields of its command; each of the others has an illegal field. -/
theorem wordsOfTheOpcodeMapDecode : Obligations.WordsOfTheOpcodeMapDecode :=
  ⟨decode_encode .hashA, decode_encode .hashB, decode_encode .hashK, decode_encode .decrypt, decode_encode .encrypt,
    decode_encode .keygen, decode_encode .extract, decode_encode .decomp,
    decode_of_not_wellFormed _ (by decide), decode_of_not_wellFormed _ (by decide),
    decode_of_not_wellFormed _ (by decide), decode_of_not_wellFormed _ (by decide)⟩

end Sys2Proof
end

section
/-! A `CMD` write as a step (R27, R84). -/

namespace Sys2Proof.Machine

/-- An aligned write to `CMD` issues the word (R27). -/
theorem hostAccess_cmd (w : Word) (s : State) : hostAccess (.regWrite 0x00 4 w) s = issueCommand w s := rfl

/-- No command touches the host's moves (R33). -/
theorem exec_script (i : Instr) (s t : State) (h : exec i s = .next t) : t.script = s.script := by
  obtain ⟨-, -, -, -, -, -, -, -, -, -, -, hscript, -⟩ := commandsWriteOnlyTheirState i s t h
  exact hscript

/-- Settles O3: the step is the write, the write issues the decoded command, and the command keeps the script. -/
theorem stepRunsTheDecodedCommand : Obligations.StepRunsTheDecodedCommand := by
  intro s w i rest hs hw _
  have hstep : step s = exec i { s with script := rest } := by
    rw [step_cons s _ rest hs, hostAccess_cmd, issueCommand_of_decode w i _ hw]
  obtain ⟨t, ht⟩ := exec_next i { s with script := rest }
  exact ⟨hstep, t, ht, exec_script i _ t ht⟩

end Sys2Proof.Machine
end

section
/-! The generator of the Cipher Table (R100): the word each slot is drawn as, and the seeds in closed form. -/

namespace Sys2Proof.Machine

/-! ### The generator -/

/-- The `i`-th pair of draws after `seed`, as a table word (R100). -/
def drawnWord (seed i : Nat) : Word := joinHalves (lcgStep^[2 * i + 1] seed) (lcgStep^[2 * i + 2] seed)

/-- Draws continue one another: the pairs after `m` pairs are the later pairs of the one generator. -/
theorem drawnWord_iterate (seed m i : Nat) : drawnWord (lcgStep^[2 * m] seed) i = drawnWord seed (m + i) := by
  have hfirst : 2 * i + 1 + 2 * m = 2 * (m + i) + 1 := by omega
  have hsecond : 2 * i + 2 + 2 * m = 2 * (m + i) + 2 := by omega
  rw [drawnWord, ← Function.iterate_add_apply, ← Function.iterate_add_apply, hfirst, hsecond, drawnWord]

/-- From the start value the model's draws are the statements' own (R100). -/
theorem drawnWord_lcgSeed (i : Nat) :
    drawnWord lcgSeed i =
      BitVec.ofNat 32 (Spec.seedAfter (2 * i + 1) % 2 ^ 16 * 2 ^ 16 + Spec.seedAfter (2 * i + 2) % 2 ^ 16) := rfl

/-- The seed after `n` steps without iteration: the affine step composed `n` times and reduced once. -/
def closedSeed (n : Nat) : Nat := (0x00100001 * 125 ^ n + 3 * ((125 ^ n - 1) / 124)) % 0x2AAAAB

/-- The closed form is the generator's (R100, R101): its quotient is the geometric sum that the constants 3 add up to. -/
theorem seedAfter_eq_closedSeed (n : Nat) : Spec.seedAfter n = closedSeed n := by
  rw [closedSeed, ← Nat.geomSum_eq (m := 125) (by omega) n]
  induction n with
  | zero => rfl
  | succ n ih =>
    have hstep : Spec.seedAfter (n + 1) = (Spec.seedAfter n * 125 + 3) % 0x2AAAAB := Function.iterate_succ_apply' ..
    rw [hstep, ih, geom_sum_succ, pow_succ]
    omega

/-! ### The inner loop: the slots of one base index -/

/-- The inner loop leaves the seed two draws further for each slot. -/
theorem drawSlots_seed (n seed : Nat) : (drawSlots n seed).2 = lcgStep^[2 * n] seed := by
  induction n generalizing seed with
  | zero => rfl
  | succ n ih => exact ih (lcgStep (lcgStep seed))

/-- Slot `k` of a row is the `k`-th pair of draws. -/
theorem drawSlots_getD (n seed k : Nat) (hk : k < n) : (drawSlots n seed).1.getD k 0 = drawnWord seed k := by
  induction n generalizing seed k with
  | zero => omega
  | succ n ih =>
    cases k with
    | zero => rfl
    | succ k =>
      calc (drawSlots (n + 1) seed).1.getD (k + 1) 0
          = drawnWord (lcgStep^[2 * 1] seed) k := ih _ k (by omega)
        _ = drawnWord seed (k + 1) := by rw [drawnWord_iterate, Nat.add_comm]

/-! ### The outer loop: the rows -/

@[simp] theorem drawRows_length (n seed : Nat) : (drawRows n seed).length = n := by
  induction n generalizing seed with
  | zero => rfl
  | succ n ih => exact congrArg (· + 1) (ih _)

/-- Row `b` is drawn after five slots for each row before it. -/
theorem drawRows_getElem (n seed b : Nat) (hb : b < (drawRows n seed).length) :
    (drawRows n seed)[b] = (drawSlots 5 (lcgStep^[2 * (5 * b)] seed)).1 := by
  induction n generalizing seed b with
  | zero => exact absurd hb (Nat.not_lt_zero b)
  | succ n ih =>
    cases b with
    | zero => rfl
    | succ b =>
      have hseed : lcgStep^[2 * (5 * b)] (drawSlots 5 seed).2 = lcgStep^[2 * (5 * (b + 1))] seed := by
        rw [drawSlots_seed, ← Function.iterate_add_apply]
        congr 1
      rw [← hseed]
      exact ih _ b (Nat.lt_of_succ_lt_succ hb)

/-! ### The blocks of the table -/

@[simp] theorem tableBlock_length (k : Nat) : (tableBlock k).length = 256 :=
  (List.length_map _).trans (drawRows_length 256 lcgSeed)

/-- Block `k` holds slot `k` of each base index. -/
theorem tableBlock_getD (b k : Nat) (hb : b < 256) (hk : k < 5) :
    (tableBlock k).getD b 0 = drawnWord lcgSeed (5 * b + k) := by
  have hlen : b < (drawRows 256 lcgSeed).length := by simpa using hb
  calc (tableBlock k).getD b 0
      = (drawRows 256 lcgSeed)[b].getD k 0 := by
        rw [List.getD_eq_getElem _ _ (by simpa using hb)]
        exact List.getElem_map _
    _ = drawnWord (lcgStep^[2 * (5 * b)] lcgSeed) k := by rw [drawRows_getElem, drawSlots_getD _ _ _ hk]
    _ = drawnWord lcgSeed (5 * b + k) := drawnWord_iterate ..

/-- Among blocks in a row, the one an address falls in and the place there. -/
theorem tableBlocks_getD (ks : List Nat) (b j : Nat) (hb : b < 256) (hj : j < ks.length) :
    (ks.flatMap tableBlock).getD (b + 0x100 * j) 0 = (tableBlock ks[j]).getD b 0 := by
  induction ks generalizing j with
  | nil => exact absurd hj (Nat.not_lt_zero j)
  | cons k ks ih =>
    rw [List.flatMap_cons]
    cases j with
    | zero => exact List.getD_append _ _ _ _ (by simpa using hb)
    | succ j =>
      have hnext : b + 0x100 * (j + 1) - (tableBlock k).length = b + 0x100 * j := by rw [tableBlock_length]; omega
      rw [List.getD_append_right _ _ _ _ (by rw [tableBlock_length]; omega), hnext]
      exact ih j (Nat.lt_of_succ_lt_succ hj)

/-- The table is its five blocks in a row. -/
theorem cipherTable_eq_blocks : cipherTable = (List.range 5).flatMap tableBlock := by
  simp [cipherTable, List.range_succ]

/-- The table has 1280 words (R28). -/
theorem cipherTable_length : cipherTable.length = 1280 := by simp [cipherTable]

/-! ### The obligations on the table's words -/

/-- Slot `b + 0x100 * k` holds the `(5b + k)`-th pair of draws: the block the address falls in, then the row, then the slot. -/
theorem cipherTable_getD (b k : Nat) (hb : b < 256) (hk : k < 5) :
    cipherTable.getD (b + 0x100 * k) 0 = drawnWord lcgSeed (5 * b + k) := by
  have hblock := tableBlocks_getD (List.range 5) b k hb (by simpa using hk)
  rwa [← cipherTable_eq_blocks, List.getElem_range, tableBlock_getD b k hb hk] at hblock

/-- The same slot from the seeds in closed form, which evaluates without running the generator up to it. -/
theorem cipherTable_getD_closedSeed (b k : Nat) (hb : b < 256) (hk : k < 5) :
    cipherTable.getD (b + 0x100 * k) 0 =
      joinHalves (closedSeed (2 * (5 * b + k) + 1)) (closedSeed (2 * (5 * b + k) + 2)) := by
  rw [cipherTable_getD b k hb hk, drawnWord_lcgSeed, seedAfter_eq_closedSeed, seedAfter_eq_closedSeed, joinHalves]

/-- Settles O16. -/
theorem cipherTableSlotsAreTheInterleavedDraws : Obligations.CipherTableSlotsAreTheInterleavedDraws := by
  intro b k hb hk
  rw [cipherTable_getD b k hb hk, drawnWord_lcgSeed]

/-- Settles O15: each anchor is a slot `b + 0x100 * k`, evaluated in closed form (R103). -/
theorem cipherTableAnchorValues : Obligations.CipherTableAnchorValues := by
  have slot := cipherTable_getD_closedSeed
  refine ⟨cipherTable_length, (slot 0x00 0 ?_ ?_).trans ?_, (slot 0x01 0 ?_ ?_).trans ?_, (slot 0x41 0 ?_ ?_).trans ?_,
    (slot 0xFF 0 ?_ ?_).trans ?_, (slot 0x00 1 ?_ ?_).trans ?_, (slot 0x41 1 ?_ ?_).trans ?_,
    (slot 0x00 2 ?_ ?_).trans ?_, (slot 0x00 3 ?_ ?_).trans ?_, (slot 0x41 3 ?_ ?_).trans ?_,
    (slot 0x00 4 ?_ ?_).trans ?_, (slot 0x01 4 ?_ ?_).trans ?_, (slot 0xFF 4 ?_ ?_).trans ?_⟩
  all_goals decide +kernel

end Sys2Proof.Machine
end

section
/-! No move but the reset input writes the Cipher Table (R104). -/

namespace Sys2Proof.Machine

/-- No command writes the table. -/
theorem exec_table (i : Instr) (s t : State) (h : exec i s = .next t) : t.table = s.table := by
  obtain ⟨-, -, -, -, -, -, -, -, htable, -⟩ := commandsWriteOnlyTheirState i s t h
  exact htable

/-- A `CMD` write, legal or not, leaves the table. -/
theorem issueCommand_table (w : Word) (s t : State) (h : issueCommand w s = .next t) : t.table = s.table := by
  rcases issueCommand_cases w s with ⟨i, hi⟩ | ⟨v, hv⟩
  · exact exec_table i s t (hi.symm.trans h)
  · rw [hv] at h
    injection h with h
    exact h ▸ raise_table ..

/-- Every move that goes on leaves the table, but for the reset input, which generates it. -/
theorem hostAccess_table (a : HostAccess) (s t : State) (h : hostAccess a s = .next t) :
    t.table = s.table ∨ a = .reset ∧ t.table = cipherTable := by
  rcases hostAccess_next a s t h with ⟨off, size, v, -, -, -, hc⟩ | ⟨off, size, v, -, -, -, rfl⟩ | ⟨off, size, -, -, rfl⟩ |
    ⟨sp, addr, bs, -, -, rfl⟩ | ⟨sp, addr, n, -, -, rfl⟩ | ⟨ha, rfl⟩
  · exact .inl (issueCommand_table v s t hc)
  · exact .inl (by rw [regWrite_others])
  · exact .inl (State.pushReply_table ..)
  · exact .inl (by rw [State.setBuffer_others])
  · exact .inl (State.pushReply_table ..)
  · exact .inr ⟨ha, State.pulseReset_table s⟩

/-- A step leaves the table, unless its move is the reset input, which generates it. -/
theorem step_table (s t : State) (h : step s = .next t) :
    t.table = s.table ∨ s.script.head? = some .reset ∧ t.table = cipherTable := by
  cases hs : s.script with
  | nil =>
    rw [step_nil s hs] at h
    injection h with h
    exact .inl (h ▸ rfl)
  | cons a rest =>
    rw [step_of_script hs] at h
    exact (hostAccess_table a _ t h).imp_right fun ⟨ha, ht⟩ => ⟨congrArg some ha, ht⟩

/-- Settles O17: what a step does to the table, read in both ways. -/
theorem noStepChangesTheCipherTable : Obligations.NoStepChangesTheCipherTable := by
  refine ⟨rfl, fun s t h => ⟨?_, fun hmove => ?_⟩⟩
  · exact (step_table s t h).imp_right And.right
  · exact (step_table s t h).resolve_right fun ⟨hreset, _⟩ => hmove hreset

end Sys2Proof.Machine
end

section
/-! The preprocessing one character at a time, and the digest on natural numbers (R112, R113). -/

namespace Sys2Proof.Machine

/-! ### `Prep` -/

/-- A `/` becomes `\` (R113). -/
def swapSlash (c : Byte) : Byte := if c = slash then backslash else c

theorem swapSlash_ne_slash (c : Byte) : swapSlash c ≠ slash := by
  revert c; decide

theorem replaceSlashes_of_no_slash (n : List Byte) (h : slash ∉ n) : replaceSlashes n = n := by
  simp [replaceSlashes, h]

/-- A name with a `\` keeps its `/` (R113). -/
theorem replaceSlashes_of_backslash (n : List Byte) (h : backslash ∈ n) : replaceSlashes n = n := by
  simp [replaceSlashes, h]

/-- In a name without `\` every `/` becomes one; a name without either is no exception (R113). -/
theorem replaceSlashes_of_no_backslash (n : List Byte) (h : backslash ∉ n) : replaceSlashes n = n.map swapSlash := by
  by_cases hs : slash ∈ n
  · have htest : (n.contains slash && !n.contains backslash) = true := by simp [hs, h]
    exact if_pos htest
  · have hid : ∀ c ∈ n, swapSlash c = c := fun c hc => if_neg (ne_of_mem_of_not_mem hc hs)
    rw [replaceSlashes_of_no_slash n hs, List.map_congr_left hid, List.map_id']

/-- `Prep` on one character, given whether every `/` is to become `\` (R113). -/
def prepByte (swap : Bool) (c : Byte) : Byte := upperCase (if swap then swapSlash c else c)

theorem prepByte_of_ne_slash (swap : Bool) (c : Byte) (h : c ≠ slash) : prepByte swap c = upperCase c := by
  rw [prepByte, swapSlash, if_neg h, ite_self]

theorem prepByte_lt (swap : Bool) (c : Byte) : prepByte swap c < 0x80 ↔ c < 0x80 := by
  by_cases h : c = slash
  · subst h
    revert swap
    decide
  · rw [prepByte_of_ne_slash swap c h, upperCase_lt]

theorem prepByte_of_ge (swap : Bool) (c : Byte) (h : 0x80 ≤ c) : prepByte swap c = c := by
  have hne : c ≠ slash := fun hc => absurd (hc ▸ h) (by decide)
  rw [prepByte_of_ne_slash swap c hne, upperCase_of_ge c h]

theorem prepByte_upperCase (swap : Bool) (c : Byte) : prepByte swap (upperCase c) = prepByte swap c := by
  by_cases h : c = slash
  · rw [h, (upperCase_eq_slash slash).2 rfl]
  · rw [prepByte_of_ne_slash swap c h, prepByte_of_ne_slash swap _ (mt (upperCase_eq_slash c).1 h), upperCase_idem]

/-- The model's `Prep` on one character is the statements' own (R113). -/
theorem prepByte_toNat (swap : Bool) (c : Byte) : (prepByte swap c).toNat = Spec.prepChar swap c := by
  revert swap c; decide

/-- `Prep` goes character by character once the name has told whether its `/` are to become `\` (R113). -/
theorem prep_eq_map (n : List Byte) : prep n = n.map (prepByte (decide (slash ∈ n ∧ backslash ∉ n))) := by
  by_cases h : slash ∈ n ∧ backslash ∉ n
  · rw [prep, replaceSlashes_of_no_backslash n h.2, List.map_map, decide_eq_true h]
    rfl
  · have hkeep : replaceSlashes n = n := by
      by_cases hs : slash ∈ n
      · exact replaceSlashes_of_backslash n (by_contra fun hb => h ⟨hs, hb⟩)
      · exact replaceSlashes_of_no_slash n hs
    rw [prep, hkeep, decide_eq_false h]
    rfl

/-- The model's `Prep` is the statements' own (R113). -/
theorem prepName_eq_map_prep (n : List Byte) : Spec.prepName n = (prep n).map BitVec.toNat := by
  rw [prep_eq_map, List.map_map]
  exact List.map_congr_left fun c _ => (prepByte_toNat _ c).symm

/-- `Prep` does not see case (R116). -/
theorem prep_map_upperCase (n : List Byte) : prep (n.map upperCase) = prep n := by
  have hs : slash ∈ n.map upperCase ↔ slash ∈ n := by simp [upperCase_eq_slash]
  have hb : backslash ∈ n.map upperCase ↔ backslash ∈ n := by simp [upperCase_eq_backslash]
  simp only [prep_eq_map, hs, hb, List.map_map]
  exact List.map_congr_left fun c _ => prepByte_upperCase _ c

/-- In a name without `\`, `Prep` does not see the slash style (R116). -/
theorem prep_map_swapSlash (n : List Byte) (h : backslash ∉ n) : prep (n.map swapSlash) = prep n := by
  have hs : slash ∉ n.map swapSlash := by simp [swapSlash_ne_slash]
  rw [prep, prep, replaceSlashes_of_no_slash _ hs, replaceSlashes_of_no_backslash n h]

/-! ### `Digest` -/

/-- One round of the model is one round on natural numbers (R112). -/
theorem hashRound_toNat (table : List Word) (p : Nat) (c : Byte) (s1 s2 n1 : Word)
    (h : n1 = tableEntry table (p * 256 + c.toNat) ^^^ (s1 + s2)) :
    Spec.hashRound table p (s1.toNat, s2.toNat) c.toNat = (n1.toNat, (mixSeed2 (c.setWidth 32 + n1) s2).toNat) := by
  have hfirst : (table.getD (p * 256 + c.toNat) 0).toNat ^^^ ((s1.toNat + s2.toNat) % 2 ^ 32) = n1.toNat := by
    rw [h, BitVec.toNat_xor, BitVec.toNat_add, tableEntry]
  have hmix : (mixSeed2 (c.setWidth 32 + n1) s2).toNat = (c.toNat + n1.toNat + s2.toNat + s2.toNat * 32 + 3) % 2 ^ 32 := by
    have hc := c.isLt
    simp only [mixSeed2, BitVec.toNat_add, BitVec.toNat_setWidth, BitVec.toNat_shiftLeft, BitVec.ofNat_eq_ofNat,
      BitVec.toNat_ofNat, Nat.shiftLeft_eq]
    omega
  simp only [Spec.hashRound, hfirst, hmix]

/-- The rounds of the model are the fold of the statements (R112). -/
theorem digestRounds_eq_foldl (table : List Word) (p : Nat) (n : List Byte) (s1 s2 : Word) :
    digestRounds table p n s1 s2 =
      BitVec.ofNat 32 ((n.map BitVec.toNat).foldl (Spec.hashRound table p) (s1.toNat, s2.toNat)).1 := by
  induction n generalizing s1 s2 with
  | nil => simp [digestRounds]
  | cons c rest ih =>
    rw [List.map_cons, List.foldl_cons, hashRound_toNat table p c s1 s2 _ rfl]
    exact ih _ _

/-- `Hash` of an ASCII name is the statements' own (R112, R113). -/
theorem hashName_of_ascii (table : List Word) (p : Purpose) (n : List Byte) (h : ∀ c ∈ n, c < 0x80) :
    hashName table p n = .ok (Spec.hashOf table (Config.purposeNumber p) n) := by
  have hscan : firstUnsupported 0 (prep n) = none := by
    rw [firstUnsupported_eq_none, prep_eq_map]
    exact List.forall_mem_map.2 fun c hc => (prepByte_lt _ c).2 (h c hc)
  have hdigest : digestRounds table (Config.purposeNumber p) (prep n) Config.hashSeed1 Config.seed2 =
      Spec.hashOf table (Config.purposeNumber p) n := by
    rw [digestRounds_eq_foldl, ← prepName_eq_map_prep]
    rfl
  simp only [hashName, digest, hscan, hdigest]

/-- `Hash` of a name with a byte of `0x80` or above names the first one as it stands in the name (R114, R205). -/
theorem hashName_of_unsupported (table : List Word) (p : Purpose) (pre post : List Byte) (c : Byte)
    (hpre : ∀ x ∈ pre, x < 0x80) (hc : 0x80 ≤ c) :
    hashName table p (pre ++ c :: post) = .error ⟨.unsupportedCharacter, charInfo pre.length c⟩ := by
  have hscan : firstUnsupported 0 (prep (pre ++ c :: post)) = some (pre.length, c) := by
    rw [prep_eq_map, List.map_append, List.map_cons, prepByte_of_ge _ c hc, firstUnsupported_append _ _ _ _ ?_ hc]
    · rw [List.length_map, Nat.zero_add]
    · exact List.forall_mem_map.2 fun x hx => (prepByte_lt _ x).2 (hpre x hx)
  simp only [hashName, digest, hscan]

/-- Settles O21: `Prep` sees neither difference, and the digest is of the prepared name. -/
theorem digestIgnoresCaseAndSlashStyle : Obligations.DigestIgnoresCaseAndSlashStyle := by
  intro table p n
  exact ⟨congrArg (digest table _) (prep_map_upperCase n), fun h => congrArg (digest table _) (prep_map_swapSlash n h)⟩

/-- Settles O23: the vectors, evaluated. -/
theorem knownDigests : Obligations.KnownDigests := by
  refine ⟨?_, ?_, ?_, ?_⟩
  all_goals decide +kernel

end Sys2Proof.Machine
end

section
/-! The `HASH` commands: what each answers, and what it sees (R110, R116). -/

namespace Sys2Proof.Machine

/-- What `HASH` answers: the digest, or the fault it raises (R110, R116). -/
def hashAnswer (p : Purpose) (s : State) : Except Raised Word :=
  if s.nameTooLong then .error ⟨.illegalOperand, registerInfo Config.offNlen⟩ else hashName s.table p s.name

theorem hashAnswer_of_long (p : Purpose) (s : State) (h : s.geom.nameMax < s.nlen.toNat) :
    hashAnswer p s = .error ⟨.illegalOperand, registerInfo Config.offNlen⟩ :=
  if_pos (s.nameTooLong_iff.2 h)

theorem hashAnswer_of_fits (p : Purpose) (s : State) (h : s.nlen.toNat ≤ s.geom.nameMax) :
    hashAnswer p s = hashName s.table p (Spec.name s) := by
  have hfits : ¬ s.nameTooLong = true := by simpa [State.nameTooLong_iff] using h
  rw [hashAnswer, if_neg hfits, State.name, Memory.readBytes_eq_bytes, Spec.name]

/-- A fault is raised and nothing else changes (R203). -/
theorem hashCommand_of_error {p : Purpose} {s : State} {r : Raised} (h : hashAnswer p s = .error r) :
    hashCommand p s = raise r s := by
  unfold hashAnswer at h
  unfold hashCommand
  split at h
  · injection h with h
    rw [if_pos ‹_›, h]
  · rw [if_neg ‹_›, h]

/-- A digest goes to `RESULT` (R110). -/
theorem hashCommand_of_ok {p : Purpose} {s : State} {d : Word} (h : hashAnswer p s = .ok d) :
    hashCommand p s = complete .ok (s.setResult d) := by
  unfold hashAnswer at h
  unfold hashCommand
  split at h
  · cases h
  · rw [if_neg ‹_›, h]

/-- Each `HASH` command is `hashCommand` for the purpose in its word (R82, R87). -/
theorem exec_hash_of_purpose {i : Instr} {n : Nat}
    (h : (i, n) ∈ [(Instr.hashA, 1), (Instr.hashB, 2), (Instr.hashK, 3)]) :
    ∃ p, Config.purposeNumber p = n ∧ ∀ s, exec i s = .next (hashCommand p s) := by
  simp only [List.mem_cons, Prod.mk.injEq, List.not_mem_nil, or_false] at h
  rcases h with ⟨rfl, rfl⟩ | ⟨rfl, rfl⟩ | ⟨rfl, rfl⟩
  · exact ⟨.hashA, rfl, fun _ => rfl⟩
  · exact ⟨.hashB, rfl, fun _ => rfl⟩
  · exact ⟨.tableKey, rfl, fun _ => rfl⟩

theorem exec_hash {i : Instr} (h : i ∈ [Instr.hashA, .hashB, .hashK]) : ∃ p, ∀ s, exec i s = .next (hashCommand p s) := by
  have hn : ∃ n, (i, n) ∈ [(Instr.hashA, 1), (Instr.hashB, 2), (Instr.hashK, 3)] := by
    simpa [exists_or] using h
  obtain ⟨n, hn⟩ := hn
  obtain ⟨p, -, hp⟩ := exec_hash_of_purpose hn
  exact ⟨p, hp⟩

/-- The answer depends on the length, the name's bytes, the capacity and the table only (R110). -/
theorem hashAnswer_congr (p : Purpose) (s s' : State) (hlen : s.nlen = s'.nlen) (hcap : s.geom.nameMax = s'.geom.nameMax)
    (htable : s.table = s'.table) (hbytes : ∀ a, a < s.nlen.toNat → s.nbuf.read a = s'.nbuf.read a) :
    hashAnswer p s = hashAnswer p s' := by
  have hname : s.name = s'.name := by
    rw [State.name, State.name, ← hlen]
    exact Memory.readBytes_congr _ _ _ _ fun a _ ha => hbytes a (by omega)
  have hlong : s.nameTooLong = s'.nameTooLong := by rw [State.nameTooLong, State.nameTooLong, hlen, hcap]
  rw [hashAnswer, hashAnswer, hname, hlong, htable]

/-- What a fault writes, and that it writes nothing else (R203). -/
theorem raise_eq (r : Raised) (s : State) :
    raise r s = { s with status := statusWord r.cause.code true true, einfo := r.info } := rfl

/-- `KEYGEN` tests the length as `HASH` does (R135). -/
theorem keygenCommand_of_long (s : State) (h : s.geom.nameMax < s.nlen.toNat) :
    keygenCommand s = raise ⟨.illegalOperand, registerInfo Config.offNlen⟩ s :=
  if_pos (s.nameTooLong_iff.2 h)

/-- No fault leaves the status word of `OK` (R25, R203). -/
theorem statusWord_raise_ne_ok (c : EngineFault) : statusWord c.code true true ≠ 0x00000001 := by
  intro h
  have herr := statusErr_raise c
  rw [h] at herr
  exact absurd herr (by decide)

/-! ### The obligations -/

/-- Settles O18: the answer of an ASCII name that fits is its digest. -/
theorem hashCommandsWriteTheDigest : Obligations.HashCommandsWriteTheDigest := by
  intro i n s hi hfits hascii
  obtain ⟨p, rfl, hexec⟩ := exec_hash_of_purpose hi
  have hanswer := (hashAnswer_of_fits p s hfits).trans (hashName_of_ascii s.table p _ hascii)
  rw [hexec, hashCommand_of_ok hanswer]
  rfl

/-- Settles O19: the answer is the fault of the pre-scan. -/
theorem hashReportsTheFirstUnsupportedCharacter : Obligations.HashReportsTheFirstUnsupportedCharacter := by
  intro i s pre post c hi hfits hname hpre hc
  obtain ⟨p, hexec⟩ := exec_hash hi
  have hanswer : hashAnswer p s = .error ⟨.unsupportedCharacter, charInfo pre.length c⟩ := by
    rw [hashAnswer_of_fits p s hfits, hname]
    exact hashName_of_unsupported s.table p pre post c hpre hc
  rw [hexec, hashCommand_of_error hanswer, raise_eq, statusWord_unsupportedCharacter, charInfo_eq]

/-- Settles O20: the length is tested before the name is read. -/
theorem overlongNameRaisesIllegalOperand : Obligations.OverlongNameRaisesIllegalOperand := by
  intro i s hi hlong
  have hraise : exec i s = .next (raise ⟨.illegalOperand, registerInfo Config.offNlen⟩ s) := by
    have hcmd : i ∈ [Instr.hashA, .hashB, .hashK] ∨ i = .keygen := by simpa [or_assoc] using hi
    rcases hcmd with hhash | rfl
    · obtain ⟨p, hexec⟩ := exec_hash hhash
      rw [hexec, hashCommand_of_error (hashAnswer_of_long p s hlong)]
    · exact congrArg _ (keygenCommand_of_long s hlong)
  rw [hraise, raise_eq, statusWord_illegalOperand]
  rfl

/-- Settles O22: the two states have one answer, and the answer decides how the command ends. -/
theorem hashSeesOnlyTheName : Obligations.HashSeesOnlyTheName := by
  intro i s s' hi hlen hcap htable hbytes
  obtain ⟨p, hexec⟩ := exec_hash hi
  refine ⟨_, _, hexec s, hexec s', ?_⟩
  have hsame := hashAnswer_congr p s s' hlen hcap htable hbytes
  cases hanswer : hashAnswer p s with
  | error r =>
    rw [hashCommand_of_error hanswer, hashCommand_of_error (hsame ▸ hanswer)]
    exact ⟨rfl, rfl, fun hok => absurd hok (statusWord_raise_ne_ok r.cause), fun _ => rfl⟩
  | ok d =>
    rw [hashCommand_of_ok hanswer, hashCommand_of_ok (hsame ▸ hanswer)]
    exact ⟨rfl, rfl, fun _ => rfl, fun hfault => absurd statusWord_ok hfault⟩

end Sys2Proof.Machine
end

section
/-! The cipher pass in the statements' words: its stream on natural numbers, what it sees, and its inverse (R121 to R127). -/

namespace Sys2Proof.Machine

/-! ### One round on natural numbers -/

/-- The word of the statements is the one the cipher reads (R50). -/
theorem Memory.word_eq_readWord (m : Memory) (a : Nat) : Spec.word m a = m.readWord a := by
  rw [Spec.word, ← Memory.toNat_readWord, BitVec.ofNat_toNat, BitVec.setWidth_eq]

theorem tableStep_eq_tableAdd (table : List Word) (s1 s2 : Word) : tableStep table s1 s2 = Spec.tableAdd table s1 s2 := by
  have hlow : (s1 &&& 0xFF).toNat = s1.toNat % 256 := by
    rw [BitVec.toNat_and]
    exact Nat.and_two_pow_sub_one_eq_mod _ 8
  rw [tableStep, Spec.tableAdd, tableEntry, hlow]
  rfl

/-- The `S1` update is the one of R123 on natural numbers. -/
theorem nextSeed1_eq_nextS1 (x : Word) : nextSeed1 x = Spec.nextS1 x := by
  have haddend : (0x11111111 : Word).toNat = 0x11111111 := by decide
  have hleft : ((~~~x <<< 21) + 0x11111111 : Word).toNat =
      ((2 ^ 32 - 1 - x.toNat) * 2 ^ 21 % 2 ^ 32 + 0x11111111) % 2 ^ 32 := by
    rw [BitVec.toNat_add, BitVec.toNat_shiftLeft, BitVec.toNat_not, Nat.shiftLeft_eq, haddend]
  have hright : (x >>> 11).toNat = x.toNat / 2 ^ 11 := by rw [BitVec.toNat_ushiftRight, Nat.shiftRight_eq_div_pow]
  rw [Spec.nextS1, ← hleft, ← hright, ← BitVec.toNat_or, BitVec.ofNat_toNat, BitVec.setWidth_eq]
  rfl

/-- One pass, in either direction: every whole word is exclusive-ored with the keystream of R121. -/
theorem crypt_stream (table : List Word) (dir : Direction) (key : Word) (off len : Nat) (m : Memory) :
    ∃ S1 S2 : Nat → Word, S1 0 = key ∧ S2 0 = 0xEEEEEEEE ∧ ∀ i, i < len / 4 →
      Spec.word (crypt table dir key off len m) (off + 4 * i) =
        Spec.word m (off + 4 * i) ^^^ (S1 i + Spec.tableAdd table (S1 i) (S2 i)) ∧
      S1 (i + 1) = Spec.nextS1 (S1 i) ∧
      S2 (i + 1) = plainWord dir (Spec.word m (off + 4 * i)) (Spec.word (crypt table dir key off len m) (off + 4 * i))
        + Spec.tableAdd table (S1 i) (S2 i) + (Spec.tableAdd table (S1 i) (S2 i) <<< 5) + 3 := by
  simp only [Memory.word_eq_readWord, ← tableStep_eq_tableAdd, ← nextSeed1_eq_nextS1]
  exact cryptWords_readWord table dir (len / 4) off key Config.seed2 m

/-! ### What a pass sees -/

/-- A byte's result does not depend on the words after it (R124, R125). -/
theorem cryptWords_read_of_le (table : List Word) (dir : Direction) (n k a : Nat) (s1 s2 : Word) (m : Memory) (x : Nat)
    (hk : n ≤ k) (hx : x < a + 4 * n) :
    (cryptWords table dir k a s1 s2 m).read x = (cryptWords table dir n a s1 s2 m).read x := by
  induction n generalizing k a s1 s2 m with
  | zero => rw [cryptWords_read_outside _ _ _ _ _ _ _ _ (by omega), cryptWords_read_outside _ _ _ _ _ _ _ _ (by omega)]
  | succ n ih =>
    obtain ⟨k, rfl⟩ := Nat.exists_eq_add_of_le' (Nat.one_le_of_lt hk)
    rw [cryptWords_succ, cryptWords_succ]
    exact ih _ _ _ _ _ (by omega) (by omega)

/-- The whole words after a pass depend on the whole words before it alone (R122). -/
theorem crypt_congr_words (table : List Word) (dir : Direction) (key : Word) (off len : Nat) (m m' : Memory)
    (h : ∀ x, off ≤ x → x < off + 4 * (len / 4) → m.read x = m'.read x) (x : Nat) (hx : off ≤ x)
    (hx' : x < off + 4 * (len / 4)) : (crypt table dir key off len m).read x = (crypt table dir key off len m').read x :=
  cryptWords_congr table dir (len / 4) off key Config.seed2 m m' h x hx hx'

/-- The region after a pass depends on the region before it alone: the remainder stays (R122). -/
theorem crypt_congr_region (table : List Word) (dir : Direction) (key : Word) (off len : Nat) (m m' : Memory)
    (h : ∀ x, off ≤ x → x < off + len → m.read x = m'.read x) (x : Nat) (hx : off ≤ x) (hx' : x < off + len) :
    (crypt table dir key off len m).read x = (crypt table dir key off len m').read x := by
  by_cases hword : x < off + 4 * (len / 4)
  · exact crypt_congr_words table dir key off len m m' (fun y hy hy' => h y hy (by omega)) x hx hword
  · rw [crypt_read_outside _ _ _ _ _ _ _ (by omega), crypt_read_outside _ _ _ _ _ _ _ (by omega)]
    exact h x hx hx'

/-! ### The inverse (R126, R127) -/

/-- What one direction reads is what the other writes, so both drive their stream by the plaintext word. -/
theorem plainWord_swap {dir dir' : Direction} (h : dir ≠ dir') (read written : Word) :
    plainWord dir' written read = plainWord dir read written := by
  cases dir with
  | dec =>
    cases dir' with
    | dec => exact absurd rfl h
    | enc => rfl
  | enc =>
    cases dir' with
    | dec => rfl
    | enc => exact absurd rfl h

theorem cryptWords_roundTrip (table : List Word) {dir dir' : Direction} (hdir : dir ≠ dir') (n a : Nat) (s1 s2 : Word)
    (m : Memory) (x : Nat) :
    (cryptWords table dir' n a s1 s2 (cryptWords table dir n a s1 s2 m)).read x = m.read x := by
  induction n generalizing a s1 s2 m with
  | zero => rfl
  | succ n ih =>
    by_cases hin : a ≤ x ∧ x < a + 4 * (n + 1)
    swap
    · rw [cryptWords_read_outside _ _ _ _ _ _ _ _ (by omega), cryptWords_read_outside _ _ _ _ _ _ _ _ (by omega)]
    rw [cryptWords_succ table dir]
    set ks := s1 + tableStep table s1 s2
    set w := m.readWord a
    set m₁ := m.writeWord a (w ^^^ ks)
    set t1 := nextSeed1 s1
    set t2 := mixSeed2 (plainWord dir w (w ^^^ ks)) (tableStep table s1 s2) with ht2
    set M := cryptWords table dir n (a + 4) t1 t2 m₁
    have hread : M.readWord a = w ^^^ ks := by
      rw [Memory.readWord_congr M m₁ a fun y _ hy => cryptWords_read_outside _ _ _ _ _ _ _ _ (by omega)]
      exact m.readWord_writeWord a _
    have hback : (w ^^^ ks) ^^^ ks = w := by rw [BitVec.xor_assoc, BitVec.xor_self, BitVec.xor_zero]
    rw [cryptWords_succ table dir', hread, hback, plainWord_swap hdir, ← ht2]
    by_cases hfirst : x < a + 4
    · rw [cryptWords_read_outside _ _ _ _ _ _ _ _ (by omega)]
      exact Memory.read_of_readWord _ m a (M.readWord_writeWord a w) x hin.1 hfirst
    · have hframe : ∀ y, a + 4 ≤ y → (M.writeWord a w).read y = M.read y := fun y hy =>
        M.read_writeWord_outside a w y (.inr hy)
      rw [cryptWords_congr table dir' n (a + 4) t1 t2 (M.writeWord a w) M (fun y hy _ => hframe y hy) x (by omega) (by omega),
        ih]
      exact m.read_writeWord_outside a _ x (by omega)

/-- A pass in one direction undoes the pass in the other, on every byte. -/
theorem crypt_roundTrip (table : List Word) {dir dir' : Direction} (hdir : dir ≠ dir') (key : Word) (off len : Nat) (m : Memory)
    (x : Nat) : (crypt table dir' key off len (crypt table dir key off len m)).read x = m.read x :=
  cryptWords_roundTrip table hdir (len / 4) off key Config.seed2 m x

/-- Settles O30: the update as above; `A` and `B` as products and quotients of powers of 2; at the largest `S1` the sum differs. -/
theorem seedOneUpdateIsReadExactly : Obligations.SeedOneUpdateIsReadExactly := by
  refine ⟨nextSeed1_eq_nextS1, fun x => ⟨?_, ?_⟩, 0xFFFFFFFF, by decide⟩
  · rw [BitVec.toNat_shiftLeft, Nat.shiftLeft_eq]
    omega
  · have := x.isLt
    rw [BitVec.toNat_ushiftRight, Nat.shiftRight_eq_div_pow]
    omega

end Sys2Proof.Machine
end

section
/-! `DECRYPT` and `ENCRYPT`: how each ends, and what it makes of `DBUF` (R120, R126, R128). -/

namespace Sys2Proof.Machine

/-- Each cipher command is `cryptCommand` in its direction (R120, R126). -/
theorem exec_decrypt (s : State) : exec .decrypt s = .next (cryptCommand .dec s) := rfl

theorem exec_encrypt (s : State) : exec .encrypt s = .next (cryptCommand .enc s) := rfl

theorem exec_cipher {i : Instr} (h : i ∈ [Instr.decrypt, .encrypt]) : ∃ dir, ∀ s, exec i s = .next (cryptCommand dir s) := by
  simp only [List.mem_cons, List.not_mem_nil, or_false] at h
  rcases h with rfl | rfl
  · exact ⟨.dec, exec_decrypt⟩
  · exact ⟨.enc, exec_encrypt⟩

/-- What a normal end writes, and that it writes nothing else (R202). -/
theorem complete_ok_eq (s : State) : complete .ok s = { s with status := 0x00000001, einfo := 0 } := by
  rw [complete, statusWord_ok]
  rfl

theorem cryptCommand_of_fits (dir : Direction) (s : State) (h : s.offset.toNat + s.length.toNat ≤ s.geom.dbufSize) :
    cryptCommand dir s =
      { s with dbuf := crypt s.table dir s.key s.offset.toNat s.length.toNat s.dbuf, status := 0x00000001, einfo := 0 } := by
  have hfits : ¬ s.regionOverruns = true := by rw [State.regionOverruns_iff]; omega
  rw [cryptCommand, if_neg hfits, complete_ok_eq]
  rfl

theorem cryptCommand_of_overruns (dir : Direction) (s : State) (h : s.geom.dbufSize < s.offset.toNat + s.length.toNat) :
    cryptCommand dir s = { s with status := 0x00008203, einfo := 0x00000018 } := by
  rw [cryptCommand, if_pos (s.regionOverruns_iff.2 h), raise_eq, statusWord_boundsFault]
  rfl

/-! ### The obligations -/

/-- Settles O27: the region is tested first, and the fault is precise. -/
theorem cipherRegionBeyondDbufRaisesBoundsFault : Obligations.CipherRegionBeyondDbufRaisesBoundsFault := by
  intro i s hi hover
  obtain ⟨dir, hexec⟩ := exec_cipher hi
  rw [hexec, cryptCommand_of_overruns dir s hover]

/-- Settles O24: the stream of the pass, whose plaintext word is the one written. -/
theorem decryptDeciphersTheWholeWords : Obligations.DecryptDeciphersTheWholeWords := by
  intro s hfits
  exact ⟨crypt s.table .dec s.key s.offset.toNat s.length.toNat s.dbuf, by rw [exec_decrypt, cryptCommand_of_fits .dec s hfits],
    fun a ha => crypt_read_outside _ _ _ _ _ _ a ha, crypt_stream s.table .dec s.key _ _ s.dbuf⟩

/-- Settles O25: the stream of the pass, whose plaintext word is the one read. -/
theorem encryptEnciphersTheWholeWords : Obligations.EncryptEnciphersTheWholeWords := by
  intro s hfits
  exact ⟨crypt s.table .enc s.key s.offset.toNat s.length.toNat s.dbuf, by rw [exec_encrypt, cryptCommand_of_fits .enc s hfits],
    fun a ha => crypt_read_outside _ _ _ _ _ _ a ha, crypt_stream s.table .enc s.key _ _ s.dbuf⟩

/-- One direction after the other, from a region that fits. -/
theorem cryptCommand_roundTrip {dir dir' : Direction} (hdir : dir ≠ dir') (s : State)
    (h : s.offset.toNat + s.length.toNat ≤ s.geom.dbufSize) :
    (∀ a, (cryptCommand dir' (cryptCommand dir s)).dbuf.read a = s.dbuf.read a) ∧
    cryptCommand dir' (cryptCommand dir s) =
      { s with dbuf := (cryptCommand dir' (cryptCommand dir s)).dbuf, status := 0x00000001, einfo := 0 } := by
  have hback : cryptCommand dir' (cryptCommand dir s) =
      { s with
        dbuf := crypt s.table dir' s.key s.offset.toNat s.length.toNat
          (crypt s.table dir s.key s.offset.toNat s.length.toNat s.dbuf)
        status := 0x00000001
        einfo := 0 } := by
    rw [cryptCommand_of_fits dir s h]
    exact cryptCommand_of_fits dir' _ h
  rw [hback]
  exact ⟨crypt_roundTrip s.table hdir s.key _ _ s.dbuf, rfl⟩

/-- Settles O26: the two directions are different in either order. -/
theorem cipherRoundTripRestoresDbuf : Obligations.CipherRoundTripRestoresDbuf := by
  intro i j s hij hfits
  simp only [List.mem_cons, Prod.mk.injEq, List.not_mem_nil, or_false] at hij
  rcases hij with ⟨rfl, rfl⟩ | ⟨rfl, rfl⟩
  · exact ⟨_, _, exec_encrypt s, exec_decrypt _, cryptCommand_roundTrip (by decide) s hfits⟩
  · exact ⟨_, _, exec_decrypt s, exec_encrypt _, cryptCommand_roundTrip (by decide) s hfits⟩

/-- Settles O28: a pass leaves what is outside its whole words, and its whole words see nothing outside them. -/
theorem cipherRemainderIsNeitherReadNorWritten : Obligations.CipherRemainderIsNeitherReadNorWritten := by
  intro i s m hi hfits hsame
  obtain ⟨dir, hexec⟩ := exec_cipher hi
  refine ⟨_, _, hexec s, hexec _, ?_⟩
  rw [cryptCommand_of_fits dir s hfits, cryptCommand_of_fits dir { s with dbuf := m } hfits]
  exact ⟨rfl, rfl, crypt_congr_words s.table dir s.key _ _ m s.dbuf hsame,
    fun a ha => ⟨crypt_read_outside _ _ _ _ _ _ a ha, crypt_read_outside _ _ _ _ _ _ a ha⟩⟩

/-- Settles O29: the rounds of the shorter call are the first rounds of the longer. -/
theorem cipherStreamDependsOnlyOnItsPrefix : Obligations.CipherStreamDependsOnlyOnItsPrefix := by
  intro i s len hi hfits hlen
  obtain ⟨dir, hexec⟩ := exec_cipher hi
  refine ⟨_, _, hexec s, hexec _, fun a ha => ?_⟩
  have hshort : s.offset.toNat + len.toNat ≤ s.geom.dbufSize := by omega
  rw [cryptCommand_of_fits dir s hfits, cryptCommand_of_fits dir { s with length := len } hshort]
  exact (cryptWords_read_of_le s.table dir _ _ _ s.key Config.seed2 s.dbuf a (Nat.div_le_div_right hlen) ha).symm

end Sys2Proof.Machine
end

section
/-! `EXTRACT` of a raw file: the chunks deciphered so far are the file so far (R161). -/

namespace Sys2Proof.Machine

/-! ### The path and its extent -/

/-- The entry tests of the statements are the model's (R145). -/
theorem State.enters_of_passesEntry (s : State) (h : Spec.PassesEntry s) : s.Enters where
  shift := by
    have := h.shift
    rw [← Bool.not_eq_true, State.shiftTooLarge_iff]
    omega
  existing := (s.hasFlag_iff _).2 h.existing
  archived := h.archived
  size := by
    have := h.size
    rw [BitVec.le_def]
    exact Nat.not_le.2 this
  supported := by
    rw [← Bool.not_eq_true, Bool.or_eq_true]
    exact fun hset => h.supported (hset.imp (s.hasFlag_iff _).1 (s.hasFlag_iff _).1)
  region_fits := h.region_fits
  file_fits := h.file_fits

theorem State.sectored_iff (s : State) : (s.flagCompressed || s.flagImplode) = true ↔ Spec.isSectored s := by
  rw [Bool.or_eq_true]
  exact or_congr (s.hasFlag_iff _) (s.hasFlag_iff _)

theorem exec_extract (s : State) : exec .extract s = .next (extractCommand s) := rfl

/-- A raw record whose region holds the file ends with what its chunks give (R154, R161). -/
theorem extractCommand_of_raw (s : State) (h : Spec.PassesEntry s) (hraw : ¬ Spec.isSectored s)
    (hc : s.usize.toNat ≤ s.csize.toNat) :
    extractCommand s = complete .ok ((rawChunks s.sectorCount 0 s).setOlen (rawChunks s.sectorCount 0 s).usize) := by
  rw [extractCommand_of_enters s (s.enters_of_passesEntry h), if_neg (mt s.sectored_iff.1 hraw), extractRaw,
    if_neg (Nat.not_lt.2 hc)]

/-- How many bytes of the file stand before chunk `i` (R146, R161). -/
def State.rawEnd (s : State) (i : Nat) : Nat := min (i * s.sectorSize) s.usize.toNat

@[simp] theorem State.rawEnd_zero (s : State) : s.rawEnd 0 = 0 := by simp [State.rawEnd]

/-- Chunk `i` starts where the chunks before it end. -/
theorem State.rawEnd_of_lt (s : State) (i : Nat) (h : i < s.sectorCount) : s.rawEnd i = i * s.sectorSize :=
  Nat.min_eq_left (s.lt_usize_of_lt_sectorCount i h).le

theorem State.rawEnd_succ (s : State) (i : Nat) (h : i < s.sectorCount) : s.rawEnd (i + 1) = i * s.sectorSize + s.chunkSize i := by
  have hlt := s.lt_usize_of_lt_sectorCount i h
  rw [State.rawEnd, State.chunkSize, State.remaining, Nat.succ_mul]
  omega

/-- The chunks are the whole file. -/
theorem State.rawEnd_sectorCount (s : State) : s.rawEnd s.sectorCount = s.usize.toNat := by
  have hpos := s.sectorSize_pos
  refine Nat.min_eq_right ?_
  have hround : s.usize.toNat + s.sectorSize - 1 < (s.sectorCount + 1) * s.sectorSize :=
    Nat.lt_mul_of_div_lt (Nat.lt_succ_self _) hpos
  rw [Nat.succ_mul] at hround
  omega

/-! ### One chunk -/

@[simp] theorem State.decryptPass_obuf (s : State) (key : Word) (off len : Nat) : (s.decryptPass key off len).obuf = s.obuf := by
  unfold State.decryptPass
  split <;> rfl

theorem State.decryptPass_read_outside (s : State) (key : Word) (off len x : Nat) (h : x < off ∨ off + len ≤ x) :
    (s.decryptPass key off len).dbuf.read x = s.dbuf.read x := by
  unfold State.decryptPass
  split
  · exact crypt_read_outside _ _ _ _ _ _ _ (by omega)
  · rfl

/-- What a pass makes of a region depends on the region and the record alone. -/
theorem State.decryptPass_congr {s t : State} (hst : ExtractFrame s t) (key : Word) (off len : Nat)
    (h : ∀ x, off ≤ x → x < off + len → t.dbuf.read x = s.dbuf.read x) (x : Nat) (hx : off ≤ x) (hx' : x < off + len) :
    (t.decryptPass key off len).dbuf.read x = (s.decryptPass key off len).dbuf.read x := by
  unfold State.decryptPass
  rw [hst.flagEncrypted, hst.table]
  split
  · exact crypt_congr_region _ _ _ _ _ _ _ h x hx hx'
  · exact h x hx hx'

theorem rawChunk_dbuf (i : Nat) (s : State) :
    (rawChunk i s).dbuf = (s.decryptPass (s.sectorKey i) (i * s.sectorSize) (s.chunkSize i)).dbuf := rfl

/-- A chunk puts into `OBUF` what it has made of `DBUF`, at the same place (R161). -/
theorem rawChunk_obuf_read (i : Nat) (s : State) (x : Nat) :
    (rawChunk i s).obuf.read x =
      if i * s.sectorSize ≤ x ∧ x < i * s.sectorSize + s.chunkSize i then (rawChunk i s).dbuf.read x else s.obuf.read x := by
  have hsize : (s.decryptPass (s.sectorKey i) (i * s.sectorSize) (s.chunkSize i)).sectorSize = s.sectorSize := by
    unfold State.decryptPass
    split <;> rfl
  rw [rawChunk_dbuf, rawChunk, State.putSector, State.setObuf_obuf, State.decryptPass_obuf, hsize, Memory.read_writeBytes,
    Memory.length_readBytes]
  refine ite_congr rfl (fun h => ?_) (fun _ => rfl)
  rw [Memory.getD_readBytes _ _ _ _ (by omega), Nat.add_sub_cancel' h.1]

/-! ### All chunks -/

/-- The bytes of `plain` are what each chunk's pass makes of the region. -/
def State.RawDeciphersTo (s : State) (plain : Memory) : Prop :=
  ∀ i, i < s.sectorCount → ∀ x, i * s.sectorSize ≤ x → x < i * s.sectorSize + s.chunkSize i →
    (s.decryptPass (s.sectorKey i) (i * s.sectorSize) (s.chunkSize i)).dbuf.read x = plain.read x

/-- `t` is `s` once the chunks before chunk `i` are done: both buffers hold the plain bytes up to there. -/
structure RawProgress (s : State) (plain : Memory) (i : Nat) (t : State) : Prop where
  frame : ExtractFrame s t
  dbuf : ∀ x, t.dbuf.read x = if x < s.rawEnd i then plain.read x else s.dbuf.read x
  obuf : ∀ x, t.obuf.read x = if x < s.rawEnd i then plain.read x else s.obuf.read x

theorem RawProgress.start (s : State) (plain : Memory) : RawProgress s plain 0 s where
  frame := .refl s
  dbuf x := by simp
  obuf x := by simp

theorem RawProgress.rawChunk {s t : State} {plain : Memory} {i : Nat} (ht : RawProgress s plain i t)
    (hplain : s.RawDeciphersTo plain) (hc : s.usize.toNat ≤ s.csize.toNat) (hi : i < s.sectorCount) :
    RawProgress s plain (i + 1) (rawChunk i t) := by
  have hstart := s.rawEnd_of_lt i hi
  have hend := s.rawEnd_succ i hi
  have hsize := ht.frame.sectorSize
  have hchunk : t.chunkSize i = s.chunkSize i := by rw [State.chunkSize, hsize, ht.frame.remaining, State.chunkSize]
  have hkey : t.sectorKey i = s.sectorKey i := by rw [State.sectorKey, ht.frame.key, State.sectorKey]
  have hdbuf : ∀ x, (Machine.rawChunk i t).dbuf.read x = if x < s.rawEnd (i + 1) then plain.read x else s.dbuf.read x := by
    intro x
    rw [rawChunk_dbuf, hsize, hchunk, hkey]
    by_cases hin : i * s.sectorSize ≤ x ∧ x < i * s.sectorSize + s.chunkSize i
    · rw [if_pos (by omega), ← hplain i hi x hin.1 hin.2]
      refine State.decryptPass_congr ht.frame _ _ _ (fun y hy _ => ?_) x hin.1 hin.2
      rw [ht.dbuf, if_neg (by omega)]
    · rw [State.decryptPass_read_outside _ _ _ _ _ (by omega), ht.dbuf]
      exact if_congr (by omega) rfl rfl
  refine ⟨ht.frame.trans (rawChunk_frame i t ?_ ?_), hdbuf, fun x => ?_⟩
  · rw [hsize, ht.frame.usize]
    exact s.lt_usize_of_lt_sectorCount i hi
  · rw [ht.frame.usize, ht.frame.csize]
    exact hc
  · rw [rawChunk_obuf_read, hsize, hchunk]
    by_cases hin : i * s.sectorSize ≤ x ∧ x < i * s.sectorSize + s.chunkSize i
    · rw [if_pos hin, hdbuf, if_pos (by omega), if_pos (by omega)]
    · rw [if_neg hin, ht.obuf]
      exact if_congr (by omega) rfl rfl

theorem RawProgress.rawChunks {s t : State} {plain : Memory} {n i : Nat} (ht : RawProgress s plain i t)
    (hplain : s.RawDeciphersTo plain) (hc : s.usize.toNat ≤ s.csize.toNat) (hi : i + n ≤ s.sectorCount) :
    RawProgress s plain (i + n) (rawChunks n i t) := by
  induction n generalizing i t with
  | zero => exact ht
  | succ n ih =>
    rw [Nat.add_succ, ← Nat.succ_add]
    exact ih (ht.rawChunk hplain hc (by omega)) (by omega)

/-- `EXTRACT` of a raw file leaves the plain bytes in both buffers, and all else as it was (R161, R162). -/
theorem extractCommand_raw_eq (s : State) (plain : Memory) (h : Spec.PassesEntry s) (hraw : ¬ Spec.isSectored s)
    (hc : s.usize.toNat ≤ s.csize.toNat) (hplain : s.RawDeciphersTo plain) :
    ∃ d o, extractCommand s = { s with dbuf := d, obuf := o, olen := s.usize, status := 0x00000001, einfo := 0 } ∧
      (∀ a, d.read a = if a < s.usize.toNat then plain.read a else s.dbuf.read a) ∧
      ∀ a, o.read a = if a < s.usize.toNat then plain.read a else s.obuf.read a := by
  have hdone : RawProgress s plain s.sectorCount (rawChunks s.sectorCount 0 s) := by
    simpa using (RawProgress.start s plain).rawChunks hplain hc (n := s.sectorCount) (by omega)
  refine ⟨(rawChunks s.sectorCount 0 s).dbuf, (rawChunks s.sectorCount 0 s).obuf, ?_, ?_, ?_⟩
  · rw [extractCommand_of_raw s h hraw hc, complete_ok_eq, hdone.frame.usize, hdone.frame.others]
    rfl
  · rw [← s.rawEnd_sectorCount]
    exact hdone.dbuf
  · rw [← s.rawEnd_sectorCount]
    exact hdone.obuf

end Sys2Proof.Machine
end

section
/-! What `ENCRYPT` writes chunk by chunk, `EXTRACT` deciphers (R126, R127, R161). -/

namespace Sys2Proof.Machine

/-- A cipher pass of the statements is the pass of the model (R120, R126). -/
theorem crypt_of_cipherPass {i : Instr} {dir : Direction} (hexec : ∀ s, exec i s = .next (cryptCommand dir s)) {s : State}
    {key : Word} {off len : Nat} {m m' : Memory} (hoff : off < 2 ^ 32) (hlen : len < 2 ^ 32)
    (h : Spec.CipherPass i s key off len m m') : m' = crypt s.table dir key off len m := by
  obtain ⟨t, ht, hok, rfl⟩ := h
  rw [hexec] at ht
  injection ht with ht
  subst ht
  rcases cryptCommand_cases dir
    { s with dbuf := m, key := key, offset := BitVec.ofNat 32 off, length := BitVec.ofNat 32 len } with hfault | ⟨-, hpass⟩
  · rw [hfault] at hok
    exact absurd hok (statusWord_raise_ne_ok _)
  · rw [hpass]
    simp only [complete_dbuf, State.setDbuf_dbuf, BitVec.toNat_ofNat, Nat.mod_eq_of_lt hoff, Nat.mod_eq_of_lt hlen]

/-- `e i` is the region of `s` with its chunks before chunk `i` enciphered, chunk `j` with `KEY + j` (log entry 18). -/
def State.EnciphersRaw (s : State) (e : Nat → Memory) : Prop :=
  ∀ i, i < s.sectorCount → e (i + 1) = crypt s.table .enc (s.sectorKey i) (i * s.sectorSize) (s.chunkSize i) (e i)

theorem State.enciphersRaw_of_cipherPass (s : State) (e : Nat → Memory)
    (h : ∀ i, i < Spec.sectorCount s →
      Spec.CipherPass .encrypt s (s.key + BitVec.ofNat 32 i) (i * Spec.sectorBytes s)
        (min (Spec.sectorBytes s) (s.usize.toNat - i * Spec.sectorBytes s)) (e i) (e (i + 1))) : s.EnciphersRaw e := by
  intro i hi
  have hlt := s.lt_usize_of_lt_sectorCount i hi
  have husize := s.usize.isLt
  have hchunk : s.chunkSize i < 2 ^ 32 := by
    rw [State.chunkSize, State.remaining]
    omega
  exact crypt_of_cipherPass exec_encrypt (by omega) hchunk (h i hi)

/-- Enciphering the chunks from `i` up to `j` changes no byte before them and none behind them. -/
theorem State.EnciphersRaw.read_outside {s : State} {e : Nat → Memory} (he : s.EnciphersRaw e) {i j : Nat} (hij : i ≤ j)
    (hj : j ≤ s.sectorCount) (x : Nat) (hx : x < s.rawEnd i ∨ s.rawEnd j ≤ x) : (e j).read x = (e i).read x := by
  induction j, hij using Nat.le_induction with
  | base => rfl
  | succ j hij ih =>
    have hmono : s.rawEnd i ≤ s.rawEnd j := min_le_min_right _ (Nat.mul_le_mul_right _ hij)
    have hstart := s.rawEnd_of_lt j hj
    have hend := s.rawEnd_succ j hj
    rw [he j hj, crypt_read_outside _ _ _ _ _ _ _ (by omega), ih (by omega) (by omega)]

/-- Each chunk's pass of `EXTRACT` undoes what `ENCRYPT` did to it (R127). -/
theorem State.EnciphersRaw.rawDeciphersTo {s : State} {e : Nat → Memory} (he : s.EnciphersRaw e)
    (henc : s.flagEncrypted = true) : (s.setDbuf (e s.sectorCount)).RawDeciphersTo (e 0) := by
  intro i (hi : i < s.sectorCount) x (hx : i * s.sectorSize ≤ x) (hx' : x < i * s.sectorSize + s.chunkSize i)
  have hstart := s.rawEnd_of_lt i hi
  have hend := s.rawEnd_succ i hi
  rw [(s.setDbuf (e s.sectorCount)).decryptPass_encrypted _ _ _ henc]
  calc (crypt s.table .dec (s.sectorKey i) (i * s.sectorSize) (s.chunkSize i) (e s.sectorCount)).read x
      = (crypt s.table .dec (s.sectorKey i) (i * s.sectorSize) (s.chunkSize i) (e (i + 1))).read x :=
        crypt_congr_region _ _ _ _ _ _ _ (fun y _ hy => he.read_outside (i := i + 1) hi le_rfl y (.inl (by omega))) x hx hx'
    _ = (e i).read x := by rw [he i hi, crypt_roundTrip s.table (by decide)]
    _ = (e 0).read x := he.read_outside (Nat.zero_le i) hi.le x (.inr (by omega))

/-- Settles O43: the enciphered region deciphers to the old one, chunk by chunk, and no byte behind the file was enciphered. -/
theorem encryptThenExtractRawFileRoundTrips : Obligations.EncryptThenExtractRawFileRoundTrips := by
  intro s e hpass hraw henc hc h0 hrun
  have he := s.enciphersRaw_of_cipherPass e hrun
  have hpass' : Spec.PassesEntry (s.setDbuf (e s.sectorCount)) :=
    ⟨hpass.shift, hpass.existing, hpass.archived, hpass.size, hpass.supported, hpass.region_fits, hpass.file_fits⟩
  obtain ⟨d, o, hend, hd, ho⟩ := extractCommand_raw_eq (s.setDbuf (e s.sectorCount)) (e 0) hpass' hraw hc
    (he.rawDeciphersTo ((s.hasFlag_iff _).2 henc))
  have hbehind : ∀ a, s.usize.toNat ≤ a → (e s.sectorCount).read a = (e 0).read a := fun a ha =>
    he.read_outside (Nat.zero_le _) le_rfl a (.inr (by rw [s.rawEnd_sectorCount]; exact ha))
  rw [h0] at hd ho hbehind
  refine ⟨_, (exec_extract _).trans (congrArg _ hend), rfl, ho, fun a => (hd a).trans ?_⟩
  split
  · rfl
  · exact hbehind a (Nat.not_lt.1 ‹_›)

end Sys2Proof.Machine
end

section
/-! `KEYGEN`: the base name in the statements' words, and the key derived from its hash (R135 to R138). -/

namespace Sys2Proof.Machine

/-! ### The base name -/

theorem isSeparator_iff (c : Byte) : isSeparator c = true ↔ Spec.separator c := by
  simp [isSeparator, Spec.separator, backslash, slash]

/-- `BaseName` cuts the name after its last separator (R136). -/
theorem isBaseName_baseName (n : List Byte) : Spec.IsBaseName n (baseName n) := by
  induction n with
  | nil => exact ⟨fun c hc => absurd hc List.not_mem_nil, .inl rfl⟩
  | cons c rest ih =>
    rw [baseName]
    split
    next hany =>
      obtain ⟨hfree, hwhole | ⟨pre, d, hd, hcut⟩⟩ := ih
      · obtain ⟨x, hx, hsep⟩ := List.any_eq_true.1 hany
        exact absurd ((isSeparator_iff x).1 hsep) (hfree x (hwhole ▸ hx))
      · exact ⟨hfree, .inr ⟨c :: pre, d, hd, congrArg (c :: ·) hcut⟩⟩
    next hnone =>
      have hfree : ∀ x ∈ rest, ¬ Spec.separator x := fun x hx hsep =>
        hnone (List.any_eq_true.2 ⟨x, hx, (isSeparator_iff x).2 hsep⟩)
      split
      next hc => exact ⟨hfree, .inr ⟨[], c, (isSeparator_iff c).1 hc, rfl⟩⟩
      next hc => exact ⟨List.forall_mem_cons.2 ⟨mt (isSeparator_iff c).2 hc, hfree⟩, .inl rfl⟩

/-- A name has one base name (R136). -/
theorem baseName_of_isBaseName {n b : List Byte} (h : Spec.IsBaseName n b) : baseName n = b := by
  obtain ⟨hfree, hsplit⟩ := h
  have hfree' : ∀ c ∈ b, isSeparator c = false := fun c hc =>
    Bool.eq_false_iff.2 (mt (isSeparator_iff c).1 (hfree c hc))
  rcases hsplit with rfl | ⟨pre, c, hc, rfl⟩
  · exact baseName_of_no_separator n hfree'
  · exact baseName_append pre c b ((isSeparator_iff c).2 hc) hfree'

/-! ### What the command does with the hash of the base name -/

theorem exec_keygen (s : State) : exec .keygen s = .next (keygenCommand s) := rfl

/-- `EncryptionFix` decides on the adjustment (R137). -/
theorem fileKey_eq (s : State) (k : Word) : fileKey s k = if Spec.isFixed s then (k + s.boff) ^^^ s.usize else k :=
  if_congr (s.hasFlag_iff _) rfl rfl

section
variable {s : State} {base : List Byte}

theorem not_nameTooLong_of_fits (hfits : s.nlen.toNat ≤ s.geom.nameMax) : ¬ s.nameTooLong = true := by
  rw [State.nameTooLong_iff]
  exact Nat.not_lt.2 hfits

theorem baseName_name (hbase : Spec.IsBaseName (Spec.name s) base) : baseName s.name = base := by
  rw [State.name, Memory.readBytes_eq_bytes]
  exact baseName_of_isBaseName hbase

/-- A fault of the hash is raised and nothing else changes (R135, R203). -/
theorem keygenCommand_of_error {r : Raised} (hfits : s.nlen.toNat ≤ s.geom.nameMax)
    (hbase : Spec.IsBaseName (Spec.name s) base) (h : hashName s.table .tableKey base = .error r) :
    keygenCommand s = raise r s := by
  rw [keygenCommand, if_neg (not_nameTooLong_of_fits hfits), baseName_name hbase, h]

/-- A digest becomes the file key in `KEY` and `RESULT` (R135). -/
theorem keygenCommand_of_ok {k : Word} (hfits : s.nlen.toNat ≤ s.geom.nameMax)
    (hbase : Spec.IsBaseName (Spec.name s) base) (h : hashName s.table .tableKey base = .ok k) :
    keygenCommand s = complete .ok (s.setKeyResult (fileKey s k)) := by
  rw [keygenCommand, if_neg (not_nameTooLong_of_fits hfits), baseName_name hbase, h]

end

/-! ### Names equal but for case -/

/-- The hash of the statements does not see case (R116). -/
theorem hashOf_congr_case (table : List Word) (p : Nat) {b b' : List Byte} (h : b.map upperCase = b'.map upperCase) :
    Spec.hashOf table p b = Spec.hashOf table p b' := by
  have hprep : prep b = prep b' := by rw [← prep_map_upperCase b, h, prep_map_upperCase]
  rw [Spec.hashOf, Spec.hashOf, prepName_eq_map_prep, prepName_eq_map_prep, hprep]

theorem ascii_map_upperCase (b : List Byte) : (∀ c ∈ b.map upperCase, c < 0x80) ↔ ∀ c ∈ b, c < 0x80 := by
  simp only [List.forall_mem_map, upperCase_lt]

/-! ### The obligations -/

/-- Settles O31: `BaseName` is one base name, and there is no other. -/
theorem baseNameIsWhatFollowsTheLastSeparator : Obligations.BaseNameIsWhatFollowsTheLastSeparator := by
  intro n b
  exact ⟨fun h => h ▸ isBaseName_baseName n, baseName_of_isBaseName⟩

/-- Settles O32: an ASCII base name has a digest, and the file key is made of it. -/
theorem keygenWritesTheFileKey : Obligations.KeygenWritesTheFileKey := by
  intro s base hfits hbase hascii
  have hdigest := hashName_of_ascii s.table .tableKey base hascii
  rw [exec_keygen, keygenCommand_of_ok hfits hbase hdigest, complete_ok_eq, fileKey_eq]
  rfl

/-- Settles O33: the hash of the base name is the fault of the pre-scan. -/
theorem keygenReportsTheIndexInTheBaseName : Obligations.KeygenReportsTheIndexInTheBaseName := by
  intro s pre post c hfits hbase hpre hc
  have hfault := hashName_of_unsupported s.table .tableKey pre post c hpre hc
  rw [exec_keygen, keygenCommand_of_error hfits hbase hfault, raise_eq, statusWord_unsupportedCharacter, charInfo_eq]

/-- Settles O34: both keys are the one hash with the one adjustment. -/
theorem keygenKeyDependsOnTheBaseNameOnly : Obligations.KeygenKeyDependsOnTheBaseNameOnly := by
  intro s s' b b' hfits hfits' hbase hbase' hcase hascii htable hfixed hboff husize
  have hascii' : ∀ c ∈ b', c < 0x80 := by
    rw [← ascii_map_upperCase, ← hcase, ascii_map_upperCase]
    exact hascii
  have hhash : Spec.hashOf s.table 3 b = Spec.hashOf s'.table 3 b' := by
    rw [htable]
    exact hashOf_congr_case s'.table 3 hcase
  refine ⟨_, _, keygenWritesTheFileKey s b hfits hbase hascii, keygenWritesTheFileKey s' b' hfits' hbase' hascii', ?_,
    rfl, rfl, rfl⟩
  simp only [hhash, hboff, husize, hfixed]

end Sys2Proof.Machine
end

section
/-! `EXTRACT`'s entry tests (R145 to R151) and the two tests before the commit points (R155, R161): each fault writes `STATUS` and
`EINFO` only. -/

namespace Sys2Proof.Machine

section
variable {s : State}

/-! ### The tests in the statements' words -/

theorem not_shiftTooLarge_of_le (h : s.sshift.toNat ≤ 22) : ¬ s.shiftTooLarge = true := by
  rw [State.shiftTooLarge_iff]
  exact Nat.not_lt.2 h

theorem State.existing_iff (s : State) : s.flagExists = true ↔ Spec.isExisting s := s.hasFlag_iff _

theorem not_notExists_of_isExisting (h : Spec.isExisting s) : ¬ (!s.flagExists) = true := by
  rw [s.existing_iff.2 h]
  decide

theorem notExists_of_not_isExisting (h : ¬ Spec.isExisting s) : (!s.flagExists) = true := by
  rw [Bool.eq_false_iff.2 (mt s.existing_iff.1 h)]
  rfl

theorem State.unsupported_iff (s : State) : (s.flagSingleUnit || s.flagHasCrc) = true ↔ Spec.isUnsupported s := by
  rw [Bool.or_eq_true]
  exact or_congr (s.hasFlag_iff _) (s.hasFlag_iff _)

theorem not_usize_le_one (h : 2 ≤ s.usize.toNat) : ¬ s.usize ≤ 1 := by
  rw [BitVec.le_def]
  exact Nat.not_le.2 h

theorem State.encrypted_iff (s : State) : s.flagEncrypted = true ↔ Spec.isEncrypted s := s.hasFlag_iff _

theorem flagEncrypted_of_plain (h : ¬ Spec.isEncrypted s) : s.flagEncrypted = false :=
  Bool.eq_false_iff.2 (mt s.encrypted_iff.1 h)

/-! ### The path -/

/-- Past the entry tests the flags select the path (R154). -/
theorem extractCommand_of_sectored (h : Spec.PassesEntry s) (hsec : Spec.isSectored s) :
    extractCommand s = extractSectored s := by
  rw [extractCommand_of_enters s (s.enters_of_passesEntry h), if_pos (s.sectored_iff.2 hsec)]

theorem extractCommand_of_not_sectored (h : Spec.PassesEntry s) (hraw : ¬ Spec.isSectored s) :
    extractCommand s = extractRaw s := by
  rw [extractCommand_of_enters s (s.enters_of_passesEntry h), if_neg (mt s.sectored_iff.1 hraw)]

end

/-! ### The obligations -/

/-- Settles O35: it is the first test. -/
theorem extractShiftFaultComesFirst : Obligations.ExtractShiftFaultComesFirst := by
  intro s hshift
  rw [exec_extract, extractCommand, if_pos (s.shiftTooLarge_iff.2 hshift), raise_eq, statusWord_illegalOperand]
  rfl

/-- Settles O36: only the shift is tested before. -/
theorem extractWithoutExistsIsNotFound : Obligations.ExtractWithoutExistsIsNotFound := by
  intro s hshift hex
  rw [exec_extract, extractCommand, if_neg (not_shiftTooLarge_of_le hshift), if_pos (notExists_of_not_isExisting hex),
    complete, statusWord_notFound]
  rfl

/-- Settles O37: `USIZE` is tested after `CSIZE`. -/
theorem extractOfEmptyArchivedDataIsEmpty : Obligations.ExtractOfEmptyArchivedDataIsEmpty := by
  intro s hshift hex hempty
  rw [exec_extract, extractCommand, if_neg (not_shiftTooLarge_of_le hshift), if_neg (not_notExists_of_isExisting hex),
    if_pos hempty, complete_ok_eq]
  rfl

/-- Settles O38: the one byte is a write of 0 at address 0. -/
theorem extractOfTinyFileIsOneZeroByte : Obligations.ExtractOfTinyFileIsOneZeroByte := by
  intro s hshift hex hc hu
  have htiny : s.usize ≤ 1 := by
    rw [BitVec.le_def]
    exact hu
  refine ⟨s.obuf.write 0 0x00, ?_, s.obuf.read_write 0 0x00⟩
  rw [exec_extract, extractCommand, if_neg (not_shiftTooLarge_of_le hshift), if_neg (not_notExists_of_isExisting hex),
    if_neg hc, if_pos htiny, complete_ok_eq]
  rfl

/-- Settles O39: the two masks together are the literal of R150. -/
theorem extractRejectsUnsupportedRecords : Obligations.ExtractRejectsUnsupportedRecords := by
  intro s hshift hex hc hu hbad
  rw [exec_extract, extractCommand, if_neg (not_shiftTooLarge_of_le hshift), if_neg (not_notExists_of_isExisting hex),
    if_neg hc, if_neg (not_usize_le_one hu), if_pos (s.unsupported_iff.2 hbad), raise_eq, statusWord_unsupportedFeature]
  rfl

/-- Settles O40: the region is tested before the file. -/
theorem extractChecksCapacity : Obligations.ExtractChecksCapacity := by
  intro s hshift hex hc hu hkind
  rw [exec_extract, extractCommand, if_neg (not_shiftTooLarge_of_le hshift), if_neg (not_notExists_of_isExisting hex),
    if_neg hc, if_neg (not_usize_le_one hu), if_neg (mt s.unsupported_iff.1 hkind)]
  refine ⟨fun hregion => ?_, fun hfits hfile => ?_⟩
  · rw [if_pos hregion, raise_eq, statusWord_boundsFault]
    rfl
  · rw [if_neg (Nat.not_lt.2 hfits), if_pos hfile, raise_eq, statusWord_boundsFault]
    rfl

/-- Settles O41: each path makes this test before it touches a buffer. -/
theorem extractPreCommitFaultsArePrecise : Obligations.ExtractPreCommitFaultsArePrecise := by
  intro s hpass
  refine ⟨fun hsec hshort => ?_, fun hraw hshort => ?_⟩
  · have hfault : extractSectored s = raise ⟨.boundsFault, taggedInfo 1 0⟩ s := if_pos hshort
    rw [exec_extract, extractCommand_of_sectored hpass hsec, hfault, raise_eq, statusWord_boundsFault]
    rfl
  · have hfault : extractRaw s = raise ⟨.boundsFault, taggedInfo 5 0⟩ s := if_pos hshort
    rw [exec_extract, extractCommand_of_not_sectored hpass hraw, hfault, raise_eq, statusWord_boundsFault]
    rfl

end Sys2Proof.Machine
end

section
/-! What no `EXTRACT` touches, and what its faults leave (R162 to R164). -/

namespace Sys2Proof.Machine

theorem statusErr_complete (c : Completion) : statusErr (statusWord c.code false true) = false := by
  cases c <;> decide

theorem statusErr_ok : statusErr 0x00000001 = false := by decide

/-- The entry tests of the model are the statements' (R145). -/
theorem State.Enters.passesEntry {s : State} (h : s.Enters) : Spec.PassesEntry s where
  shift := by
    have hshift := h.shift
    rw [← Bool.not_eq_true, State.shiftTooLarge_iff] at hshift
    exact Nat.not_lt.1 hshift
  existing := (s.hasFlag_iff _).1 h.existing
  archived := h.archived
  size := by
    have hsize := h.size
    rw [BitVec.le_def] at hsize
    exact Nat.not_le.1 hsize
  supported := by
    rw [← State.unsupported_iff, h.supported]
    decide
  region_fits := h.region_fits
  file_fits := h.file_fits

/-- The raw path makes no free draw: it has no fault past its commit point (R161). -/
theorem extractRaw_draws (s : State) : (extractRaw s).draws = s.draws := by
  rcases extractRaw_cases s with h | ⟨-, t, ht, -, h⟩
  · rw [h, raise_draws]
  · rw [h, complete_draws, State.setOlen_draws, ht.others]

/-- A fault past the commit point is the sectored path's (R161, R163). -/
theorem isSectored_of_spoils {s : State} {r : Raised} (he : s.Enters) (h : extractCommand s = raise r s.spoilBuffers) :
    Spec.isSectored s := by
  by_contra hraw
  have hdraws := extractRaw_draws s
  rw [← extractCommand_of_not_sectored he.passesEntry hraw, h, raise_draws, State.spoilBuffers_draws] at hdraws
  omega

/-- A normal end of an unencrypted file leaves `DBUF` as it was (R162). -/
theorem extractCommand_dbuf_plain (s : State) (hplain : ¬ Spec.isEncrypted s)
    (hok : statusErr (extractCommand s).status = false) : (extractCommand s).dbuf = s.dbuf := by
  rcases extractCommand_cases s with ⟨r, -, h⟩ | ⟨c, h⟩ | h | ⟨-, r, -, h⟩ | ⟨-, t, ht, h⟩
  · rw [h, raise_dbuf]
  · rw [h, complete_dbuf, State.setOlen_dbuf]
  · rw [h, complete_dbuf, State.setOlen_dbuf, State.setObuf_dbuf]
  · rw [h, raise_status, statusErr_raise] at hok
    cases hok
  · rw [h, complete_dbuf, State.setOlen_dbuf]
    exact ht.dbuf_plain (flagEncrypted_of_plain hplain)

/-- No `EXTRACT` changes `DBUF` from `CSIZE` on (R163). -/
theorem extractCommand_dbuf_outside (s : State) (a : Nat) (ha : s.csize.toNat ≤ a) :
    (extractCommand s).dbuf.read a = s.dbuf.read a := by
  rcases extractCommand_cases s with ⟨r, -, h⟩ | ⟨c, h⟩ | h | ⟨-, r, -, h⟩ | ⟨-, t, ht, h⟩
  · rw [h, raise_dbuf]
  · rw [h, complete_dbuf, State.setOlen_dbuf]
  · rw [h, complete_dbuf, State.setOlen_dbuf, State.setObuf_dbuf]
  · rw [h, raise_dbuf, State.spoilBuffers_dbuf, Memory.read_spoil, if_neg (Nat.not_lt.2 ha)]
  · rw [h, complete_dbuf, State.setOlen_dbuf]
    exact ht.dbuf_outside a ha

/-- No `EXTRACT` changes `OBUF` from the file's end on, but for the one byte of a tiny file (R149, R163). -/
theorem extractCommand_obuf_outside (s : State) (a : Nat) (ha : max 1 s.usize.toNat ≤ a) :
    (extractCommand s).obuf.read a = s.obuf.read a := by
  rcases extractCommand_cases s with ⟨r, -, h⟩ | ⟨c, h⟩ | h | ⟨-, r, -, h⟩ | ⟨-, t, ht, h⟩
  · rw [h, raise_obuf]
  · rw [h, complete_obuf, State.setOlen_obuf]
  · rw [h, complete_obuf, State.setOlen_obuf, State.setObuf_obuf, Memory.read_write_ne _ _ _ _ (by omega)]
  · rw [h, raise_obuf, State.spoilBuffers_obuf, Memory.read_spoil, if_neg (by omega)]
  · rw [h, complete_obuf, State.setOlen_obuf]
    exact ht.obuf_outside a (by omega)

/-! ### The obligations -/

/-- Settles O49. -/
theorem extractLeavesTheRestAlone : Obligations.ExtractLeavesTheRestAlone := by
  intro s t h
  obtain rfl : extractCommand s = t := by
    injection h
  refine ⟨?_, extractCommand_dbuf_outside s, extractCommand_obuf_outside s, fun hplain hok a => ?_⟩
  · obtain ⟨st, e, n, d, o, k, hframe⟩ := extractCommand_frame s
    rw [hframe]
  · rw [extractCommand_dbuf_plain s hplain hok]

/-- Settles O50: only a raised fault sets `ERR`, and past the commit point both ranges are spoilt. -/
theorem extractFaultsArePreciseOrFreeTheBuffers : Obligations.ExtractFaultsArePreciseOrFreeTheBuffers := by
  intro s t h (herr : statusErr t.status = true)
  obtain rfl : extractCommand s = t := by
    injection h
  have hnormal : ∀ c u, extractCommand s ≠ complete c u := by
    intro c u hend
    rw [hend, complete_status, statusErr_complete] at herr
    cases herr
  rcases extractCommand_cases s with ⟨r, -, h⟩ | ⟨c, h⟩ | h | ⟨he, r, -, h⟩ | ⟨-, t, -, h⟩
  · left
    rw [h]
    rfl
  · exact absurd h (hnormal _ _)
  · exact absurd h (hnormal _ _)
  · refine .inr ⟨he.passesEntry, isSectored_of_spoils he h, ?_⟩
    rw [h]
    refine ⟨rfl, rfl, fun a ha => ?_, fun a ha => ?_⟩
    · rw [raise_dbuf, State.spoilBuffers_dbuf, Memory.read_spoil, if_pos ha]
    · rw [raise_obuf, State.spoilBuffers_obuf, Memory.read_spoil, if_pos ha]
  · exact absurd h (hnormal _ _)

/-- Settles O42: no chunk changes the bytes it copies, and a normal end leaves `DBUF`. -/
theorem extractRawPlainFileCopiesTheBytes : Obligations.ExtractRawPlainFileCopiesTheBytes := by
  intro s hpass hraw hplain hc
  have hbytes : s.RawDeciphersTo s.dbuf := by
    intro i _ x _ _
    rw [s.decryptPass_plain _ _ _ (flagEncrypted_of_plain hplain)]
  obtain ⟨d, o, hend, -, ho⟩ := extractCommand_raw_eq s s.dbuf hpass hraw hc hbytes
  have hd := extractCommand_dbuf_plain s hplain (by rw [hend]; exact statusErr_ok)
  rw [hend] at hd
  subst hd
  exact ⟨o, (exec_extract s).trans (congrArg _ hend), ho⟩

end Sys2Proof.Machine
end

section
/-! One sector of the sectored path in the statements' words (R156 to R160): its extent, its pass, and the bytes it gives. -/

namespace Sys2Proof.Machine

/-! ### The dispatcher by tag -/

/-- The two tags the dispatcher knows (R89, R181). -/
theorem codecOfTag_eq_some_iff (tag : Byte) (c : Codec) : Config.codecOfTag tag = some c ↔ (tag, c) ∈ Spec.knownTags := by
  revert tag
  cases c <;> decide

theorem codecOfTag_eq_none {tag : Byte} (hzlib : tag ≠ 0x02) (himplode : tag ≠ 0x08) : Config.codecOfTag tag = none := by
  rw [Config.codecOfTag, if_neg hzlib, if_neg himplode]

theorem dispatchTag_of_unknown {tag : Byte} (payload : List Byte) (limit i : Nat) (hzlib : tag ≠ 0x02) (himplode : tag ≠ 0x08) :
    dispatchTag tag payload limit i = .error ⟨.unsupportedCompression, taggedInfo tag i⟩ := by
  rw [dispatchTag, codecOfTag_eq_none hzlib himplode]

theorem dispatchTag_of_fail {tag : Byte} {c : Codec} {payload : List Byte} {limit : Nat} (i : Nat)
    (htag : (tag, c) ∈ Spec.knownTags) (h : Config.codec c payload limit = none) :
    dispatchTag tag payload limit i = .error ⟨.codecFailure, taggedInfo tag i⟩ := by
  simp only [dispatchTag, (codecOfTag_eq_some_iff tag c).2 htag, h]

theorem dispatchTag_of_ok {tag : Byte} {c : Codec} {payload : List Byte} {limit : Nat} {r : List Byte} (i : Nat)
    (htag : (tag, c) ∈ Spec.knownTags) (h : Config.codec c payload limit = some r) :
    dispatchTag tag payload limit i = .ok r := by
  simp only [dispatchTag, (codecOfTag_eq_some_iff tag c).2 htag, h]

/-! ### Entries, passes and indices -/

/-- An entry of the offset table is the statements' (R155). -/
theorem State.tableOffset_eq_entry (s : State) (j : Nat) : s.tableOffset j = Spec.entry s.dbuf j := by
  rw [State.tableOffset, Spec.entry, Memory.word_eq_readWord]

theorem entry_lt (m : Memory) (j : Nat) : Spec.entry m j < 2 ^ 32 := (Spec.word m (4 * j)).isLt

theorem entry_congr {m m' : Memory} (j : Nat) (h : ∀ x, 4 * j ≤ x → x < 4 * j + 4 → m.read x = m'.read x) :
    Spec.entry m j = Spec.entry m' j := by
  rw [Spec.entry, Spec.entry, Memory.word_eq_readWord, Memory.word_eq_readWord, Memory.readWord_congr m m' _ h]

theorem sectorBytes_eq (s : State) : Spec.sectorBytes s = s.sectorSize := rfl

/-- A sector index fits the 24 bits of `EINFO` (R146, R204). -/
theorem State.index_lt_of_lt_sectorCount (s : State) (i : Nat) (hi : i < s.sectorCount) : i < 2 ^ 24 := by
  have hlt := s.lt_usize_of_lt_sectorCount i hi
  have husize := s.usize.isLt
  have hsize : 512 ≤ s.sectorSize := Nat.le_mul_of_pos_right _ (by positivity)
  have hmul : i * 512 ≤ i * s.sectorSize := Nat.mul_le_mul_left _ hsize
  omega

theorem taggedInfo_eq_sectorInfo {b : Byte} {hi : Nat} (hb : b.toNat = hi) (i : Nat) (h : i < 2 ^ 24) :
    taggedInfo b i = Spec.sectorInfo hi i := by
  have hlt := b.isLt
  apply BitVec.eq_of_toNat_eq
  rw [toNat_taggedInfo b i h, Spec.sectorInfo, BitVec.toNat_ofNat, hb, Nat.mod_eq_of_lt (by omega)]

/-- A pass over an unencrypted file makes the same buffer (R153). -/
theorem deciphers_same {s : State} (hplain : ¬ Spec.isEncrypted s) (key : Word) (off len : Nat) (m : Memory) :
    Spec.Deciphers s key off len m m :=
  ⟨fun henc => absurd henc hplain, fun _ => rfl⟩

section
variable {s t : State} {key : Word} {off len : Nat} {m m' : Memory}

/-- The extractor's pass makes the buffer the statements speak of, and changes nothing else (R153). -/
theorem decryptPass_of_deciphers (ht : ExtractFrame s t) (hoff : off < 2 ^ 32) (hlen : len < 2 ^ 32)
    (h : Spec.Deciphers s key off len t.dbuf m') : t.decryptPass key off len = t.setDbuf m' := by
  obtain ⟨hcipher, hsame⟩ := h
  by_cases henc : Spec.isEncrypted s
  · rw [t.decryptPass_encrypted _ _ _ (ht.flagEncrypted.trans (s.encrypted_iff.2 henc)), ht.table,
      crypt_of_cipherPass exec_decrypt hoff hlen (hcipher henc)]
  · rw [t.decryptPass_plain _ _ _ (ht.flagEncrypted.trans (flagEncrypted_of_plain henc)), hsame henc]
    rfl

theorem read_outside_of_deciphers (hoff : off < 2 ^ 32) (hlen : len < 2 ^ 32) (h : Spec.Deciphers s key off len m m') (x : Nat)
    (hx : x < off ∨ off + len ≤ x) : m'.read x = m.read x := by
  obtain ⟨hcipher, hsame⟩ := h
  by_cases henc : Spec.isEncrypted s
  · rw [crypt_of_cipherPass exec_decrypt hoff hlen (hcipher henc), crypt_read_outside _ _ _ _ _ _ _ (by omega)]
  · rw [hsame henc]

theorem State.decryptPass_eq_setDbuf (t : State) (key : Word) (off len : Nat) :
    t.decryptPass key off len = t.setDbuf (t.decryptPass key off len).dbuf := by
  unfold State.decryptPass
  split <;> rfl

end

/-! ### What a sector gives -/

/-- What sector `i` gives when its extent is in the buffer `m` and `m'` is the buffer deciphered: the bytes to be put at
`i * sectorSize`, or its fault (R159, R160). -/
def State.sectorOutput (s : State) (i : Nat) (m m' : Memory) : Except Raised (List Byte) :=
  let cur := Spec.entry m i
  let size := Spec.entry m (i + 1) - cur
  if size = s.sectorSize then
    if s.remaining i < s.sectorSize then .error ⟨.boundsFault, taggedInfo 4 i⟩ else .ok (m'.readBytes cur s.sectorSize)
  else if size = 0 then .error ⟨.boundsFault, taggedInfo 3 i⟩
  else (dispatchTag (m'.read cur) (m'.readBytes (cur + 1) (size - 1)) s.sectorSize i).map (List.take (s.remaining i))

theorem packedSector_eq_map (i cur size : Nat) (s : State) :
    packedSector i cur size s =
      if size = 0 then .error ⟨.boundsFault, taggedInfo 3 i⟩
      else (dispatchTag (s.dbuf.read cur) (s.dbuf.readBytes (cur + 1) (size - 1)) s.sectorSize i).map
        fun r => s.putSector i (r.take (s.remaining i)) := by
  unfold packedSector
  split
  · rfl
  · split <;> rename_i h <;> rw [h] <;> rfl

/-- A sector whose extent passes the tests is deciphered, and what it gives is put into `OBUF` (R156). -/
theorem sector_eq_map_sectorOutput {i : Nat} {t : State} {m' : Memory}
    (hext : sectorFault t i (Spec.entry t.dbuf i) (Spec.entry t.dbuf (i + 1)) = none)
    (hpass : t.decryptPass (t.sectorKey i) (Spec.entry t.dbuf i) (Spec.entry t.dbuf (i + 1) - Spec.entry t.dbuf i) =
      t.setDbuf m') :
    sector i t = (t.sectorOutput i t.dbuf m').map ((t.setDbuf m').putSector i) := by
  have hsize : (t.setDbuf m').sectorSize = t.sectorSize := rfl
  have hrem : (t.setDbuf m').remaining i = t.remaining i := rfl
  have hbody := sector_of_extent i t (by rwa [t.tableOffset_eq_entry, t.tableOffset_eq_entry])
  rw [t.tableOffset_eq_entry, t.tableOffset_eq_entry, hpass] at hbody
  rw [hbody, State.sectorOutput]
  split
  · rw [storedSector, hsize, hrem, State.setDbuf_dbuf]
    split <;> rfl
  · rw [packedSector_eq_map, hsize, hrem, State.setDbuf_dbuf]
    split
    · rfl
    · cases dispatchTag _ _ _ _ <;> rfl

theorem sector_of_sectorFault {i : Nat} {t : State} {r : Raised}
    (h : sectorFault t i (Spec.entry t.dbuf i) (Spec.entry t.dbuf (i + 1)) = some r) : sector i t = .error r := by
  rw [← t.tableOffset_eq_entry, ← t.tableOffset_eq_entry] at h
  simp only [sector, h]

theorem ExtractFrame.sectorOutput {s t : State} (h : ExtractFrame s t) (i : Nat) (m m' : Memory) :
    t.sectorOutput i m m' = s.sectorOutput i m m' := by
  simp only [State.sectorOutput, h.sectorSize, h.remaining]

theorem ExtractFrame.sectorFault {s t : State} (h : ExtractFrame s t) (i cur nxt : Nat) :
    Machine.sectorFault t i cur nxt = Machine.sectorFault s i cur nxt := by
  simp only [Machine.sectorFault, h.sectorSize, h.csize]

/-- What a sector gives depends on its extent and the bytes in it alone. -/
theorem State.sectorOutput_congr (s : State) {i : Nat} {m m' n n' : Memory} (hcur : Spec.entry m i = Spec.entry n i)
    (hnxt : Spec.entry m (i + 1) = Spec.entry n (i + 1))
    (h : ∀ x, Spec.entry n i ≤ x → x < Spec.entry n (i + 1) → m'.read x = n'.read x) :
    s.sectorOutput i m m' = s.sectorOutput i n n' := by
  have hpos := s.sectorSize_pos
  simp only [State.sectorOutput, hcur, hnxt]
  split
  · rw [Memory.readBytes_congr m' n' _ _ fun x hx hx' => h x hx (by omega)]
  · split
    · rfl
    · rw [h _ le_rfl (by omega), Memory.readBytes_congr m' n' _ _ fun x hx hx' => h x (by omega) (by omega)]

section
variable {s : State} {i : Nat} {m m' : Memory}

theorem sectorOutput_of_empty (h : Spec.entry m (i + 1) = Spec.entry m i) :
    s.sectorOutput i m m' = .error ⟨.boundsFault, taggedInfo 3 i⟩ := by
  have hpos := s.sectorSize_pos
  rw [State.sectorOutput, if_neg (by omega), if_pos (by omega)]

theorem sectorOutput_of_overrun (hstored : Spec.entry m (i + 1) - Spec.entry m i = s.sectorSize)
    (hrem : s.remaining i < s.sectorSize) : s.sectorOutput i m m' = .error ⟨.boundsFault, taggedInfo 4 i⟩ := by
  rw [State.sectorOutput, if_pos hstored, if_pos hrem]

theorem sectorOutput_of_stored (hstored : Spec.entry m (i + 1) - Spec.entry m i = s.sectorSize)
    (hrem : s.sectorSize ≤ s.remaining i) :
    s.sectorOutput i m m' = .ok (Spec.bytes m' (Spec.entry m i) s.sectorSize) := by
  rw [State.sectorOutput, if_pos hstored, if_neg (Nat.not_lt.2 hrem), Memory.readBytes_eq_bytes]

theorem sectorOutput_of_packed (hpacked : Spec.entry m (i + 1) - Spec.entry m i ≠ s.sectorSize)
    (hsize : Spec.entry m i < Spec.entry m (i + 1)) :
    s.sectorOutput i m m' =
      (dispatchTag (m'.read (Spec.entry m i))
        (Spec.bytes m' (Spec.entry m i + 1) (Spec.entry m (i + 1) - Spec.entry m i - 1)) s.sectorSize i).map
        (List.take (s.remaining i)) := by
  rw [State.sectorOutput, if_neg hpacked, if_neg (by omega), Memory.readBytes_eq_bytes]

/-- The bytes of the statements are those a sector gives, up to the file's end (R159, R160). -/
theorem sectorOutput_of_givesSector {out : List Byte} (h : Spec.GivesSector s i m m' out) :
    s.sectorOutput i m m' = .ok (out.take (s.remaining i)) ∧ out.length ≤ s.sectorSize := by
  obtain ⟨-, hout⟩ := h
  split at hout
  next hstored =>
    obtain ⟨hfits, rfl⟩ := hout
    have hrem : s.sectorSize ≤ s.remaining i := by
      have hend : (i + 1) * s.sectorSize ≤ s.usize.toNat := hfits
      rw [Nat.succ_mul] at hend
      rw [State.remaining]
      omega
    have hlen : (Spec.bytes m' (Spec.entry m i) s.sectorSize).length = s.sectorSize := by simp [Spec.bytes]
    have htake := List.take_of_length_le (hlen.trans_le hrem)
    exact ⟨(sectorOutput_of_stored hstored hrem).trans (congrArg _ htake.symm), hlen.le⟩
  next hpacked =>
    obtain ⟨hsize, c, htag, hcodec⟩ := hout
    have hdispatch := dispatchTag_of_ok i htag hcodec
    exact ⟨by rw [sectorOutput_of_packed hpacked hsize]; exact congrArg _ hdispatch, Config.length_codec _ _ _ _ hcodec⟩

/-! ### The fault of a bad sector -/

/-- A fault that ends a command with this `STATUS` and `EINFO` (R203). -/
def Raised.Ends (r : Raised) (status einfo : Word) : Prop :=
  statusWord r.cause.code true true = status ∧ r.info = einfo

theorem Raised.ends_of_some {r r' : Raised} {status einfo st info : Word} (hsome : some r' = some r)
    (h : status = st ∧ einfo = info) (hst : statusWord r'.cause.code true true = st) (hinfo : r'.info = info) :
    r.Ends status einfo := by
  obtain ⟨rfl, rfl⟩ := h
  injection hsome with hsome
  subst hsome
  exact ⟨hst, hinfo⟩

/-- The tests of the extent fault as the statements say (R157, R158). -/
theorem ends_of_sectorFault {r : Raised} {status einfo : Word} (hi : i < 2 ^ 24)
    (hext : sectorFault s i (Spec.entry m i) (Spec.entry m (i + 1)) = some r) (h : Spec.FaultsSector s i m status einfo) :
    r.Ends status einfo := by
  rw [sectorFault] at hext
  rw [Spec.FaultsSector, sectorBytes_eq] at h
  by_cases h1 : Spec.entry m (i + 1) < Spec.entry m i
  · rw [if_pos h1] at hext h
    exact Raised.ends_of_some hext h statusWord_corruptArchive (taggedInfo_eq_sectorInfo rfl i hi)
  rw [if_neg h1] at hext h
  by_cases h2 : s.sectorSize < Spec.entry m (i + 1) - Spec.entry m i
  · rw [if_pos h2] at hext h
    exact Raised.ends_of_some hext h statusWord_corruptArchive (taggedInfo_eq_sectorInfo rfl i hi)
  rw [if_neg h2] at hext h
  by_cases h3 : s.csize.toNat < Spec.entry m i
  · rw [if_pos h3] at hext h
    exact Raised.ends_of_some hext h statusWord_corruptArchive (taggedInfo_eq_sectorInfo rfl i hi)
  rw [if_neg h3] at hext h
  by_cases h4 : s.csize.toNat < Spec.entry m (i + 1)
  · rw [if_pos h4] at hext h
    exact Raised.ends_of_some hext h statusWord_boundsFault (taggedInfo_eq_sectorInfo rfl i hi)
  · rw [if_neg h4] at hext
    cases hext

/-- Behind a legal extent a bad sector gives no bytes but the fault of the statements (R158 to R160, R182, R185). -/
theorem sectorOutput_of_faultsSector {status einfo : Word} (hi : i < 2 ^ 24)
    (hext : sectorFault s i (Spec.entry m i) (Spec.entry m (i + 1)) = none) (h : Spec.FaultsSector s i m status einfo)
    (hpass : ∀ n, Spec.OpensSector s i m n → n = m') :
    ∃ r, s.sectorOutput i m m' = .error r ∧ r.Ends status einfo := by
  obtain ⟨horder, hsize, hregion⟩ := (sectorFault_eq_none _ _ _ _).1 hext
  have hcur := horder.trans hregion
  rw [Spec.FaultsSector, sectorBytes_eq, if_neg (Nat.not_lt.2 horder), if_neg (Nat.not_lt.2 hsize),
    if_neg (Nat.not_lt.2 hcur), if_neg (Nat.not_lt.2 hregion)] at h
  split at h
  next hempty =>
    obtain ⟨rfl, rfl⟩ := h
    exact ⟨_, sectorOutput_of_empty hempty, statusWord_boundsFault, taggedInfo_eq_sectorInfo rfl i hi⟩
  next hnonempty =>
  split at h
  next hstored =>
    obtain ⟨hrem, rfl, rfl⟩ := h
    exact ⟨_, sectorOutput_of_overrun hstored hrem, statusWord_boundsFault, taggedInfo_eq_sectorInfo rfl i hi⟩
  next hpacked =>
    obtain ⟨n, hopens, rfl, htag⟩ := h
    obtain rfl := hpass n hopens
    rw [sectorOutput_of_packed hpacked (by omega)]
    rcases htag with ⟨hzlib, himplode, rfl⟩ | ⟨c, hknown, rfl, hfail⟩
    · rw [dispatchTag_of_unknown _ _ _ hzlib himplode]
      exact ⟨_, rfl, statusWord_unsupportedCompression, taggedInfo_eq_sectorInfo rfl i hi⟩
    · have hdispatch := dispatchTag_of_fail i hknown hfail
      exact ⟨_, congrArg _ hdispatch, statusWord_codecFailure, taggedInfo_eq_sectorInfo rfl i hi⟩

end

/-! ### Good and bad sectors -/

/-- `t` is `s` on its way through the sectored path, at sector `i`: so far the passes have made `d i` of the region. -/
structure ReachesSector (s : State) (d : Nat → Memory) (i : Nat) (t : State) : Prop where
  frame : ExtractFrame s t
  dbuf : t.dbuf = d i

section
variable {s t : State} {d : Nat → Memory} {i : Nat}

theorem sectorFault_of_opensSector {m m' : Memory} (h : Spec.OpensSector s i m m') :
    sectorFault s i (Spec.entry m i) (Spec.entry m (i + 1)) = none := by
  obtain ⟨horder, hsize, hregion, -⟩ := h
  exact (sectorFault_eq_none _ _ _ _).2 ⟨horder, hsize, hregion⟩

theorem ReachesSector.decryptPass_of_opens (ht : ReachesSector s d i t) {m' : Memory} (h : Spec.OpensSector s i (d i) m') :
    t.decryptPass (t.sectorKey i) (Spec.entry (d i) i) (Spec.entry (d i) (i + 1) - Spec.entry (d i) i) = t.setDbuf m' := by
  obtain ⟨-, -, -, hpass⟩ := h
  have hlt := entry_lt (d i) (i + 1)
  rw [State.sectorKey, ht.frame.key]
  exact decryptPass_of_deciphers ht.frame (entry_lt _ _) (by omega) (by rwa [ht.dbuf])

/-- A sector that opens is deciphered as the statements say. -/
theorem ReachesSector.sector_of_opens (ht : ReachesSector s d i t) {m' : Memory} (h : Spec.OpensSector s i (d i) m') :
    sector i t = (s.sectorOutput i (d i) m').map ((t.setDbuf m').putSector i) := by
  have hext := sectorFault_of_opensSector h
  have hpass := ht.decryptPass_of_opens h
  rw [← ht.frame.sectorFault, ← ht.dbuf] at hext
  rw [← ht.dbuf] at hpass
  rw [sector_eq_map_sectorOutput hext hpass, ht.frame.sectorOutput, ht.dbuf]

theorem ReachesSector.next (ht : ReachesSector s d i t) (h : Spec.OpensSector s i (d i) (d (i + 1))) {t' : State}
    (hok : sector i t = .ok t') : ReachesSector s d (i + 1) t' := by
  refine ⟨ht.frame.trans (sector_frame i t t' hok), ?_⟩
  rw [ht.sector_of_opens h] at hok
  cases hout : s.sectorOutput i (d i) (d (i + 1)) with
  | error r => rw [hout] at hok; cases hok
  | ok out =>
    rw [hout] at hok
    injection hok with hok
    rw [← hok]
    rfl

/-- A bad sector ends with the fault the statements name (R157 to R160, R182, R185). -/
theorem ReachesSector.sector_of_faults (ht : ReachesSector s d i t) (hi : i < s.sectorCount) {status einfo : Word}
    (h : Spec.FaultsSector s i (d i) status einfo) : ∃ r, sector i t = .error r ∧ r.Ends status einfo := by
  have hindex := s.index_lt_of_lt_sectorCount i hi
  cases hext : sectorFault s i (Spec.entry (d i) i) (Spec.entry (d i) (i + 1)) with
  | some r =>
    refine ⟨r, ?_, ends_of_sectorFault hindex hext h⟩
    rw [← ht.dbuf, ← ht.frame.sectorFault] at hext
    exact sector_of_sectorFault hext
  | none =>
    have hpass := t.decryptPass_eq_setDbuf (t.sectorKey i) (Spec.entry (d i) i) (Spec.entry (d i) (i + 1) - Spec.entry (d i) i)
    obtain ⟨r, hout, hends⟩ := sectorOutput_of_faultsSector hindex hext h fun m' hopens =>
      congrArg State.dbuf ((ht.decryptPass_of_opens hopens).symm.trans hpass)
    refine ⟨r, ?_, hends⟩
    rw [State.setDbuf_dbuf] at hout
    rw [← ht.dbuf] at hext hpass hout
    rw [← ht.frame.sectorFault] at hext
    rw [sector_eq_map_sectorOutput hext hpass, ht.frame.sectorOutput, hout]
    rfl

end

end Sys2Proof.Machine
end

section
/-! The sectored path over all its sectors: good ones place their bytes one after another, the first bad one ends the command
(R155, R156, R162, R163). -/

namespace Sys2Proof.Machine

/-! ### The commit point -/

/-- The commit point makes `OBUF` zero and deciphers the table (R152, R155). -/
theorem openSectored_of_opensTable {s : State} {m : Memory} (htable : s.tableBytes ≤ s.csize.toNat) (h : Spec.OpensTable s m) :
    s.openSectored = (s.setObuf (s.obuf.writeBytes 0 (List.replicate s.usize.toNat 0))).setDbuf m := by
  have hframe := s.setObuf_frame 0 (List.replicate s.usize.toNat 0) (.inr (by simp))
  have hcsize := s.csize.isLt
  exact decryptPass_of_deciphers hframe (by decide) (by omega) h

theorem ReachesSector.start {s : State} {d : Nat → Memory} (htable : s.tableBytes ≤ s.csize.toNat)
    (h : Spec.OpensTable s (d 0)) : ReachesSector s d 0 s.openSectored := by
  refine ⟨s.openSectored_frame htable, ?_⟩
  rw [openSectored_of_opensTable htable h, State.setDbuf_dbuf]

section
variable {s : State}

/-- The sectored path ends with what its sectors give (R155, R162). -/
theorem extractCommand_of_sectors_ok {t : State} (h : Spec.PassesEntry s) (hsec : Spec.isSectored s)
    (htable : s.tableBytes ≤ s.csize.toNat) (hrun : sectors s.sectorCount 0 s.openSectored = .ok t) :
    extractCommand s = complete .ok (t.setOlen t.usize) := by
  rw [extractCommand_of_sectored h hsec, extractSectored, if_neg (Nat.not_lt.2 htable), hrun]

/-- A fault of a sector frees the two ranges (R163). -/
theorem extractCommand_of_sectors_error {r : Raised} (h : Spec.PassesEntry s) (hsec : Spec.isSectored s)
    (htable : s.tableBytes ≤ s.csize.toNat) (hrun : sectors s.sectorCount 0 s.openSectored = .error r) :
    extractCommand s = raise r s.spoilBuffers := by
  rw [extractCommand_of_sectored h hsec, extractSectored, if_neg (Nat.not_lt.2 htable), hrun]

end

/-- A bad sector behind a run of good ones ends the loop (R156, R217). -/
theorem sectors_of_sector_error {n i : Nat} {s t : State} {r : Raised} (hi : i < n) (hrun : sectors i 0 s = .ok t)
    (h : sector i t = .error r) : sectors n 0 s = .error r := by
  obtain ⟨k, rfl⟩ : ∃ k, n = i + (k + 1) := ⟨n - i - 1, by omega⟩
  rw [sectors_add, hrun]
  simp only [Nat.zero_add, sectors, h]

/-! ### Good sectors -/

/-- What a sector's bytes, cut at the file's end, make of `OBUF` (R159, R160). -/
theorem putSector_obuf_read (i : Nat) (out : List Byte) (t : State) (x : Nat) :
    (t.putSector i (out.take (t.remaining i))).obuf.read x =
      if i * t.sectorSize ≤ x ∧ x < t.usize.toNat ∧ x - i * t.sectorSize < out.length then out.getD (x - i * t.sectorSize) 0
      else t.obuf.read x := by
  rw [State.putSector, State.setObuf_obuf, Memory.read_writeBytes, List.length_take, State.remaining]
  by_cases hx : i * t.sectorSize ≤ x ∧ x < t.usize.toNat ∧ x - i * t.sectorSize < out.length
  · rw [if_pos hx, if_pos (by omega), List.getD_eq_getElem?_getD, List.getElem?_take_of_lt (by omega),
      ← List.getD_eq_getElem?_getD]
  · rw [if_neg hx, if_neg (by omega)]

/-- Byte `x` of a file whose sector `j` of `size` bytes gives `out j`; what no sector gives is 0 (R152, R162). -/
def placedByte (size : Nat) (out : Nat → List Byte) (x : Nat) : Byte := (out (x / size)).getD (x % size) 0

theorem placedByte_add {size k : Nat} (out : Nat → List Byte) (i : Nat) (hk : k < size) :
    placedByte size out (i * size + k) = (out i).getD k 0 := by
  rw [placedByte, Nat.mul_comm i, Nat.mul_add_div (by omega), Nat.mul_add_mod, Nat.div_eq_of_lt hk, Nat.mod_eq_of_lt hk,
    Nat.add_zero]

/-- `t` has placed the bytes `out j` of every sector `j` before sector `i`, and 0 in the rest of the file. -/
structure SectorProgress (s : State) (d : Nat → Memory) (out : Nat → List Byte) (i : Nat) (t : State) : Prop
    extends ReachesSector s d i t where
  obuf : ∀ x, t.obuf.read x =
    if x < s.usize.toNat then if x < i * s.sectorSize then placedByte s.sectorSize out x else 0 else s.obuf.read x

section
variable {s t : State} {d : Nat → Memory} {out : Nat → List Byte} {i : Nat}

theorem SectorProgress.start (htable : s.tableBytes ≤ s.csize.toNat) (h : Spec.OpensTable s (d 0)) :
    SectorProgress s d out 0 s.openSectored where
  toReachesSector := .start htable h
  obuf x := by
    rw [openSectored_of_opensTable htable h, State.setDbuf_obuf, State.setObuf_obuf, Memory.read_writeBytes]
    simp

/-- A good sector goes on, with its bytes in place (R156, R159, R160). -/
theorem SectorProgress.sector (ht : SectorProgress s d out i t) (h : Spec.GivesSector s i (d i) (d (i + 1)) (out i)) :
    ∃ t', sector i t = .ok t' ∧ SectorProgress s d out (i + 1) t' := by
  have hrun := ht.sector_of_opens h.1
  obtain ⟨hout, hlen⟩ := sectorOutput_of_givesSector h
  rw [hout] at hrun
  refine ⟨_, hrun, ht.next h.1 hrun, fun x => ?_⟩
  have hsize : (t.setDbuf (d (i + 1))).sectorSize = s.sectorSize := ht.frame.sectorSize
  have husize : (t.setDbuf (d (i + 1))).usize = s.usize := ht.frame.usize
  have hput := putSector_obuf_read i (out i) (t.setDbuf (d (i + 1))) x
  rw [hsize, husize, State.setDbuf_obuf, ht.obuf] at hput
  rw [← ht.frame.remaining, Nat.succ_mul]
  refine hput.trans ?_
  by_cases hfile : x < s.usize.toNat
  · rw [if_pos hfile, if_pos hfile]
    by_cases hbefore : x < i * s.sectorSize
    · rw [if_neg (by omega), if_pos hbefore, if_pos (by omega)]
    by_cases hbehind : i * s.sectorSize + s.sectorSize ≤ x
    · rw [if_neg (by omega), if_neg hbefore, if_neg (by omega)]
    obtain ⟨k, rfl⟩ := Nat.exists_eq_add_of_le (Nat.not_lt.1 hbefore)
    rw [placedByte_add out i (by omega), if_neg hbefore, if_pos (Nat.not_le.1 hbehind), Nat.add_sub_cancel_left]
    by_cases hk : k < (out i).length
    · rw [if_pos ⟨by omega, hfile, hk⟩]
    · rw [if_neg (by omega), List.getD_eq_default _ _ (by omega)]
  · rw [if_neg (by omega), if_neg hfile, if_neg hfile]

theorem SectorProgress.sectors {n : Nat} (ht : SectorProgress s d out i t)
    (h : ∀ j, i ≤ j → j < i + n → Spec.GivesSector s j (d j) (d (j + 1)) (out j)) :
    ∃ t', sectors n i t = .ok t' ∧ SectorProgress s d out (i + n) t' := by
  induction n generalizing i t with
  | zero => exact ⟨t, rfl, ht⟩
  | succ n ih =>
    obtain ⟨u, hu, hprogress⟩ := ht.sector (h i le_rfl (by omega))
    obtain ⟨t', hrun, hdone⟩ := ih hprogress fun j hj hj' => h j (by omega) (by omega)
    refine ⟨t', ?_, ?_⟩
    · simp only [Machine.sectors, hu, hrun]
    · rwa [Nat.add_succ, ← Nat.succ_add]

/-- The first `n` sectors, all good, from the commit point on. -/
theorem sectors_of_gives {n : Nat} (htable : s.tableBytes ≤ s.csize.toNat) (hopen : Spec.OpensTable s (d 0))
    (h : ∀ j, j < n → Spec.GivesSector s j (d j) (d (j + 1)) (out j)) :
    ∃ t, sectors n 0 s.openSectored = .ok t ∧ SectorProgress s d out n t := by
  have hgood : ∀ j, 0 ≤ j → j < 0 + n → Spec.GivesSector s j (d j) (d (j + 1)) (out j) := fun j _ hj => h j (by omega)
  simpa only [Nat.zero_add] using (SectorProgress.start htable hopen).sectors hgood

/-! ### How the command ends -/

/-- The sectors are the whole file (R146). -/
theorem State.usize_le_sectors (s : State) : s.usize.toNat ≤ s.sectorCount * s.sectorSize :=
  min_eq_right_iff.1 s.rawEnd_sectorCount

theorem sectorCount_of_full {n : Nat} (h : s.usize.toNat = n * s.sectorSize) : s.sectorCount = n := by
  have hpos := s.sectorSize_pos
  rw [State.sectorCount, ceilDiv, h, Nat.add_sub_assoc hpos, Nat.mul_comm, Nat.mul_add_div hpos,
    Nat.div_eq_of_lt (by omega), Nat.add_zero]

theorem sectorCount_of_short (hsome : 0 < s.usize.toNat) (hone : s.usize.toNat ≤ s.sectorSize) : s.sectorCount = 1 := by
  rw [State.sectorCount, ceilDiv]
  exact Nat.div_eq_of_lt_le (by omega) (by omega)

/-- With good sectors only, `EXTRACT` leaves the file in `OBUF` and the last pass's buffer in `DBUF` (R162). -/
theorem extractCommand_of_gives (h : Spec.PassesEntry s) (hsec : Spec.isSectored s) (htable : s.tableBytes ≤ s.csize.toNat)
    (hopen : Spec.OpensTable s (d 0)) (hgood : ∀ j, j < s.sectorCount → Spec.GivesSector s j (d j) (d (j + 1)) (out j)) :
    ∃ o, extractCommand s =
        { s with dbuf := d s.sectorCount, obuf := o, olen := s.usize, status := 0x00000001, einfo := 0 } ∧
      ∀ a, o.read a = if a < s.usize.toNat then placedByte s.sectorSize out a else s.obuf.read a := by
  obtain ⟨t, hrun, hdone⟩ := sectors_of_gives htable hopen hgood
  refine ⟨t.obuf, ?_, fun a => ?_⟩
  · rw [extractCommand_of_sectors_ok h hsec htable hrun, complete_ok_eq, hdone.frame.usize, hdone.frame.others, ← hdone.dbuf]
    rfl
  · rw [hdone.obuf]
    refine ite_congr rfl (fun ha => if_pos ?_) fun _ => rfl
    exact Nat.lt_of_lt_of_le ha s.usize_le_sectors

/-- A bad sector behind good ones ends `EXTRACT` with its fault (R163). -/
theorem extractCommand_of_faults {status einfo : Word} (h : Spec.PassesEntry s) (hsec : Spec.isSectored s)
    (htable : s.tableBytes ≤ s.csize.toNat) (hi : i < s.sectorCount) (hopen : Spec.OpensTable s (d 0))
    (hgood : ∀ j, j < i → Spec.GivesSector s j (d j) (d (j + 1)) (out j)) (hbad : Spec.FaultsSector s i (d i) status einfo) :
    extractCommand s = { s.spoilBuffers with status := status, einfo := einfo } := by
  obtain ⟨t, hrun, hprogress⟩ := sectors_of_gives htable hopen hgood
  obtain ⟨r, hfault, rfl, rfl⟩ := hprogress.sector_of_faults hi hbad
  exact extractCommand_of_sectors_error h hsec htable (sectors_of_sector_error hi hrun hfault)

end

/-! ### The obligations -/

/-- Settles O48: every sector is good, so the loop runs to its end. -/
theorem extractPlacesEverySectorInOrder : Obligations.ExtractPlacesEverySectorInOrder := by
  intro s d hpass hsec htable hopen _
  refine ⟨_, exec_extract s, fun out hgood => ?_⟩
  obtain ⟨o, hend, ho⟩ := extractCommand_of_gives hpass hsec htable hopen hgood
  rw [hend]
  exact ⟨rfl, fun _ => rfl, ho⟩

/-- Settles O46: the loop reaches sector `i` and ends there. -/
theorem extractEndsAtTheFirstBadSector : Obligations.ExtractEndsAtTheFirstBadSector := by
  intro s i d status einfo hpass hsec htable hi hopen hgood hbad
  choose! out hgood using hgood
  have hend := extractCommand_of_faults hpass hsec htable hi hopen hgood hbad
  refine ⟨_, exec_extract s, ?_, extractCommand_dbuf_outside s, fun a ha => extractCommand_obuf_outside s a ?_⟩
  · rw [hend]
    rfl
  · have husize := hpass.size
    omega

/-- Settles O44: sector `j` is the `sectorSize` bytes from `base + j * sectorSize` on. -/
theorem extractStoredSectorsConcatenates : Obligations.ExtractStoredSectorsConcatenates := by
  intro s n base hpass hsec hplain husize htable hregion hentry
  rw [sectorBytes_eq] at husize hregion
  have hcount := sectorCount_of_full husize
  have hgood : ∀ j, j < s.sectorCount →
      Spec.GivesSector s j s.dbuf s.dbuf (Spec.bytes s.dbuf (base + j * s.sectorSize) s.sectorSize) := by
    intro j hj
    have hcur : Spec.entry s.dbuf j = base + j * s.sectorSize := hentry j (by omega)
    have hnxt : Spec.entry s.dbuf (j + 1) = base + (j + 1) * s.sectorSize := hentry (j + 1) (by omega)
    have hend : (j + 1) * s.sectorSize ≤ n * s.sectorSize := Nat.mul_le_mul_right _ (by omega)
    have hmul : (j + 1) * s.sectorSize = j * s.sectorSize + s.sectorSize := Nat.succ_mul ..
    have hstored : Spec.entry s.dbuf (j + 1) - Spec.entry s.dbuf j = s.sectorSize := by omega
    refine ⟨⟨by omega, hstored.le, by omega, deciphers_same hplain _ _ _ _⟩, ?_⟩
    rw [sectorBytes_eq, if_pos hstored, hcur, husize]
    exact ⟨hend, rfl⟩
  have hfits : s.tableBytes ≤ s.csize.toNat := by rwa [State.tableBytes, hcount]
  obtain ⟨o, hend, ho⟩ := extractCommand_of_gives (d := fun _ => s.dbuf) hpass hsec hfits (deciphers_same hplain _ _ _ _) hgood
  refine ⟨o, (exec_extract s).trans (congrArg _ hend), fun a => (ho a).trans (if_congr Iff.rfl ?_ rfl)⟩
  rw [placedByte, ← Memory.readBytes_eq_bytes, Memory.getD_readBytes _ _ _ _ (Nat.mod_lt _ s.sectorSize_pos), Nat.add_assoc,
    Nat.div_add_mod']

/-- Settles O45: the one sector is good when its codec answers, and bad when it fails. -/
theorem extractPackedSectorDispatchesOnTheTag : Obligations.ExtractPackedSectorDispatchesOnTheTag := by
  intro s cur size tag c hpass hsec hplain hone htable hcur hnxt hregion hsize hpacked htag hknown
  rw [sectorBytes_eq] at hone hpacked ⊢
  subst htag
  change Spec.entry s.dbuf 0 = cur at hcur
  change Spec.entry s.dbuf (0 + 1) = cur + size at hnxt
  subst hcur
  have husize := hpass.size
  have hcount : s.sectorCount = 1 := sectorCount_of_short (by omega) hone
  have hlen : Spec.entry s.dbuf (0 + 1) - Spec.entry s.dbuf 0 = size := by omega
  have hopens : Spec.OpensSector s 0 s.dbuf s.dbuf := by
    refine ⟨by omega, ?_, by omega, deciphers_same hplain _ _ _ _⟩
    rw [hlen, sectorBytes_eq]
    omega
  have hfits : s.tableBytes ≤ s.csize.toNat := by rwa [State.tableBytes, hcount]
  have hopen : Spec.OpensTable s s.dbuf := deciphers_same hplain _ _ _ _
  refine ⟨_, exec_extract s, fun r hanswer => ?_, fun hfail => ?_⟩
  · have hgood : ∀ j, j < s.sectorCount → Spec.GivesSector s j s.dbuf s.dbuf r := by
      intro j hj
      obtain rfl : j = 0 := by omega
      refine ⟨hopens, ?_⟩
      rw [hlen, sectorBytes_eq, if_neg hpacked.ne]
      exact ⟨by omega, c, hknown, hanswer⟩
    obtain ⟨o, hend, ho⟩ := extractCommand_of_gives (d := fun _ => s.dbuf) (out := fun _ => r) hpass hsec hfits hopen hgood
    rw [hend]
    refine ⟨rfl, fun a => (ho a).trans (ite_congr rfl (fun ha => ?_) fun _ => rfl)⟩
    rw [placedByte, Nat.mod_eq_of_lt (by omega)]
  · have hbad : Spec.FaultsSector s 0 s.dbuf 0x00008303 (Spec.sectorInfo (s.dbuf.read (Spec.entry s.dbuf 0)).toNat 0) := by
      rw [Spec.FaultsSector, sectorBytes_eq, if_neg (by omega), if_neg (by omega), if_neg (by omega), if_neg (by omega),
        if_neg (by omega), if_neg (by omega)]
      refine ⟨s.dbuf, hopens, rfl, .inr ⟨c, hknown, rfl, ?_⟩⟩
      rwa [hlen]
    have hend := extractCommand_of_faults (d := fun _ => s.dbuf) (out := fun _ => []) hpass hsec hfits (by omega) hopen
      (fun j hj => absurd hj (Nat.not_lt_zero j)) hbad
    rw [hend]
    exact ⟨rfl, congrArg (BitVec.ofNat 32) (Nat.add_zero _), rfl⟩

end Sys2Proof.Machine
end

section
/-! An encrypted file whose sectors lie behind its table, beside the region deciphered by hand: both runs go sector by sector
through the same extents and bytes (R153, R155, R156). -/

namespace Sys2Proof.Machine

/-! ### The record without `Encrypted` -/

/-- The record of `s` with `Encrypted` clear, over the region `m`. -/
def State.plainRecord (s : State) (m : Memory) : State :=
  { s with flags := s.flags &&& ~~~Config.flagMasks.encrypted, dbuf := m }

section
variable (s : State) (m : Memory)

/-- Clearing `Encrypted` leaves every flag of another bit (R88). -/
theorem plainRecord_flags_and (mask : Word) (h : ~~~Config.flagMasks.encrypted &&& mask = mask) :
    (s.plainRecord m).flags &&& mask = s.flags &&& mask := by
  rw [State.plainRecord, BitVec.and_assoc, h]

theorem plainRecord_not_encrypted : ¬ Spec.isEncrypted (s.plainRecord m) := by
  rw [Spec.isEncrypted, not_not, State.plainRecord, BitVec.and_assoc]
  exact BitVec.and_zero

theorem plainRecord_isSectored (h : Spec.isSectored s) : Spec.isSectored (s.plainRecord m) := by
  rw [Spec.isSectored, plainRecord_flags_and _ _ _ (by decide), plainRecord_flags_and _ _ _ (by decide)]
  exact h

theorem plainRecord_passesEntry (h : Spec.PassesEntry s) : Spec.PassesEntry (s.plainRecord m) where
  shift := h.shift
  existing := by
    rw [Spec.isExisting, plainRecord_flags_and _ _ _ (by decide)]
    exact h.existing
  archived := h.archived
  size := h.size
  supported := by
    rw [Spec.isUnsupported, plainRecord_flags_and _ _ _ (by decide), plainRecord_flags_and _ _ _ (by decide)]
    exact h.supported
  region_fits := h.region_fits
  file_fits := h.file_fits

end

/-! ### Passes behind the table -/

/-- A pass over a sector changes no byte outside its extent (R156). -/
theorem read_outside_of_opensSector {s : State} {i : Nat} {m m' : Memory} (h : Spec.OpensSector s i m m') (x : Nat)
    (hx : x < Spec.entry m i ∨ Spec.entry m (i + 1) ≤ x) : m'.read x = m.read x := by
  obtain ⟨horder, -, -, hpass⟩ := h
  have hlt := entry_lt m (i + 1)
  exact read_outside_of_deciphers (entry_lt _ _) (by omega) hpass x (by omega)

/-- `d` deciphers the region of `s` part by part: the table into `d 0`, sector `i` into `d (i + 1)`, and no sector lies over the
table. -/
structure DeciphersBehindTable (s : State) (d : Nat → Memory) : Prop where
  fits : s.tableBytes ≤ s.csize.toNat
  table : Spec.OpensTable s (d 0)
  behind : s.tableBytes ≤ Spec.entry (d 0) 0
  opens : ∀ i, i < s.sectorCount → Spec.OpensSector s i (d i) (d (i + 1))

namespace DeciphersBehindTable

variable {s t : State} {d : Nat → Memory} {i j : Nat}

/-- No pass over a sector rewrites the table, and every sector starts behind it. -/
theorem table_stays (h : DeciphersBehindTable s d) (hi : i ≤ s.sectorCount) :
    (∀ x, x < s.tableBytes → (d i).read x = (d 0).read x) ∧ s.tableBytes ≤ Spec.entry (d i) i := by
  induction i with
  | zero => exact ⟨fun _ _ => rfl, h.behind⟩
  | succ i ih =>
    obtain ⟨hstays, hstart⟩ := ih (by omega)
    have hopens := h.opens i hi
    have hsame : ∀ x, x < s.tableBytes → (d (i + 1)).read x = (d i).read x := fun x hx =>
      read_outside_of_opensSector hopens x (.inl (by omega))
    have hentry : Spec.entry (d (i + 1)) (i + 1) = Spec.entry (d i) (i + 1) :=
      entry_congr _ fun x _ hx => hsame x (by rw [State.tableBytes]; omega)
    refine ⟨fun x hx => (hsame x hx).trans (hstays x hx), ?_⟩
    rw [hentry]
    exact hstart.trans hopens.1

theorem entry_eq (h : DeciphersBehindTable s d) (hi : i ≤ s.sectorCount) (hj : j ≤ s.sectorCount) :
    Spec.entry (d i) j = Spec.entry (d 0) j :=
  entry_congr _ fun x _ hx => (h.table_stays hi).1 x (by rw [State.tableBytes]; omega)

/-- Once sector `i` is reached, no pass changes a byte before it. -/
theorem read_before (h : DeciphersBehindTable s d) (hij : i ≤ j) (hj : j ≤ s.sectorCount) :
    Spec.entry (d 0) i ≤ Spec.entry (d 0) j ∧ ∀ x, x < Spec.entry (d 0) i → (d j).read x = (d i).read x := by
  induction j, hij using Nat.le_induction with
  | base => exact ⟨le_rfl, fun _ _ => rfl⟩
  | succ j hij ih =>
    obtain ⟨hmono, hsame⟩ := ih (by omega)
    have hopens := h.opens j hj
    have hcur := h.entry_eq (i := j) (j := j) (by omega) (by omega)
    have hnxt := h.entry_eq (i := j) (j := j + 1) (by omega) hj
    have horder := hopens.1
    refine ⟨by omega, fun x hx => ?_⟩
    rw [read_outside_of_opensSector hopens x (.inl (by omega)), hsame x hx]

/-- No pass changes a byte behind the region. -/
theorem read_behind_region (h : DeciphersBehindTable s d) (hi : i ≤ s.sectorCount) (x : Nat) (hx : s.csize.toNat ≤ x) :
    (d i).read x = s.dbuf.read x := by
  induction i with
  | zero =>
    have hend : 0 + (Spec.sectorCount s + 1) * 4 ≤ s.csize.toNat := by
      rw [Nat.zero_add]
      exact h.fits
    have hcsize := s.csize.isLt
    exact read_outside_of_deciphers (by decide) (by omega) h.table x (.inr (hend.trans hx))
  | succ i ih =>
    have hopens := h.opens i hi
    have hregion : Spec.entry (d i) (i + 1) ≤ s.csize.toNat := hopens.2.2.1
    rw [read_outside_of_opensSector hopens x (.inr (hregion.trans hx)), ih (by omega)]

/-- What a sector gives when it is reached is what it gives of the deciphered region. -/
theorem sectorOutput_eq (h : DeciphersBehindTable s d) (hi : i < s.sectorCount) :
    s.sectorOutput i (d i) (d (i + 1)) = s.sectorOutput i (d s.sectorCount) (d s.sectorCount) := by
  have hcur := h.entry_eq (i := i) (j := i) (by omega) (by omega)
  have hnxt := h.entry_eq (i := i) (j := i + 1) (by omega) hi
  have hcur' := h.entry_eq (i := s.sectorCount) (j := i) le_rfl (by omega)
  have hnxt' := h.entry_eq (i := s.sectorCount) (j := i + 1) le_rfl hi
  refine s.sectorOutput_congr (hcur.trans hcur'.symm) (hnxt.trans hnxt'.symm) fun x _ hx => ?_
  exact ((h.read_before (i := i + 1) hi le_rfl).2 x (by omega)).symm

/-! ### The two runs -/

/-- A sector of the deciphered region, with any bytes already in `OBUF`. -/
theorem sector_plainRecord (h : DeciphersBehindTable s d) (hi : i < s.sectorCount) (o : Memory) :
    sector i ((s.plainRecord (d s.sectorCount)).setObuf o) =
      (s.sectorOutput i (d i) (d (i + 1))).map (((s.plainRecord (d s.sectorCount)).setObuf o).putSector i) := by
  rw [h.sectorOutput_eq hi]
  have hext := sectorFault_of_opensSector (h.opens i hi)
  rw [h.entry_eq (by omega) (by omega), h.entry_eq (by omega) hi, ← h.entry_eq le_rfl (by omega : i ≤ s.sectorCount),
    ← h.entry_eq le_rfl (by omega : i + 1 ≤ s.sectorCount)] at hext
  exact sector_eq_map_sectorOutput hext
    (State.decryptPass_plain _ _ _ _ (flagEncrypted_of_plain (plainRecord_not_encrypted s (d s.sectorCount))))

/-- The run over the deciphered region follows the run that deciphers: same end, same `OBUF`. -/
theorem sectors_plainRecord (h : DeciphersBehindTable s d) {n : Nat} (ht : ReachesSector s d i t) (hn : i + n ≤ s.sectorCount) :
    sectors n i ((s.plainRecord (d s.sectorCount)).setObuf t.obuf) =
      (sectors n i t).map fun t' => (s.plainRecord (d s.sectorCount)).setObuf t'.obuf := by
  induction n generalizing i t with
  | zero => rfl
  | succ n ih =>
    have hi : i < s.sectorCount := by omega
    have hplain := h.sector_plainRecord hi t.obuf
    have hrun := ht.sector_of_opens (h.opens i hi)
    cases hout : s.sectorOutput i (d i) (d (i + 1)) with
    | error r =>
      rw [hout] at hplain hrun
      simp only [sectors, hplain, hrun, Except.map]
    | ok bytes =>
      rw [hout] at hplain hrun
      have hnext := ih (ht.next (h.opens i hi) hrun) (by omega)
      have hput : ((s.plainRecord (d s.sectorCount)).setObuf t.obuf).putSector i bytes =
          (s.plainRecord (d s.sectorCount)).setObuf (((t.setDbuf (d (i + 1))).putSector i bytes).obuf) := by
        have hsize : t.sectorSize = s.sectorSize := ht.frame.sectorSize
        change State.setObuf _ (t.obuf.writeBytes (i * s.sectorSize) bytes) =
          State.setObuf _ (t.obuf.writeBytes (i * t.sectorSize) bytes)
        rw [hsize]
        rfl
      rw [Except.map, hput] at hplain
      rw [Except.map] at hrun
      simp only [sectors, hplain, hrun]
      exact hnext

/-- The loop that deciphers has made the whole deciphered region when it ends. -/
theorem dbuf_of_sectors_ok (h : DeciphersBehindTable s d) {n : Nat} (ht : ReachesSector s d i t) (hn : i + n ≤ s.sectorCount)
    {t' : State} (hok : sectors n i t = .ok t') : t'.dbuf = d (i + n) := by
  induction n generalizing i t with
  | zero =>
    injection hok with hok
    rw [← hok]
    exact ht.dbuf
  | succ n ih =>
    rw [sectors] at hok
    cases hsector : sector i t with
    | error r =>
      rw [hsector] at hok
      cases hok
    | ok u =>
      rw [hsector] at hok
      rw [Nat.add_succ, ← Nat.succ_add]
      exact ih (ht.next (h.opens i (by omega)) hsector) (by omega) hok

/-- Both runs start with the same zeroed file in `OBUF` (R152). -/
theorem openSectored_plainRecord (h : DeciphersBehindTable s d) :
    (s.plainRecord (d s.sectorCount)).openSectored =
      (s.plainRecord (d s.sectorCount)).setObuf s.openSectored.obuf := by
  rw [openSectored_of_opensTable h.fits h.table]
  exact State.decryptPass_plain _ _ _ _ (flagEncrypted_of_plain (plainRecord_not_encrypted s (d s.sectorCount)))

end DeciphersBehindTable

/-! ### The obligation -/

/-- Settles O47: the two loops give the same bytes or raise the same fault, so both commands end alike. -/
theorem encryptedSectorExtractsLikeItsDecipheredRegion : Obligations.EncryptedSectorExtractsLikeItsDecipheredRegion := by
  intro s d hpass hsec _ hfits htable hbehind hopens
  have h : DeciphersBehindTable s d := ⟨hfits, htable, hbehind, hopens⟩
  have hpass' := plainRecord_passesEntry s (d s.sectorCount) hpass
  have hsec' := plainRecord_isSectored s (d s.sectorCount) hsec
  have hstart := ReachesSector.start hfits htable
  have hruns := h.sectors_plainRecord hstart (n := s.sectorCount) (by omega)
  rw [← h.openSectored_plainRecord] at hruns
  refine ⟨_, _, exec_extract s, exec_extract (s.plainRecord (d s.sectorCount)), ?_⟩
  cases hrun : sectors s.sectorCount 0 s.openSectored with
  | error r =>
    rw [hrun] at hruns
    rw [extractCommand_of_sectors_error hpass hsec hfits hrun, extractCommand_of_sectors_error hpass' hsec' hfits hruns]
    refine ⟨rfl, rfl, rfl, fun _ => rfl, fun a => ?_, rfl⟩
    change (s.dbuf.spoil s.csize.toNat s.draws).read a = ((d s.sectorCount).spoil s.csize.toNat s.draws).read a
    rw [Memory.read_spoil, Memory.read_spoil]
    exact ite_congr rfl (fun _ => rfl) fun ha => (h.read_behind_region le_rfl a (Nat.not_lt.1 ha)).symm
  | ok t =>
    have hdbuf := h.dbuf_of_sectors_ok hstart (by omega) hrun
    have hframe := hstart.frame.trans (sectors_frame _ _ _ _ hrun)
    rw [hrun] at hruns
    rw [extractCommand_of_sectors_ok hpass hsec hfits hrun, extractCommand_of_sectors_ok hpass' hsec' hfits hruns]
    refine ⟨rfl, rfl, hframe.usize, fun _ => rfl, fun a => ?_, hframe.flags⟩
    rw [complete_dbuf, State.setOlen_dbuf, hdbuf, Nat.zero_add]
    rfl

end Sys2Proof.Machine
end

section
/-! `DECOMP`: its operand tests, and how it ends on what the dispatcher answers (R180 to R185). -/

namespace Sys2Proof.Machine

theorem exec_decomp (s : State) : exec .decomp s = .next (decompCommand s) := rfl

/-- The operands pass the three tests of `DECOMP` (R180). -/
structure State.PassesDecomp (s : State) : Prop where
  shift : s.sshift.toNat ≤ 22
  nonempty : s.length ≠ 0
  region_fits : s.offset.toNat + s.length.toNat ≤ s.geom.dbufSize

theorem not_regionOverruns_of_fits {s : State} (h : s.offset.toNat + s.length.toNat ≤ s.geom.dbufSize) :
    ¬ s.regionOverruns = true :=
  mt s.regionOverruns_iff.1 (Nat.not_lt.2 h)

/-- How `DECOMP` ends on an answer of the dispatcher (R180, R203). -/
def State.endDecomp (s : State) : Except Raised (List Byte) → State
  | .error r => raise r s
  | .ok out => storeResult out s

/-- Past the operand tests the dispatcher gets the tag, the payload, the sector size and index 0 (R180, R181). -/
theorem decompCommand_of_passes {s : State} (h : s.PassesDecomp) :
    decompCommand s =
      s.endDecomp (dispatchTag (s.dbuf.read s.offset.toNat) (Spec.bytes s.dbuf (s.offset.toNat + 1) (s.length.toNat - 1))
        (Spec.sectorBytes s) 0) := by
  rw [decompCommand, if_neg (not_shiftTooLarge_of_le h.shift), if_neg h.nonempty,
    if_neg (not_regionOverruns_of_fits h.region_fits), Memory.readBytes_eq_bytes, sectorBytes_eq]
  dsimp only
  split
  next r hfault =>
    rw [hfault]
    rfl
  next out hresult =>
    rw [hresult]
    rfl

/-- A result that fits `OBUF` is stored, and `OLEN` is its length (R180). -/
theorem storeResult_of_fits {out : List Byte} {s : State} (h : out.length ≤ s.geom.obufSize) :
    storeResult out s =
      { s with
        obuf := s.obuf.writeBytes 0 out
        olen := BitVec.ofNat 32 out.length
        status := 0x00000001
        einfo := 0 } := by
  rw [storeResult, if_neg (Nat.not_lt.2 h), complete_ok_eq]
  rfl

/-- A result longer than `OBUF` is cause 6 (R180). -/
theorem storeResult_of_overruns {out : List Byte} {s : State} (h : s.geom.obufSize < out.length) :
    storeResult out s = { s with status := 0x00008203, einfo := 0x06000000 } := by
  rw [storeResult, if_pos h, raise_eq, statusWord_boundsFault]
  rfl

/-- `DECOMP` names its tag with sector index 0 (R182, R185, R204). -/
theorem taggedInfo_zero (tag : Byte) : taggedInfo tag 0 = BitVec.ofNat 32 (tag.toNat * 2 ^ 24) := by
  rw [taggedInfo_eq_sectorInfo rfl 0 (by decide), Spec.sectorInfo, Nat.add_zero]

/-- The largest legal sector size is `2^31` (R146), so that the length of a codec's result fits `OLEN`. -/
theorem State.sectorSize_le {s : State} (h : s.sshift.toNat ≤ 22) : s.sectorSize ≤ 2 ^ 31 :=
  calc 512 * 2 ^ s.sshift.toNat ≤ 512 * 2 ^ 22 := Nat.mul_le_mul_left _ (Nat.pow_le_pow_right (by decide) h)
    _ = 2 ^ 31 := by decide

/-! ### The obligations -/

/-- Settles O51: the dispatcher answers as the codec of the tag, whose result is at most a sector long. -/
theorem decompEndsAsItsCodecAnswers : Obligations.DecompEndsAsItsCodecAnswers := by
  rintro s tag c hshift hsome hfits rfl htag
  refine ⟨_, exec_decomp s, ?_⟩
  rw [decompCommand_of_passes ⟨hshift, hsome, hfits⟩]
  split
  next out hcodec =>
    rw [dispatchTag_of_ok 0 htag hcodec, State.endDecomp]
    split
    next hroom =>
      rw [storeResult_of_fits hroom]
      have hlen : out.length ≤ 2 ^ 31 := (Config.length_codec _ _ _ _ hcodec).trans (State.sectorSize_le hshift)
      refine ⟨rfl, ?_, fun a => ?_⟩
      · rw [BitVec.toNat_ofNat, Nat.mod_eq_of_lt (by omega)]
      · simpa using s.obuf.read_writeBytes 0 out a
    next hlong => exact storeResult_of_overruns (Nat.not_le.1 hlong)
  next hcodec => rw [dispatchTag_of_fail 0 htag hcodec, State.endDecomp, raise_eq, statusWord_codecFailure, taggedInfo_zero]

/-- Settles O52: such a tag names no codec, and a sector index below `2^24` stands beside the tag in `EINFO`. -/
theorem unknownTagsRaiseUnsupportedCompression : Obligations.UnknownTagsRaiseUnsupportedCompression := by
  refine ⟨fun tag payload limit i hzlib himplode hi => ?_, fun s hshift hsome hfits hzlib himplode => ?_⟩
  · have hinfo := toNat_taggedInfo tag i hi
    exact ⟨taggedInfo tag i, dispatchTag_of_unknown payload limit i hzlib himplode, by omega, by omega⟩
  · rw [exec_decomp, decompCommand_of_passes ⟨hshift, hsome, hfits⟩, dispatchTag_of_unknown _ _ 0 hzlib himplode,
      State.endDecomp, raise_eq, statusWord_unsupportedCompression, taggedInfo_zero]

/-- Settles O53: each test is reached when the ones before it pass. -/
theorem decompOperandFaultsInOrder : Obligations.DecompOperandFaultsInOrder := by
  intro s
  rw [exec_decomp, decompCommand]
  refine ⟨fun hshift => ?_, fun hshift hempty => ?_, fun hshift hsome hover => ?_⟩
  · rw [if_pos (s.shiftTooLarge_iff.2 hshift), raise_eq, statusWord_illegalOperand]
    rfl
  · rw [if_neg (not_shiftTooLarge_of_le hshift), if_pos hempty, raise_eq, statusWord_illegalOperand]
    rfl
  · rw [if_neg (not_shiftTooLarge_of_le hshift), if_neg hsome, if_pos (s.regionOverruns_iff.2 hover), raise_eq,
      statusWord_boundsFault]
    rfl

end Sys2Proof.Machine
end

section
/-! How every command ends (R202, R203, R215): normally, or with one of the faults listed for it. -/

namespace Sys2Proof.Machine

/-- The causes a command can raise (R215). -/
def faultCauses (i : Instr) : List EngineFault :=
  match i with
  | .hashA | .hashB | .hashK | .keygen => [.illegalOperand, .unsupportedCharacter]
  | .decrypt | .encrypt => [.boundsFault]
  | .extract =>
    [.illegalOperand, .unsupportedFeature, .boundsFault, .corruptArchive, .unsupportedCompression, .codecFailure]
  | .decomp => [.illegalOperand, .boundsFault, .unsupportedCompression, .codecFailure]

/-- The ways the command `i` can end from `s`: a normal end, `NOT_FOUND` for `EXTRACT` only, or one of its faults, raised on `s`
itself unless the command is `EXTRACT` (R202, R203, R210). -/
inductive CommandEnds (i : Instr) (s : State) : State → Prop where
  | completes (c : Completion) (u : State) (hc : c = .ok ∨ i = .extract) : CommandEnds i s (complete c u)
  | raises (r : Raised) (u : State) (hr : r.cause ∈ faultCauses i) (hu : i ≠ .extract → u = s) : CommandEnds i s (raise r u)

/-! ### Each command -/

section
variable {i : Instr}

theorem CommandEnds.completes_ok (s u : State) : CommandEnds i s (complete .ok u) := .completes .ok u (.inl rfl)

theorem CommandEnds.raises_precisely (s : State) (r : Raised) (hr : r.cause ∈ faultCauses i) : CommandEnds i s (raise r s) :=
  .raises r s hr fun _ => rfl

theorem hashCommand_ends (hi : faultCauses i = [.illegalOperand, .unsupportedCharacter]) (p : Purpose) (s : State) :
    CommandEnds i s (hashCommand p s) := by
  rcases hashCommand_cases p s with h | ⟨k, c, h⟩ | ⟨d, h⟩ <;> rw [h]
  · exact .raises_precisely s _ (by simp [hi])
  · exact .raises_precisely s _ (by simp [hi])
  · exact .completes_ok s _

theorem keygenCommand_ends (s : State) : CommandEnds .keygen s (keygenCommand s) := by
  rcases keygenCommand_cases s with h | ⟨k, c, h⟩ | ⟨k, h⟩ <;> rw [h]
  · exact .raises_precisely s _ (by simp [faultCauses])
  · exact .raises_precisely s _ (by simp [faultCauses])
  · exact .completes_ok s _

theorem cryptCommand_ends (hi : faultCauses i = [.boundsFault]) (dir : Direction) (s : State) :
    CommandEnds i s (cryptCommand dir s) := by
  rcases cryptCommand_cases dir s with h | ⟨-, h⟩ <;> rw [h]
  · exact .raises_precisely s _ (by simp [hi])
  · exact .completes_ok s _

theorem decompCommand_ends (s : State) : CommandEnds .decomp s (decompCommand s) := by
  rcases decompCommand_cases s with ⟨r, hr, h⟩ | ⟨bs, -, -, -, h⟩ <;> rw [h]
  · exact .raises_precisely s r hr
  · exact .completes_ok s _

theorem extractCommand_ends (s : State) : CommandEnds .extract s (extractCommand s) := by
  rcases extractCommand_cases s with ⟨r, hr, h⟩ | ⟨c, h⟩ | h | ⟨-, r, hr, h⟩ | ⟨-, t, -, h⟩ <;> rw [h]
  · have hentry : [.illegalOperand, .unsupportedFeature, .boundsFault] ⊆ faultCauses .extract := by decide
    exact .raises_precisely s r (hentry hr)
  · exact .completes c _ (.inr rfl)
  · exact .completes_ok s _
  · have hlate : [.corruptArchive, .boundsFault, .unsupportedCompression, .codecFailure] ⊆ faultCauses .extract := by decide
    exact .raises r _ (hlate hr) fun hne => absurd rfl hne
  · exact .completes_ok s _

end

/-- Every command ends, from every state (R60, R215). -/
theorem exec_ends (i : Instr) (s : State) : ∃ t, exec i s = .next t ∧ CommandEnds i s t := by
  cases i with
  | hashA => exact ⟨_, rfl, hashCommand_ends rfl .hashA s⟩
  | hashB => exact ⟨_, rfl, hashCommand_ends rfl .hashB s⟩
  | hashK => exact ⟨_, rfl, hashCommand_ends rfl .tableKey s⟩
  | decrypt => exact ⟨_, exec_decrypt s, cryptCommand_ends rfl .dec s⟩
  | encrypt => exact ⟨_, exec_encrypt s, cryptCommand_ends rfl .enc s⟩
  | keygen => exact ⟨_, exec_keygen s, keygenCommand_ends s⟩
  | extract => exact ⟨_, exec_extract s, extractCommand_ends s⟩
  | decomp => exact ⟨_, exec_decomp s, decompCommand_ends s⟩

/-! ### The `STATUS` words of the ends -/

theorem statusWord_mem_endings_of_fault (i : Instr) :
    ∀ c ∈ faultCauses i, statusWord c.code true true ∈ endings i := by
  cases i <;> decide

theorem ok_mem_endings (i : Instr) : 0x00000001 ∈ endings i := by
  cases i <;> decide

theorem statusWord_mem_endings_of_completion {i : Instr} {c : Completion} (h : c = .ok ∨ i = .extract) :
    statusWord c.code false true ∈ endings i := by
  rcases h with rfl | rfl
  · exact statusWord_ok ▸ ok_mem_endings i
  · cases c <;> decide

theorem CommandEnds.status_mem {i : Instr} {s t : State} (h : CommandEnds i s t) : t.status ∈ endings i := by
  cases h with
  | completes c u hc => exact statusWord_mem_endings_of_completion hc
  | raises r u hr hu => exact statusWord_mem_endings_of_fault i _ hr

/-- A fault outside `EXTRACT` is raised on the state the command started from (R203). -/
theorem CommandEnds.precise {i : Instr} {s t : State} (h : CommandEnds i s t) (hi : i ≠ .extract) (herr : statusErr t.status = true) :
    t = { s with status := t.status, einfo := t.einfo } := by
  cases h with
  | completes c u hc =>
    rw [complete_status, statusErr_complete] at herr
    cases herr
  | raises r u hr hu =>
    rw [hu hi]
    rfl

/-- A normal end's status word has `DONE` set and holds its code (R202). -/
theorem statusDone_complete (c : Completion) : statusDone (statusWord c.code false true) = true := by
  cases c <;> decide

theorem statusCode_complete (c : Completion) : statusCode (statusWord c.code false true) = c.code := by
  cases c <;> decide

/-! ### The obligations -/

/-- Settles O55: the `STATUS` of each end is one of the command's. -/
theorem everyCommandEndsAsListed : Obligations.EveryCommandEndsAsListed := by
  intro i s
  obtain ⟨t, hexec, hends⟩ := exec_ends i s
  exact ⟨t, hexec, hends.status_mem⟩

/-- Settles O57: `ERR` is bit 1 of `STATUS`, and only a raised fault sets it. -/
theorem faultsOutsideExtractArePrecise : Obligations.FaultsOutsideExtractArePrecise := by
  intro i s t hi hexec (herr : statusErr t.status = true)
  obtain ⟨u, hu, hends⟩ := exec_ends i s
  obtain rfl : u = t := by
    injection hu.symm.trans hexec
  exact hends.precise hi herr

/-- Settles O54: the two status words, then the three fields of any of them. -/
theorem completeWritesStatusAndClearsEinfo : Obligations.CompleteWritesStatusAndClearsEinfo := by
  intro s
  refine ⟨complete_ok_eq s, ?_, fun c => ?_⟩
  · rw [complete, statusWord_notFound]
    rfl
  · rw [complete_status]
    exact ⟨statusDone_complete c, statusErr_complete c, statusCode_complete c⟩

end Sys2Proof.Machine
end

section
/-! A `CMD` write of a word that is no command (R84, R211). -/

namespace Sys2Proof.Machine

theorem issueCommand_of_illegal {w : Word} (s : State) (h : decode w = .error (.illegalCommand w)) :
    issueCommand w s = .next (raise ⟨.illegalCommand, w⟩ s) := by
  rw [issueCommand, h]

/-- The words of R82 are the only encodings of commands. -/
theorem encode_mem_legalWords (i : Instr) :
    encode i ∈
      ([0x00000101, 0x00000201, 0x00000301, 0x00000002, 0x00000003, 0x00000004, 0x00000005, 0x00000006] : List Word) := by
  cases i <;> decide

/-- Settles O4: the decoder rejects every word but the eight encodings. -/
theorem illegalWordRaisesIllegalCommand : Obligations.IllegalWordRaisesIllegalCommand := by
  intro s w rest hs hw
  have hillegal : decode w = .error (.illegalCommand w) := by
    rcases decode_cases w with ⟨i, rfl⟩ | h
    · exact absurd (encode_mem_legalWords i) hw
    · exact h
  rw [step_cons s _ rest hs, hostAccess_cmd, issueCommand_of_illegal _ hillegal, raise_eq, statusWord_illegalCommand]

end Sys2Proof.Machine
end

section
/-! Faults are not sticky (R218): no command reads `STATUS` or `EINFO`. The state is taken with both replaced
(`State.endWith`); every command writes both at its end, and the passes of `EXTRACT` carry them along. -/

namespace Sys2Proof.Machine

section
variable (s : State) (status einfo : Word)

/-! ### The commands outside `EXTRACT`: every operand is another field, and both ways to end write `STATUS` and `EINFO` -/

theorem hashCommand_endWith (p : Purpose) : hashCommand p (s.endWith status einfo) = hashCommand p s := rfl

theorem keygenCommand_endWith : keygenCommand (s.endWith status einfo) = keygenCommand s := rfl

theorem cryptCommand_endWith (dir : Direction) : cryptCommand dir (s.endWith status einfo) = cryptCommand dir s := rfl

theorem decompCommand_endWith : decompCommand (s.endWith status einfo) = decompCommand s := rfl

/-! ### The passes of `EXTRACT` -/

theorem State.decryptPass_endWith (key : Word) (off len : Nat) :
    (s.endWith status einfo).decryptPass key off len = (s.decryptPass key off len).endWith status einfo := by
  cases h : s.flagEncrypted with
  | false => rw [s.decryptPass_plain _ _ _ h, (s.endWith status einfo).decryptPass_plain _ _ _ h]
  | true =>
    rw [s.decryptPass_encrypted _ _ _ h, (s.endWith status einfo).decryptPass_encrypted _ _ _ h]
    rfl

theorem State.openSectored_endWith : (s.endWith status einfo).openSectored = s.openSectored.endWith status einfo :=
  State.decryptPass_endWith (s.setObuf (s.obuf.writeBytes 0 (List.replicate s.usize.toNat 0))) status einfo ..

/-- One sector: the same fault, or the same bytes (R156). -/
theorem sector_endWith (i : Nat) :
    sector i (s.endWith status einfo) = (sector i s).map (·.endWith status einfo) := by
  cases hext : sectorFault s i (Spec.entry s.dbuf i) (Spec.entry s.dbuf (i + 1)) with
  | some r =>
    rw [sector_of_sectorFault hext, sector_of_sectorFault (t := s.endWith status einfo) hext]
    rfl
  | none =>
    obtain ⟨m, hpass⟩ : ∃ m, s.decryptPass (s.sectorKey i) (Spec.entry s.dbuf i)
        (Spec.entry s.dbuf (i + 1) - Spec.entry s.dbuf i) = s.setDbuf m := ⟨_, s.decryptPass_eq_setDbuf ..⟩
    have hpass' := (s.decryptPass_endWith status einfo ..).trans (congrArg (·.endWith status einfo) hpass)
    have hout : (s.endWith status einfo).sectorOutput i s.dbuf m = s.sectorOutput i s.dbuf m := rfl
    rw [sector_eq_map_sectorOutput hext hpass,
      sector_eq_map_sectorOutput (t := s.endWith status einfo) (m' := m) hext hpass', State.endWith_dbuf, hout]
    cases s.sectorOutput i s.dbuf m <;> rfl

theorem sectors_endWith (n i : Nat) :
    sectors n i (s.endWith status einfo) = (sectors n i s).map (·.endWith status einfo) := by
  induction n generalizing i s with
  | zero => rfl
  | succ n ih =>
    rw [sectors, sectors, sector_endWith]
    cases sector i s with
    | error r => rfl
    | ok t => exact ih t (i + 1)

theorem rawChunk_endWith (i : Nat) : rawChunk i (s.endWith status einfo) = (rawChunk i s).endWith status einfo := by
  have hpass := s.decryptPass_endWith status einfo (s.sectorKey i) (i * s.sectorSize) (s.chunkSize i)
  exact congrArg (fun d => d.putSector i (d.dbuf.readBytes (i * s.sectorSize) (s.chunkSize i))) hpass

theorem rawChunks_endWith (n i : Nat) :
    rawChunks n i (s.endWith status einfo) = (rawChunks n i s).endWith status einfo := by
  induction n generalizing i s with
  | zero => rfl
  | succ n ih => rw [rawChunks, rawChunks, rawChunk_endWith, ih]

/-! ### `EXTRACT` -/

theorem extractSectored_endWith : extractSectored (s.endWith status einfo) = extractSectored s := by
  have hrun : sectors (s.endWith status einfo).sectorCount 0 (s.endWith status einfo).openSectored =
      (sectors s.sectorCount 0 s.openSectored).map (·.endWith status einfo) := by
    rw [State.openSectored_endWith]
    exact sectors_endWith ..
  rw [extractSectored, extractSectored, hrun]
  cases sectors s.sectorCount 0 s.openSectored <;> rfl

theorem extractRaw_endWith : extractRaw (s.endWith status einfo) = extractRaw s := by
  rw [extractRaw, extractRaw, rawChunks_endWith]
  rfl

theorem extractCommand_endWith : extractCommand (s.endWith status einfo) = extractCommand s := by
  rw [extractCommand, extractCommand, extractSectored_endWith, extractRaw_endWith]
  rfl

end

/-- Settles O58: no command's body reads them. -/
theorem noCommandReadsStatusOrEinfo : Obligations.NoCommandReadsStatusOrEinfo := by
  intro i s status einfo
  cases i with
  | hashA => exact congrArg Host.Outcome.next (hashCommand_endWith s status einfo .hashA)
  | hashB => exact congrArg Host.Outcome.next (hashCommand_endWith s status einfo .hashB)
  | hashK => exact congrArg Host.Outcome.next (hashCommand_endWith s status einfo .tableKey)
  | decrypt => exact congrArg Host.Outcome.next (cryptCommand_endWith s status einfo .dec)
  | encrypt => exact congrArg Host.Outcome.next (cryptCommand_endWith s status einfo .enc)
  | keygen => exact congrArg Host.Outcome.next (keygenCommand_endWith s status einfo)
  | extract => exact congrArg Host.Outcome.next (extractCommand_endWith s status einfo)
  | decomp => exact congrArg Host.Outcome.next (decompCommand_endWith s status einfo)

end Sys2Proof.Machine
end
